-- ==== Sys2Proof/Word.lean ====
section
/-! DEFINITION. The widths the device has: bytes of its buffers, 32-bit registers and command words, 16-bit
window offsets (00_scope.md R6, 20_memory.md R200). -/

namespace Sys2Proof

/-- A byte of a buffer, 00_scope.md section 5. -/
abbrev Byte := BitVec 8

/-- A register value, a command word or the data word of a host access: 32 bits, 00_scope.md R6. -/
abbrev Word := BitVec 32

/-- A byte offset in the device window: 16 bits, 20_memory.md R200. -/
abbrev Offset := BitVec 16

end Sys2Proof
end

