-- ==== Sys2Proof/Config.lean ====
section
/-! DEFINITION. The fixed constants of 00_scope.md R6, the model arguments (buffer sizes) as a record, the OPEN
platform parameters, and the free values: opaque constants without a body, of which nothing can be proved. -/

namespace Sys2Proof

/-- BLOCK, 00_scope.md R6. -/
abbrev Config.block : Nat := 16
/-- KEY_BYTES, 00_scope.md R6. -/
abbrev Config.keyBytes : Nat := 32
/-- SEP, the ASCII code of the comma, 00_scope.md R6 and R14. -/
abbrev Config.sep : Byte := 0x2C#8
/-- ROT, 00_scope.md R6. -/
abbrev Config.rot : Nat := 2
/-- ADD, 00_scope.md R6. -/
abbrev Config.addend : Byte := 7#8
/-- DEVICE_ID, the hardwired value of ID, 10_state.md R103. -/
abbrev Config.deviceId : Word := 0x50430100#32

/-- The rows of 00_scope.md R6 marked "model argument": the buffer sizes in bytes. They are held in the state as
plain data so that a statement can quantify over them (DESIGN CHOICE, log 3); no step changes them. -/
structure Params where
  kbufBytes : Nat
  ibufBytes : Nat
  obufBytes : Nat
deriving DecidableEq, Repr

/-- The default values of 00_scope.md R6. -/
def Params.default : Params := { kbufBytes := 128, ibufBytes := 8192, obufBytes := 16384 }

/-- The constraints of 00_scope.md R6 on the buffer sizes. -/
abbrev Params.Ok (p : Params) : Prop :=
  (p.kbufBytes % 4 = 0 ∧ 64 ≤ p.kbufBytes ∧ p.kbufBytes ≤ 256) ∧
  (p.ibufBytes % 4 = 0 ∧ 64 ≤ p.ibufBytes ∧ p.ibufBytes ≤ 16384) ∧
  (p.obufBytes % 4 = 0 ∧ 2 * p.ibufBytes ≤ p.obufBytes ∧ p.obufBytes ≤ 32768)

/-- BASE divided by 64 KiB. OPEN: any natural number (20_memory.md R200, log 14). -/
opaque Config.baseIndex : Nat

/-- BASE, a 64 KiB-aligned platform address, 20_memory.md R200. -/
def Config.base : Nat := 65536 * Config.baseIndex

/-- IRQ_LINE, the platform interrupt input IRQ drives. OPEN (60_exceptions.md R610, log 14). -/
opaque Config.irqLine : Nat

/-- FREE VALUE. Which of the codes 60_exceptions.md R602 allows a command reports after it read a POISON byte
(70_reset_and_hazards.md R726, log 6). The argument is the state's counter. -/
opaque Config.freeCode : Nat → Nat

/-- FREE VALUE. OLEN after a command that read a POISON byte and reported OK (70_reset_and_hazards.md R726,
log 6). -/
opaque Config.freeOlen : Nat → Nat

/-- FREE VALUE. What a host read sees in byte lane `lane` where the byte is POISON (70_reset_and_hazards.md R726,
log 7). Arguments: the state's counter, the lane. -/
opaque Config.freeByte : Nat → Nat → Byte

/-- FREE VALUE. What the host's named value holds after a read that got BUSERR, which returns no data
(20_memory.md R208, log 8). -/
opaque Config.freeWord : Nat → Word

/-- FREE VALUE. Which agent moves at a turn that nothing in the state settles (70_reset_and_hazards.md R727: any
interleaving; log 1). -/
opaque Config.freeTurn : Nat → Nat

end Sys2Proof
end

