-- ==== Sys2Proof/Machine/State.lean ====
section
/-! DEFINITION. The state: the record of 10_state.md R141, the model arguments, and the agents' plain data (the
host's program and who moves next); the reasons a step can stop; the state after reset. -/

namespace Sys2Proof.Machine

/-- The values STATUS.ERRCODE takes, 60_exceptions.md R600. Codes 11 to 15 are never produced (R601) and have no
name; `emptyInputError` (8) has one and is never produced by the device (R601). -/
inductive ErrCode where
  | ok
  | invalidKeyFormat
  | invalidKeyLength
  | keyTooShortError
  | invalidCiphertextEncoding
  | invalidBlockSize
  | paddingError
  | invalidUtf8
  | emptyInputError
  | illegalCommand
  | capacityError
deriving DecidableEq, Repr

/-- A buffer: its bytes by index, as (index, byte) pairs with indexes strictly rising. An index that is not
listed is POISON (10_state.md R141, 70_reset_and_hazards.md R702 and R726): it has no value (log 5). -/
abbrev Memory := List Host.Cell

/-- The canonical form of a buffer: indexes strictly rising. An unlisted index has no value, so no entry can
equal what an unlisted index reads as. -/
abbrev Memory.wf (m : Memory) : Prop := (m.map Prod.fst).Pairwise (· < ·)

/-- The inputs of a command, copied when it starts: 10_state.md R131, 40_lifecycle.md R401. -/
structure Snapshot where
  cmd : Word
  ilen : Word
  klen : Word
  ibuf : Memory
  kbuf : Memory
deriving DecidableEq, Repr

/-- The engine phase, 10_state.md R130. -/
inductive Phase where
  | idle
  | busy (snap : Snapshot)
deriving DecidableEq, Repr

/-- The set of model fault reasons a run has recorded, 10_state.md R141 and 70_reset_and_hazards.md R726. -/
structure FaultSet where
  busError : Bool
  undefReadHost : Bool
  undefReadEngine : Bool
deriving DecidableEq, Repr

/-- The agents of 70_reset_and_hazards.md R727. `environment` moves by a hardware reset. -/
inductive Agent where
  | host
  | engine
  | environment
deriving DecidableEq, Repr

/-- The widths of a host access, 20_memory.md R203 and R204: 1, 2 or 4 bytes. -/
inductive Width where
  | w8
  | w16
  | w32
deriving DecidableEq, Repr

/-- What a host write carries: a constant, or a named value an earlier read got (30_encoding.md R307). -/
inductive HostValue where
  | const (v : Word)
  | name (x : Nat)
deriving DecidableEq, Repr

/-- One line of a host program, 30_encoding.md R307. Names and labels are numbers (log 12). -/
inductive HostOp where
  /-- `W32 off, v`, `W16 off, v`, `W8 off, v`. -/
  | write (n : Width) (off : Offset) (v : HostValue)
  /-- `R32 off -> name`, `R8 off -> name`; a 16-bit read is MemRead with n = 2 (20_memory.md R203). -/
  | read (n : Width) (off : Offset) (x : Nat)
  /-- `label:` names the next line. -/
  | label (l : Nat)
  /-- `BNZ name, mask, label`. -/
  | bnz (x : Nat) (mask : Word) (l : Nat)
deriving DecidableEq, Repr

/-- The HOST agent of 70_reset_and_hazards.md R727: its program (a parameter of the run), the line it is at, and
the values its reads got, by name, names strictly rising. -/
structure HostAgent where
  prog : List HostOp
  pc : Nat
  vars : List (Nat × Word)
deriving DecidableEq, Repr

/-- The state: CodecState of 10_state.md R141, then the model's own fields (log 1, 3, 4, 6). -/
structure State where
  /-- CTRL.IRQ_EN, R104. -/
  irqEn : Bool
  /-- STATUS.DONE, R105. -/
  done : Bool
  /-- STATUS.BUSYWR, R105. -/
  busywr : Bool
  /-- STATUS.ERRCODE, R105. -/
  errcode : ErrCode
  /-- CMD, R106. -/
  cmd : Word
  /-- ILEN, R107. -/
  ilen : Word
  /-- KLEN, R108. -/
  klen : Word
  /-- OLEN, R109. -/
  olen : Word
  /-- KBUF, R120. -/
  kbuf : Memory
  /-- IBUF, R121. -/
  ibuf : Memory
  /-- OBUF, R122. -/
  obuf : Memory
  /-- The engine phase, R130. -/
  phase : Phase
  /-- The recorded fault reasons, R141. -/
  faults : FaultSet
  /-- The model arguments of 00_scope.md R6. -/
  params : Params
  /-- The HOST agent, 70_reset_and_hazards.md R727. -/
  host : HostAgent
  /-- Who moves in the coming steps (log 1). -/
  sched : List Agent
  /-- Who moves once `sched` is used up: `none` for the default rule; `some n` for free turns without end, `n` the
  argument of the next one (log 1). -/
  freeTurn : Option Nat
  /-- The argument of the next free value (log 6). -/
  freeCtr : Nat
deriving DecidableEq, Repr

/-- Why a run stops. The fault reasons of 70_reset_and_hazards.md R726 are NOT here: they are recorded in
`State.faults` and the machine goes on. -/
inductive Fault where
  /-- A command's completion was asked for while the phase is IDLE, where it is not enabled
  (40_lifecycle.md R402). Raised by every command's meaning; `step` never asks for it. SAFE. -/
  | completionNotEnabled
  /-- A host line uses a named value no read has assigned: no host program of 30_encoding.md R307. Raised by
  the HOST agent's step. SAFE. -/
  | unboundHostName
  /-- A BNZ that is taken names a label the program does not have: no host program of 30_encoding.md R307.
  Raised by the HOST agent's step. SAFE. -/
  | unknownHostLabel
deriving DecidableEq, Repr

/-- Why an instruction has no meaning. -/
inductive Refusal where
  /-- An instruction whose meaning is not written yet, by its mnemonic. Raised by `exec` only; no arm of this
  model raises it. SAFE. -/
  | notModelled (mnemonic : String)
deriving DecidableEq, Repr

/-- The machine right after reset: 10_state.md R140 and R141, 70_reset_and_hazards.md R701 to R703. The buffers
list nothing: every byte is POISON. The sizes are the defaults of 00_scope.md R6. No host program is placed and
no turn is scheduled (log 1, 4). -/
def State.reset : State where
  irqEn := false
  done := false
  busywr := false
  errcode := .ok
  cmd := 0#32
  ilen := 0#32
  klen := 0#32
  olen := 0#32
  kbuf := []
  ibuf := []
  obuf := []
  phase := .idle
  faults := { busError := false, undefReadHost := false, undefReadEngine := false }
  params := Params.default
  host := { prog := [], pc := 0, vars := [] }
  sched := []
  freeTurn := none
  freeCtr := 0

end Sys2Proof.Machine
end

