-- ==== Sys2Proof/Machine/Ops.lean ====
section
/-! DEFINITION. The named operations over buffers and registers: reading and writing a buffer, starting a command,
completing it (the device's "trap entry", 60_exceptions.md R606), acknowledging it (its "return", R607), reset. -/

namespace Sys2Proof.Machine

/-! ### Sparse data by key: buffers and the host's named values -/

/-- The value listed at a key. -/
def Sparse.get {α : Type} (k : Nat) : List (Nat × α) → Option α
  | [] => none
  | (j, v) :: rest => if j = k then some v else Sparse.get k rest

/-- List a value at a key, in the place of any value listed there, keeping the keys strictly rising. -/
def Sparse.insert {α : Type} (k : Nat) (v : α) : List (Nat × α) → List (Nat × α)
  | [] => [(k, v)]
  | (j, u) :: rest =>
    if k < j then (k, v) :: (j, u) :: rest
    else if k = j then (k, v) :: rest
    else (j, u) :: Sparse.insert k v rest

/-- Byte `k` of a buffer: a byte, or `none` for POISON (10_state.md R141). -/
def Memory.get (m : Memory) (k : Nat) : Option Byte := Sparse.get k m

/-- `buf[k] <- b`. -/
def Memory.set (m : Memory) (k : Nat) (b : Byte) : Memory := Sparse.insert k b m

/-- `buf[k + j] <- bs[j]` for each `j`, as one access (20_memory.md R204, R209). -/
def Memory.setBytes (m : Memory) (k : Nat) : List Byte → Memory
  | [] => m
  | b :: bs => Memory.setBytes (m.set k b) (k + 1) bs

/-- A buffer whose bytes from index `k` on are `bs`, and every other byte POISON. -/
def Memory.ofBytesFrom (k : Nat) : List Byte → Memory
  | [] => []
  | b :: bs => (k, b) :: Memory.ofBytesFrom (k + 1) bs

/-- A buffer that holds `bs` from index 0 on and POISON beyond (40_lifecycle.md R404). -/
def Memory.ofBytes (bs : List Byte) : Memory := Memory.ofBytesFrom 0 bs

/-- The slice `buf[0..n)`, each byte or POISON. -/
def Memory.slice (m : Memory) (n : Nat) : List (Option Byte) := (List.range n).map m.get

/-- Every listed index is below the buffer's size. -/
abbrev Memory.fits (m : Memory) (size : Nat) : Prop := ∀ c ∈ m, c.1 < size

/-! ### The engine phase -/

/-- STATUS.BUSY: 1 exactly when the phase is BUSY (10_state.md R130). -/
def Phase.isBusy : Phase → Bool
  | .idle => false
  | .busy _ => true

/-- The snapshot an accepted write of `v` to CMD takes (40_lifecycle.md R401). -/
def State.snapshotWith (s : State) (v : Word) : Snapshot :=
  { cmd := v, ilen := s.ilen, klen := s.klen, ibuf := s.ibuf, kbuf := s.kbuf }

/-- An accepted write of `v` to CMD: the start of a command, 40_lifecycle.md R400. BUSYWR and CTRL stay. -/
def State.startCommand (s : State) (v : Word) : State :=
  { s with
    cmd := v
    done := false
    errcode := .ok
    olen := 0#32
    phase := .busy (s.snapshotWith v) }

/-- The command word the engine is running, if it is running one: the nearest thing to a fetch this device has
(10_state.md R101, 20_memory.md R224). -/
def State.runningWord (s : State) : Option Word :=
  match s.phase with
  | .idle => none
  | .busy snap => some snap.cmd

/-! ### Completion, in one atomic step: 40_lifecycle.md R403 -/

/-- What every completion writes: DONE and the phase, and the three results given. -/
def State.completeWith (s : State) (c : ErrCode) (olen : Word) (obuf : Memory) : State :=
  { s with errcode := c, olen := olen, obuf := obuf, done := true, phase := .idle }

/-- NoData: OLEN 0, OK, OBUF unchanged (40_lifecycle.md R403, R409). -/
def State.completeNoData (s : State) : State := s.completeWith .ok 0#32 s.obuf

/-- Ok(out): OBUF holds `out` and POISON beyond it, OLEN its length (40_lifecycle.md R404). -/
def State.completeOk (s : State) (out : List Byte) : State :=
  s.completeWith .ok (BitVec.ofNat 32 out.length) (Memory.ofBytes out)

/-- Whether an error leaves OBUF as it was (40_lifecycle.md R405). -/
def ErrCode.keepsObuf : ErrCode → Bool
  | .illegalCommand => true
  | .capacityError => true
  | _ => false

/-- Fail(c): taking an error, 40_lifecycle.md R405 and 60_exceptions.md R606. OLEN 0; OBUF POISON, or unchanged
for IllegalCommand and CapacityError. -/
def State.completeFail (s : State) (c : ErrCode) : State :=
  s.completeWith c 0#32 (if c.keepsObuf then s.obuf else [])

/-- FREE VALUE: one of the codes a command may report, unconstrained among them (log 6). -/
def pickCode (allowed : List ErrCode) (n : Nat) : ErrCode :=
  allowed.getD (Config.freeCode n % allowed.length) .ok

/-- FREE VALUE: an OLEN up to OBUF_BYTES, unconstrained below that (log 6). -/
def pickOlen (obufBytes n : Nat) : Word := BitVec.ofNat 32 (Config.freeOlen n % (obufBytes + 1))

/-- Completion after the body read a POISON byte, 70_reset_and_hazards.md R726: UNDEF_READ_ENGINE is recorded;
ERRCODE is any code the command may complete with; OLEN any value up to OBUF_BYTES if that is OK and 0 otherwise;
OBUF is all POISON. -/
def State.completeUndef (s : State) (allowed : List ErrCode) : State :=
  let c := pickCode allowed s.freeCtr
  { s.completeWith c (if c = .ok then pickOlen s.params.obufBytes s.freeCtr else 0#32) [] with
    faults := { s.faults with undefReadEngine := true }
    freeCtr := s.freeCtr + 1 }

/-- Why a command body ends without a result: `raise Fail(c)`, or a read of a POISON byte. -/
inductive Stop where
  | fail (c : ErrCode)
  | undefRead
deriving DecidableEq, Repr

/-- What a command body returns: NoData, or Ok(out) (40_lifecycle.md R403). -/
inductive Result where
  | noData
  | data (out : List Byte)
deriving DecidableEq, Repr

/-- A computation of a command body: later steps do not run after a stop (00_scope.md section 5). -/
abbrev Body (α : Type) := Except Stop α

/-- `raise Fail(c)`. -/
def failWith {α : Type} (c : ErrCode) : Body α := .error (.fail c)

/-- The completion of a command whose body gave `r` (40_lifecycle.md R403). -/
def State.complete (s : State) (allowed : List ErrCode) (r : Body Result) : State :=
  match r with
  | .ok .noData => s.completeNoData
  | .ok (.data out) => s.completeOk out
  | .error (.fail c) => s.completeFail c
  | .error .undefRead => s.completeUndef allowed

/-- The engine's one step: complete the running command by its body, a function of the snapshot
(40_lifecycle.md R402, R403, R411). Not enabled while the phase is IDLE. -/
def runCommand (s : State) (allowed : List ErrCode) (body : Snapshot → Body Result) :
    Host.Outcome State Fault Refusal :=
  match s.phase with
  | .idle => .fault .completionNotEnabled
  | .busy snap => .next (s.complete allowed (body snap))

/-! ### Reset: 70_reset_and_hazards.md R700 to R704 -/

/-- A reset of the device, hardware or soft: every register and field of 10_state.md R140 takes its reset value,
a running command is abandoned, every buffer byte is POISON. Recorded faults stay (R726); the sizes are
hardwired; the host and the schedule are no part of the device. -/
def State.deviceReset (s : State) : State :=
  { s with
    irqEn := false
    done := false
    busywr := false
    errcode := .ok
    cmd := 0#32
    ilen := 0#32
    klen := 0#32
    olen := 0#32
    kbuf := []
    ibuf := []
    obuf := []
    phase := .idle }

/-! ### The single-register writes the bus makes -/

/-- A write dropped because BUSY = 1, 70_reset_and_hazards.md R722. -/
def State.dropWrite (s : State) : State := { s with busywr := true }

/-- W1C of STATUS: each of DONE (bit 1) and BUSYWR (bit 3) is cleared by a 1 and kept by a 0 (10_state.md R105).
Clearing DONE is how the host finishes with a completion (60_exceptions.md R607). -/
def State.acknowledge (s : State) (v : Word) : State :=
  { s with done := s.done && !v.getLsbD 1, busywr := s.busywr && !v.getLsbD 3 }

/-- A write to CTRL: bit 0 set is a soft reset, whatever the other bits (70_reset_and_hazards.md R704); bit 0
clear sets IRQ_EN to bit 1 and nothing else (R705). -/
def State.writeCtrl (s : State) (v : Word) : State :=
  if v.getLsbD 0 then s.deviceReset else { s with irqEn := v.getLsbD 1 }

/-- Record BUS_ERROR, 70_reset_and_hazards.md R726. -/
def State.recordBusError (s : State) : State := { s with faults := { s.faults with busError := true } }

/-- Record UNDEF_READ_HOST, 70_reset_and_hazards.md R726. -/
def State.recordUndefRead (s : State) : State := { s with faults := { s.faults with undefReadHost := true } }

/-- Step the counter the free values are applied to (log 6). -/
def State.nextFree (s : State) : State := { s with freeCtr := s.freeCtr + 1 }

end Sys2Proof.Machine
end

