-- ==== Sys2Proof/Syntax.lean ====
section
/-! DEFINITION. The instruction set: one constructor per row of spec/opcode_table.json (30_encoding.md R302). -/

namespace Sys2Proof

/-- A command of SCFA-CODEC command set 1.0 (00_scope.md R2). No command has an operand in its word
(30_encoding.md R304); the three ILLEGAL rows carry the bits their word leaves free, so that the word can be
given back (10_state.md R106). -/
inductive Instr where
  /-- 0x0 NOP, 40_lifecycle.md R409. -/
  | nop
  /-- 0x1 PAD, 41_padding.md R423. -/
  | pad
  /-- 0x2 UNPAD, 41_padding.md R424. -/
  | unpad
  /-- 0x3 XFORM, 42_transform.md R446. -/
  | xform
  /-- 0x4 IXFORM, 42_transform.md R447. -/
  | ixform
  /-- 0x5 HEXENC, 43_hex.md R463. -/
  | hexenc
  /-- 0x6 HEXDEC, 43_hex.md R464. -/
  | hexdec
  /-- 0x7 KEYDEC, 43_hex.md R465. -/
  | keydec
  /-- 0x8 ENCRYPT, 44_codec.md R483. -/
  | encrypt
  /-- 0x9 DECRYPT, 44_codec.md R484. -/
  | decrypt
  /-- ILLEGAL, OP 0xA or 0xB with RSV = 0; `lo` is bit 0 (40_lifecycle.md R408). -/
  | illegalAB (lo : BitVec 1)
  /-- ILLEGAL, OP 0xC to 0xF with RSV = 0; `lo` is bits 1:0 (40_lifecycle.md R408). -/
  | illegalCF (lo : BitVec 2)
  /-- ILLEGAL, the table's catch-all: any word with RSV (bits 31:4) other than 0 (40_lifecycle.md R408). -/
  | illegalRsv (op : BitVec 4) (rsv : BitVec 28)
deriving DecidableEq, Repr

end Sys2Proof
end

