-- ==== Sys2Proof/Machine/Operands.lean ====
section
/-! DEFINITION. The implicit operands of the commands (30_encoding.md R303), reading their bytes, the capacity
check that comes before a body (40_lifecycle.md R407), and the codes a command may report (60_exceptions.md
R602). -/

namespace Sys2Proof.Machine

/-- The commands that read ILEN and IBUF, 30_encoding.md R303. -/
def readsIlen : Instr → Bool
  | .nop => false
  | .pad => true
  | .unpad => true
  | .xform => true
  | .ixform => true
  | .hexenc => true
  | .hexdec => true
  | .keydec => false
  | .encrypt => true
  | .decrypt => true
  | .illegalAB _ => false
  | .illegalCF _ => false
  | .illegalRsv _ _ => false

/-- The commands that read KLEN and KBUF, 30_encoding.md R303. -/
def readsKlen : Instr → Bool
  | .nop => false
  | .pad => false
  | .unpad => false
  | .xform => true
  | .ixform => true
  | .hexenc => false
  | .hexdec => false
  | .keydec => true
  | .encrypt => true
  | .decrypt => true
  | .illegalAB _ => false
  | .illegalCF _ => false
  | .illegalRsv _ _ => false

/-- `outlen(cmd, n)` for the three commands whose output length is checked, 40_lifecycle.md R407; 0 for the
others, whose output always fits. -/
def outlen (i : Instr) (n : Nat) : Nat :=
  match i with
  | .pad => n + (Config.block - n % Config.block)
  | .hexenc => 2 * n
  | .encrypt => 33 * (n / 16 + 1) - 1
  | _ => 0

/-- Whether `capacity_check` fails for a command with these lengths, 40_lifecycle.md R407. Its three checks all
raise CapacityError, in the order ILEN, KLEN, output length. -/
def overCapacity (p : Params) (i : Instr) (ilen klen : Nat) : Bool :=
  (readsIlen i && decide (p.ibufBytes < ilen)) ||
  (readsKlen i && decide (p.kbufBytes < klen)) ||
  decide (p.obufBytes < outlen i ilen)

/-- `capacity_check(cmd, snap)`, 40_lifecycle.md R407. -/
def capacityCheck (p : Params) (i : Instr) (snap : Snapshot) : Body Unit :=
  if overCapacity p i snap.ilen.toNat snap.klen.toNat then failWith .capacityError else .ok ()

/-- The codes a command can complete with, 60_exceptions.md R602. -/
def allowedCodes : Instr → List ErrCode
  | .nop => [.ok]
  | .pad => [.ok, .capacityError]
  | .unpad => [.ok, .paddingError, .capacityError]
  | .xform => [.ok, .keyTooShortError, .invalidBlockSize, .capacityError]
  | .ixform => [.ok, .keyTooShortError, .invalidBlockSize, .capacityError]
  | .hexenc => [.ok, .capacityError]
  | .hexdec => [.ok, .invalidCiphertextEncoding, .capacityError]
  | .keydec => [.ok, .invalidKeyFormat, .invalidKeyLength, .capacityError]
  | .encrypt => [.ok, .invalidKeyFormat, .invalidKeyLength, .capacityError]
  | .decrypt => [.ok, .invalidKeyFormat, .invalidKeyLength, .invalidCiphertextEncoding, .invalidBlockSize,
      .paddingError, .invalidUtf8, .capacityError]
  | .illegalAB _ => [.illegalCommand]
  | .illegalCF _ => [.illegalCommand]
  | .illegalRsv _ _ => [.illegalCommand]

/-- The input snap.IBUF[0..snap.ILEN), each byte or POISON (20_memory.md R210). -/
def Snapshot.input (snap : Snapshot) : List (Option Byte) := snap.ibuf.slice snap.ilen.toNat

/-- The key operand snap.KBUF[0..snap.KLEN), each byte or POISON (20_memory.md R210). -/
def Snapshot.key (snap : Snapshot) : List (Option Byte) := snap.kbuf.slice snap.klen.toNat

/-- Read one byte of an operand: a POISON byte is UNDEF_READ_ENGINE (70_reset_and_hazards.md R726). -/
def demand : Option Byte → Body Byte
  | none => .error .undefRead
  | some b => .ok b

/-- Read every byte of an operand, in order. -/
def demandAll : List (Option Byte) → Body (List Byte)
  | [] => .ok []
  | c :: cs => do
    let b ← demand c
    let bs ← demandAll cs
    return b :: bs

end Sys2Proof.Machine
end

