-- ==== Sys2Proof/Machine/Hex.lean ====
section
/-! DEFINITION. The hex encoder, the hex decoder, the key decoder, and the commands HEXENC, HEXDEC and KEYDEC
(43_hex.md). -/

namespace Sys2Proof.Machine

/-- HEXDIGITS of 43_hex.md R460: the code of the lowercase digit of a nibble. -/
def hexDigit (v : Byte) : Byte := if v.toNat < 10 then 0x30#8 + v else 0x61#8 + (v - 10#8)

/-- `hexenc(s)`, 43_hex.md R460: the digit of the high nibble first. -/
def hexenc (s : List Byte) : List Byte := s.flatMap fun (b : Byte) => [hexDigit (b >>> 4), hexDigit (b &&& 0x0F#8)]

/-- `hexval(c)`, 43_hex.md R461: both letter cases. -/
def hexval (c : Byte) : Option Byte :=
  if 0x30 ≤ c.toNat ∧ c.toNat ≤ 0x39 then some (c - 0x30#8)
  else if 0x61 ≤ c.toNat ∧ c.toNat ≤ 0x66 then some (c - 0x61#8 + 10#8)
  else if 0x41 ≤ c.toNat ∧ c.toNat ≤ 0x46 then some (c - 0x41#8 + 10#8)
  else none

/-- The values of a text's digits; `none` if some character is no hex digit. -/
def hexvals : List Byte → Option (List Byte)
  | [] => some []
  | c :: cs =>
    match hexval c with
    | none => none
    | some v => (hexvals cs).map (v :: ·)

/-- `16*high + low` for each pair of digit values, 43_hex.md R461. -/
def pairDigits : List Byte → List Byte
  | h :: l :: rest => (16#8 * h + l) :: pairDigits rest
  | _ => []

/-- `hexdec(t)`, 43_hex.md R461; `none` is INVALID. -/
def hexdec (t : List Byte) : Option (List Byte) :=
  if t.length % 2 ≠ 0 then none else (hexvals t).map pairDigits

/-- `hexdec` with the caller's error in the place of INVALID. -/
def hexdecOr (c : ErrCode) (t : List Byte) : Body (List Byte) :=
  match hexdec t with
  | none => failWith c
  | some r => .ok r

/-- Read an operand's characters in order and give their digit values; stop with error `c` at the first that is
no hex digit. -/
def demandHexvals (c : ErrCode) : List (Option Byte) → Body (List Byte)
  | [] => .ok []
  | x :: xs => do
    let b ← demand x
    match hexval b with
    | none => failWith c
    | some v => do
      let vs ← demandHexvals c xs
      return v :: vs

/-- `hexdecOr` over an operand that may hold POISON bytes: an odd length is INVALID before any byte is read
(43_hex.md R461, 70_reset_and_hazards.md R726, log 9). -/
def hexdecOperand (c : ErrCode) (t : List (Option Byte)) : Body (List Byte) :=
  if t.length % 2 ≠ 0 then failWith c
  else do
    let vs ← demandHexvals c t
    return pairDigits vs

/-- The length check of `keydec`, after the format check (43_hex.md R462). -/
def checkKeyLength (r : List Byte) : Body (List Byte) :=
  if r.length ≠ Config.keyBytes then failWith .invalidKeyLength else .ok r

/-- `keydec(t)`, 43_hex.md R462. -/
def keydec (t : List Byte) : Body (List Byte) := do
  let r ← hexdecOr .invalidKeyFormat t
  checkKeyLength r

/-- `keydec` over an operand that may hold POISON bytes. -/
def keydecOperand (t : List (Option Byte)) : Body (List Byte) := do
  let r ← hexdecOperand .invalidKeyFormat t
  checkKeyLength r

/-- HEXENC, 43_hex.md R463. -/
def execHexenc (s : State) : Host.Outcome State Fault Refusal :=
  runCommand s (allowedCodes .hexenc) fun snap => do
    capacityCheck s.params .hexenc snap
    let d ← demandAll snap.input
    return .data (hexenc d)

/-- HEXDEC, 43_hex.md R464. -/
def execHexdec (s : State) : Host.Outcome State Fault Refusal :=
  runCommand s (allowedCodes .hexdec) fun snap => do
    capacityCheck s.params .hexdec snap
    let r ← hexdecOperand .invalidCiphertextEncoding snap.input
    return .data r

/-- KEYDEC, 43_hex.md R465. -/
def execKeydec (s : State) : Host.Outcome State Fault Refusal :=
  runCommand s (allowedCodes .keydec) fun snap => do
    capacityCheck s.params .keydec snap
    let key ← keydecOperand snap.key
    return .data key

end Sys2Proof.Machine
end

