-- ==== Sys2Proof/Machine/Padder.lean ====
section
/-! DEFINITION. The padder: pad and unpad over 16-byte blocks, and the commands PAD and UNPAD (41_padding.md). -/

namespace Sys2Proof.Machine

/-- The padding length of `n` data bytes, 41_padding.md R420. -/
def padLength (n : Nat) : Nat := Config.block - n % Config.block

/-- `pad(d)`, 41_padding.md R420. -/
def pad (d : List Byte) : List Byte :=
  d ++ List.replicate (padLength d.length) (BitVec.ofNat 8 (padLength d.length))

/-- Check 2 of `unpad`: the last byte is in 1..16 (41_padding.md R422). -/
def padByteInRange (p : Byte) : Bool := decide (1 ≤ p.toNat) && decide (p.toNat ≤ Config.block)

/-- `unpad(d)`, 41_padding.md R422: four checks in order, each raising PaddingError. No check asks for a length
that is a multiple of 16 (R425). -/
def unpad (d : List Byte) : Body (List Byte) :=
  match d.getLast? with
  | none => failWith .paddingError
  | some p =>
    if ¬ padByteInRange p then failWith .paddingError
    else if d.length < p.toNat then failWith .paddingError
    else if (d.drop (d.length - p.toNat)).all (· == p) then .ok (d.take (d.length - p.toNat))
    else failWith .paddingError

/-- Check 4 of `unpad` over an operand: read its bytes in order, and stop at the first that is not `p`. -/
def demandEqual (p : Byte) : List (Option Byte) → Body Unit
  | [] => .ok ()
  | c :: cs => do
    let b ← demand c
    if b = p then demandEqual p cs else failWith .paddingError

/-- `unpad` over an operand that may hold POISON bytes: the same checks, each byte read only when its check or
the result needs it (41_padding.md R422, 70_reset_and_hazards.md R726, log 9). -/
def unpadOperand (d : List (Option Byte)) : Body (List Byte) :=
  match d.getLast? with
  | none => failWith .paddingError
  | some last => do
    let p ← demand last
    if ¬ padByteInRange p then failWith .paddingError
    else if d.length < p.toNat then failWith .paddingError
    else do
      demandEqual p (d.drop (d.length - p.toNat))
      demandAll (d.take (d.length - p.toNat))

/-- PAD, 41_padding.md R423. -/
def execPad (s : State) : Host.Outcome State Fault Refusal :=
  runCommand s (allowedCodes .pad) fun snap => do
    capacityCheck s.params .pad snap
    let d ← demandAll snap.input
    return .data (pad d)

/-- UNPAD, 41_padding.md R424. -/
def execUnpad (s : State) : Host.Outcome State Fault Refusal :=
  runCommand s (allowedCodes .unpad) fun snap => do
    capacityCheck s.params .unpad snap
    let d ← unpadOperand snap.input
    return .data d

end Sys2Proof.Machine
end

