-- ==== Sys2Proof/Machine/Transform.lean ====
section
/-! DEFINITION. The transform engine: the byte functions, the block functions, and the commands XFORM and IXFORM
(00_scope.md R10 to R13, 42_transform.md). -/

namespace Sys2Proof.Machine

/-- `rotl8(v, n)`, 00_scope.md R11. -/
def rotl8 (v : Byte) (n : Nat) : Byte := (v <<< n) ||| (v >>> (8 - n))

/-- `rotr8(v, n)`, 00_scope.md R12. -/
def rotr8 (v : Byte) (n : Nat) : Byte := (v >>> n) ||| (v <<< (8 - n))

/-- `E(B, K)`, the forward byte transform, 42_transform.md R440; the sum is mod 256. -/
def forwardByte (b k : Byte) : Byte := rotl8 ((b ^^^ k) + Config.addend) Config.rot

/-- `D(C, K)`, the inverse byte transform, 42_transform.md R441; the difference is the non-negative remainder
mod 256 (00_scope.md R10). -/
def inverseByte (c k : Byte) : Byte := (rotr8 c Config.rot - Config.addend) ^^^ k

/-- The key-length guard and the cyclic key indexing the two block functions share (42_transform.md R443,
R444). -/
def keyedBlock (f : Byte → Byte → Byte) (b k : List Byte) : Body (List Byte) :=
  if k.length < b.length then failWith .keyTooShortError
  else .ok (b.zipIdx.map fun p => f p.1 (k.getD (p.2 % k.length) 0#8))

/-- `transform_block(b, k)`, 42_transform.md R443. -/
def transformBlock (b k : List Byte) : Body (List Byte) := keyedBlock forwardByte b k

/-- `inverse_transform_block(b, k)`, 42_transform.md R444. -/
def inverseTransformBlock (b k : List Byte) : Body (List Byte) := keyedBlock inverseByte b k

/-- Read data byte `i` and key byte `i mod len(k)` and combine them, for each byte of a block from index `i` on. -/
def keyedLanes (f : Byte → Byte → Byte) (k : List (Option Byte)) (i : Nat) : List (Option Byte) → Body (List Byte)
  | [] => .ok []
  | c :: cs => do
    let b ← demand c
    let kb ← demand (k.getD (i % k.length) none)
    let rest ← keyedLanes f k (i + 1) cs
    return f b kb :: rest

/-- A block function over operands that may hold POISON bytes: the guard reads no byte, and of the key only the
bytes the lanes index are read (42_transform.md R443 to R445, 70_reset_and_hazards.md R726, log 9). -/
def keyedBlockOperand (f : Byte → Byte → Byte) (b k : List (Option Byte)) : Body (List Byte) :=
  if k.length < b.length then failWith .keyTooShortError else keyedLanes f k 0 b

/-- The body XFORM and IXFORM share: the block-size check comes before the key guard (42_transform.md R446,
R447). -/
def blockBody (f : Byte → Byte → Byte) (snap : Snapshot) : Body Result :=
  if snap.ilen.toNat ≠ Config.block then failWith .invalidBlockSize
  else do
    let out ← keyedBlockOperand f snap.input snap.key
    return .data out

/-- XFORM, 42_transform.md R446. -/
def execXform (s : State) : Host.Outcome State Fault Refusal :=
  runCommand s (allowedCodes .xform) fun snap => do
    capacityCheck s.params .xform snap
    blockBody forwardByte snap

/-- IXFORM, 42_transform.md R447. -/
def execIxform (s : State) : Host.Outcome State Fault Refusal :=
  runCommand s (allowedCodes .ixform) fun snap => do
    capacityCheck s.params .ixform snap
    blockBody inverseByte snap

end Sys2Proof.Machine
end

