-- ==== Sys2Proof/Machine/Codec.lean ====
section
/-! DEFINITION. The codec sequencer: splitter, joiner, UTF-8 check, the pipelines, and the commands ENCRYPT and
DECRYPT (44_codec.md). -/

namespace Sys2Proof.Machine

/-- The loop of `split`: `cur` is the segment being gathered (44_codec.md R480). -/
def splitFrom (cur : List Byte) : List Byte → List (List Byte)
  | [] => [cur]
  | c :: cs => if c = Config.sep then cur :: splitFrom [] cs else splitFrom (cur ++ [c]) cs

/-- `split(t)`, 44_codec.md R480: the pieces between separators, in order, empty ones skipped. -/
def split (t : List Byte) : List (List Byte) := (splitFrom [] t).filter fun s => !s.isEmpty

/-- `join(L)`, 44_codec.md R481: one separator between neighbours. -/
def join : List (List Byte) → List Byte
  | [] => []
  | [s] => s
  | s :: rest => s ++ Config.sep :: join rest

/-- A range of byte values, both ends included. -/
abbrev ByteRange := Nat × Nat

/-- Whether a byte is in a range. -/
def inRange (r : ByteRange) (b : Byte) : Bool := decide (r.1 ≤ b.toNat) && decide (b.toNat ≤ r.2)

/-- The nine rows of the table of 44_codec.md R482: the range of byte 1, and the ranges of the bytes after it. -/
def utf8Rows : List (ByteRange × List ByteRange) :=
  [ ((0x00, 0x7F), []),
    ((0xC2, 0xDF), [(0x80, 0xBF)]),
    ((0xE0, 0xE0), [(0xA0, 0xBF), (0x80, 0xBF)]),
    ((0xE1, 0xEC), [(0x80, 0xBF), (0x80, 0xBF)]),
    ((0xED, 0xED), [(0x80, 0x9F), (0x80, 0xBF)]),
    ((0xEE, 0xEF), [(0x80, 0xBF), (0x80, 0xBF)]),
    ((0xF0, 0xF0), [(0x90, 0xBF), (0x80, 0xBF), (0x80, 0xBF)]),
    ((0xF1, 0xF3), [(0x80, 0xBF), (0x80, 0xBF), (0x80, 0xBF)]),
    ((0xF4, 0xF4), [(0x80, 0x8F), (0x80, 0xBF), (0x80, 0xBF)]) ]

/-- The left-to-right checker of 44_codec.md R482: `pending` are the ranges the current sequence still asks for;
where none are left, the next byte decides the row. -/
def utf8Scan : List ByteRange → List Byte → Bool
  | pending, [] => pending.isEmpty
  | r :: pending, b :: bs => inRange r b && utf8Scan pending bs
  | [], b :: bs =>
    match utf8Rows.find? fun row => inRange row.1 b with
    | none => false
    | some row => utf8Scan row.2 bs

/-- `utf8_valid(s)`, 44_codec.md R482. -/
def utf8Valid (s : List Byte) : Bool := utf8Scan [] s

/-- The consecutive 16-byte blocks `x[16j .. 16j+16)` of a byte string, in order (44_codec.md R483 step 4). -/
def blocks (x : List Byte) : List (List Byte) :=
  (List.range (x.length / Config.block)).map fun j => (x.drop (Config.block * j)).take Config.block

/-- Run a body on each element of a list in order, stopping at the first that stops. -/
def eachInOrder {α : Type} (f : α → Body (List Byte)) : List α → Body (List (List Byte))
  | [] => .ok []
  | a :: rest => do
    let r ← f a
    let rs ← eachInOrder f rest
    return r :: rs

/-- Steps 3 to 5 of ENCRYPT, 44_codec.md R483. -/
def encryptWith (key d : List Byte) : Body (List Byte) := do
  let cs ← eachInOrder (fun b => transformBlock b key) (blocks (pad d))
  return join (cs.map hexenc)

/-- Step 3 of DECRYPT for one segment: hex check, then size check (44_codec.md R484). -/
def decodeSegment (seg : List Byte) : Body (List Byte) := do
  let b ← hexdecOr .invalidCiphertextEncoding seg
  if b.length ≠ Config.block then failWith .invalidBlockSize else .ok b

/-- Step 6 of DECRYPT, 44_codec.md R484. -/
def checkUtf8 (p : List Byte) : Body (List Byte) := if utf8Valid p then .ok p else failWith .invalidUtf8

/-- Steps 2 to 6 of DECRYPT, 44_codec.md R484. -/
def decryptWith (key t : List Byte) : Body (List Byte) := do
  let blks ← eachInOrder decodeSegment (split t)
  let xs ← eachInOrder (fun b => inverseTransformBlock b key) blks
  let p ← unpad xs.flatten
  checkUtf8 p

/-- ENCRYPT, 44_codec.md R483: the key text is decoded and checked before the plaintext is read. -/
def execEncrypt (s : State) : Host.Outcome State Fault Refusal :=
  runCommand s (allowedCodes .encrypt) fun snap => do
    capacityCheck s.params .encrypt snap
    let key ← keydecOperand snap.key
    let d ← demandAll snap.input
    let out ← encryptWith key d
    return .data out

/-- DECRYPT, 44_codec.md R484: the key text is decoded and checked before the ciphertext is read. -/
def execDecrypt (s : State) : Host.Outcome State Fault Refusal :=
  runCommand s (allowedCodes .decrypt) fun snap => do
    capacityCheck s.params .decrypt snap
    let key ← keydecOperand snap.key
    let t ← demandAll snap.input
    let out ← decryptWith key t
    return .data out

end Sys2Proof.Machine
end

