-- ==== Sys2Proof/Machine/Lifecycle.lean ====
section
/-! DEFINITION. The commands without data: NOP and the three ILLEGAL rows (40_lifecycle.md R408, R409). -/

namespace Sys2Proof.Machine

/-- NOP: `return NoData`; it reads no length, so it cannot raise CapacityError (40_lifecycle.md R409). -/
def execNop (s : State) : Host.Outcome State Fault Refusal :=
  runCommand s (allowedCodes .nop) fun _ => .ok .noData

/-- ILLEGAL, OP 0xA or 0xB: `raise Fail(IllegalCommand)`, nothing read (40_lifecycle.md R406, R408). -/
def execIllegalAB (lo : BitVec 1) (s : State) : Host.Outcome State Fault Refusal :=
  runCommand s (allowedCodes (.illegalAB lo)) fun _ => failWith .illegalCommand

/-- ILLEGAL, OP 0xC to 0xF: `raise Fail(IllegalCommand)`, nothing read (40_lifecycle.md R406, R408). -/
def execIllegalCF (lo : BitVec 2) (s : State) : Host.Outcome State Fault Refusal :=
  runCommand s (allowedCodes (.illegalCF lo)) fun _ => failWith .illegalCommand

/-- ILLEGAL, a word with RSV not 0: `raise Fail(IllegalCommand)`, nothing read (40_lifecycle.md R406, R408). -/
def execIllegalRsv (op : BitVec 4) (rsv : BitVec 28) (s : State) : Host.Outcome State Fault Refusal :=
  runCommand s (allowedCodes (.illegalRsv op rsv)) fun _ => failWith .illegalCommand

end Sys2Proof.Machine
end

