-- ==== Sys2Proof/Machine/Dispatch.lean ====
section
/-! DEFINITION. One arm per row of spec/opcode_table.json: the engine's completion of each command
(40_lifecycle.md R411). -/

namespace Sys2Proof.Machine

def exec (i : Instr) (s : State) : Host.Outcome State Fault Refusal :=
  match i with
  | .nop => Sys2Proof.Machine.execNop s
  | .pad => Sys2Proof.Machine.execPad s
  | .unpad => Sys2Proof.Machine.execUnpad s
  | .xform => Sys2Proof.Machine.execXform s
  | .ixform => Sys2Proof.Machine.execIxform s
  | .hexenc => Sys2Proof.Machine.execHexenc s
  | .hexdec => Sys2Proof.Machine.execHexdec s
  | .keydec => Sys2Proof.Machine.execKeydec s
  | .encrypt => Sys2Proof.Machine.execEncrypt s
  | .decrypt => Sys2Proof.Machine.execDecrypt s
  | .illegalAB lo => Sys2Proof.Machine.execIllegalAB lo s
  | .illegalCF lo => Sys2Proof.Machine.execIllegalCF lo s
  | .illegalRsv op rsv => Sys2Proof.Machine.execIllegalRsv op rsv s

end Sys2Proof.Machine
end

