-- ==== Sys2Proof/WellFormed.lean ====
section
/-! DEFINITION. Which terms of the syntax stand for a command word. -/

namespace Sys2Proof

/-- The catch-all row of spec/opcode_table.json is matched last, so it stands only for words whose RSV field is
not 0 (30_encoding.md R301); every other constructor stands for a word whatever its bits. -/
def Instr.wellFormed : Instr → Bool
  | .nop => true
  | .pad => true
  | .unpad => true
  | .xform => true
  | .ixform => true
  | .hexenc => true
  | .hexdec => true
  | .keydec => true
  | .encrypt => true
  | .decrypt => true
  | .illegalAB _ => true
  | .illegalCF _ => true
  | .illegalRsv _ rsv => rsv != 0#28

end Sys2Proof
end

