-- ==== Sys2Proof/Decode.lean ====
section
/-! DEFINITION. Decoding a command word (30_encoding.md R300, R301), total on all 2^32 words; the encoder beside
it; and the opcode table of R302 as rows of mask and match. -/

namespace Sys2Proof

/-- Field OP, bits 3:0 of a command word, 30_encoding.md R300. -/
def opField (w : Word) : BitVec 4 := w.extractLsb' 0 4

/-- Field RSV, bits 31:4 of a command word, 30_encoding.md R300. -/
def rsvField (w : Word) : BitVec 28 := w.extractLsb' 4 28

/-- `decode(w)`, 30_encoding.md R301. An ILLEGAL word decodes to the constructor of its table row. -/
def decode (w : Word) : Instr :=
  if rsvField w = 0#28 then
    match (opField w).toNat with
    | 0 => .nop
    | 1 => .pad
    | 2 => .unpad
    | 3 => .xform
    | 4 => .ixform
    | 5 => .hexenc
    | 6 => .hexdec
    | 7 => .keydec
    | 8 => .encrypt
    | 9 => .decrypt
    | 10 => .illegalAB ((opField w).extractLsb' 0 1)
    | 11 => .illegalAB ((opField w).extractLsb' 0 1)
    | _ => .illegalCF ((opField w).extractLsb' 0 2)
  else .illegalRsv (opField w) (rsvField w)

/-- The word of a command, 30_encoding.md R302: RSV in the high 28 bits, OP in the low 4. -/
def encode : Instr → Word
  | .nop => 0x00000000#32
  | .pad => 0x00000001#32
  | .unpad => 0x00000002#32
  | .xform => 0x00000003#32
  | .ixform => 0x00000004#32
  | .hexenc => 0x00000005#32
  | .hexdec => 0x00000006#32
  | .keydec => 0x00000007#32
  | .encrypt => 0x00000008#32
  | .decrypt => 0x00000009#32
  | .illegalAB lo => 0x00000005#31 ++ lo
  | .illegalCF lo => 0x00000003#30 ++ lo
  | .illegalRsv op rsv => rsv ++ op

/-- The instruction this decoder reads from an instruction whose bits are `w`, numbered as
spec/opcode_table.json numbers them. Every command is one 32-bit word (30_encoding.md R306): bits the table does
not give are 0, and a longer text is no command. -/
def decodeTableWord (nbits w : Nat) : Option Instr :=
  if w % 2 ^ nbits < 2 ^ 32 then some (decode (BitVec.ofNat 32 (w % 2 ^ nbits))) else none

/-- The thirteen rows of spec/opcode_table.json in the table's order, as (mask, match); the first row that
matches wins. -/
def opcodeRows : List (Word × Word) :=
  [ (0xFFFFFFFF#32, 0x00000000#32), (0xFFFFFFFF#32, 0x00000001#32), (0xFFFFFFFF#32, 0x00000002#32),
    (0xFFFFFFFF#32, 0x00000003#32), (0xFFFFFFFF#32, 0x00000004#32), (0xFFFFFFFF#32, 0x00000005#32),
    (0xFFFFFFFF#32, 0x00000006#32), (0xFFFFFFFF#32, 0x00000007#32), (0xFFFFFFFF#32, 0x00000008#32),
    (0xFFFFFFFF#32, 0x00000009#32), (0xFFFFFFFE#32, 0x0000000A#32), (0xFFFFFFFC#32, 0x0000000C#32),
    (0x00000000#32, 0x00000000#32) ]

/-- Whether a word matches a row: it agrees with the row's match on the bits of its mask. -/
def rowMatches (w : Word) (row : Word × Word) : Bool := w &&& row.1 == row.2

/-- The index of the first row of the opcode table that a word matches. -/
def firstRow (w : Word) : Nat := opcodeRows.findIdx (rowMatches w)

/-- The index of a command's own row in the opcode table. -/
def rowOf : Instr → Nat
  | .nop => 0
  | .pad => 1
  | .unpad => 2
  | .xform => 3
  | .ixform => 4
  | .hexenc => 5
  | .hexdec => 6
  | .keydec => 7
  | .encrypt => 8
  | .decrypt => 9
  | .illegalAB _ => 10
  | .illegalCF _ => 11
  | .illegalRsv _ _ => 12

end Sys2Proof
end

