-- ==== Sys2Proof/Machine/Flags.lean ====
section
/-! DEFINITION. The fields of STATUS and CTRL as the host reads them, and the interrupt output (10_state.md R104,
R105, R112; 60_exceptions.md R600, R610). -/

namespace Sys2Proof.Machine

/-- The 4-bit code of an error name, 60_exceptions.md R600. -/
def ErrCode.code : ErrCode → BitVec 4
  | .ok => 0#4
  | .invalidKeyFormat => 1#4
  | .invalidKeyLength => 2#4
  | .keyTooShortError => 3#4
  | .invalidCiphertextEncoding => 4#4
  | .invalidBlockSize => 5#4
  | .paddingError => 6#4
  | .invalidUtf8 => 7#4
  | .emptyInputError => 8#4
  | .illegalCommand => 9#4
  | .capacityError => 10#4

/-- STATUS.ERR always equals (ERRCODE != 0), 10_state.md R105. -/
def State.err (s : State) : Bool := s.errcode.code != 0#4

/-- STATUS.BUSY, 10_state.md R130. -/
def State.isBusy (s : State) : Bool := s.phase.isBusy

/-- STATUS as read: bit 0 BUSY, 1 DONE, 2 ERR, 3 BUSYWR, 7:4 zero, 11:8 ERRCODE, 31:12 zero (10_state.md R105). -/
def State.statusWord (s : State) : Word :=
  0#20 ++ s.errcode.code ++ 0#4 ++ BitVec.ofBool s.busywr ++ BitVec.ofBool s.err ++ BitVec.ofBool s.done ++
    BitVec.ofBool s.isBusy

/-- CTRL as read: bit 0 SRST reads 0, bit 1 IRQ_EN, 31:2 zero (10_state.md R104). -/
def State.ctrlWord (s : State) : Word := 0#30 ++ BitVec.ofBool s.irqEn ++ 0#1

/-- The level output IRQ = STATUS.DONE and CTRL.IRQ_EN, 60_exceptions.md R610. -/
def State.irq (s : State) : Bool := s.done && s.irqEn

/-- The level of a platform interrupt input: the device drives input IRQ_LINE and no other (60_exceptions.md
R610, log 14). -/
def State.irqInput (s : State) (line : Nat) : Bool := line == Config.irqLine && s.irq

end Sys2Proof.Machine
end

