-- ==== Sys2Proof/Machine/Bus.lean ====
section
/-! DEFINITION. The host bus: the register map, the device window, MemRead and MemWrite (10_state.md R102 to R111,
20_memory.md R200 to R209, 70_reset_and_hazards.md R722). -/

namespace Sys2Proof.Machine

/-- The ten registers, 10_state.md R102. -/
inductive Reg where
  | id
  | ctrl
  | status
  | cmd
  | ilen
  | klen
  | olen
  | capKbuf
  | capIbuf
  | capObuf
deriving DecidableEq, Repr

/-- The offset of a register, 10_state.md R102. -/
def Reg.offset : Reg → Nat
  | .id => 0x0000
  | .ctrl => 0x0004
  | .status => 0x0008
  | .cmd => 0x000C
  | .ilen => 0x0010
  | .klen => 0x0014
  | .olen => 0x0018
  | .capKbuf => 0x001C
  | .capIbuf => 0x0020
  | .capObuf => 0x0024

/-- All registers, in the order of their offsets. -/
def allRegs : List Reg := [.id, .ctrl, .status, .cmd, .ilen, .klen, .olen, .capKbuf, .capIbuf, .capObuf]

/-- The register at an offset, if one starts there. -/
def regAt (off : Nat) : Option Reg := allRegs.find? fun r => r.offset == off

/-- The value of a register, 10_state.md R103 to R110. No read has a side effect (20_memory.md R209). -/
def State.readReg (s : State) : Reg → Word
  | .id => Config.deviceId
  | .ctrl => s.ctrlWord
  | .status => s.statusWord
  | .cmd => s.cmd
  | .ilen => s.ilen
  | .klen => s.klen
  | .olen => s.olen
  | .capKbuf => BitVec.ofNat 32 s.params.kbufBytes
  | .capIbuf => BitVec.ofNat 32 s.params.ibufBytes
  | .capObuf => BitVec.ofNat 32 s.params.obufBytes

/-- A permitted 4-byte write to a register. While BUSY, a write to CMD, ILEN or KLEN is dropped
(70_reset_and_hazards.md R722); CTRL and STATUS are always accepted; a write to a read-only register has no
effect (10_state.md R111). -/
def State.writeReg (s : State) (r : Reg) (v : Word) : State :=
  match r with
  | .ctrl => s.writeCtrl v
  | .status => s.acknowledge v
  | .cmd => if s.isBusy then s.dropWrite else s.startCommand v
  | .ilen => if s.isBusy then s.dropWrite else { s with ilen := v }
  | .klen => if s.isBusy then s.dropWrite else { s with klen := v }
  | .id => s
  | .olen => s
  | .capKbuf => s
  | .capIbuf => s
  | .capObuf => s

/-- What a permitted access addresses: a register, or bytes of a buffer from an index on (20_memory.md R201,
R202). -/
inductive Target where
  | reg (r : Reg)
  | kbuf (k : Nat)
  | ibuf (k : Nat)
  | obuf (k : Nat)
deriving DecidableEq, Repr

/-- Region starts of 20_memory.md R201. -/
abbrev regsEnd : Nat := 0x0028
abbrev kbufStart : Nat := 0x0100
abbrev ibufStart : Nat := 0x4000
abbrev obufStart : Nat := 0x8000

/-- Bytes of an access width. -/
def Width.bytes : Width → Nat
  | .w8 => 1
  | .w16 => 2
  | .w32 => 4

/-- `permitted(off, n, ·)` and `region(off)` together: what an access of `n` bytes at `off` addresses, or `none`
where it gets BUSERR: misaligned, a register with another width than 4, or an unmapped byte (20_memory.md R205
to R207). Reads and writes are permitted alike. -/
def locate (p : Params) (off n : Nat) : Option Target :=
  if off % n ≠ 0 then none
  else if off < regsEnd then (if n = 4 then (regAt off).map .reg else none)
  else if kbufStart ≤ off ∧ off + n ≤ kbufStart + p.kbufBytes then some (.kbuf (off - kbufStart))
  else if ibufStart ≤ off ∧ off + n ≤ ibufStart + p.ibufBytes then some (.ibuf (off - ibufStart))
  else if obufStart ≤ off ∧ off + n ≤ obufStart + p.obufBytes then some (.obuf (off - obufStart))
  else none

/-- Bytes `k` to `k + n - 1` of a buffer, each a byte or POISON. -/
def Memory.range (m : Memory) (k n : Nat) : List (Option Byte) := (List.range n).map fun j => m.get (k + j)

/-- What MemRead returns (20_memory.md R203): BUSERR, a register's value, or bytes each of which may be POISON. -/
inductive ReadResult where
  | busError
  | word (v : Word)
  | bytes (bs : List (Option Byte))
deriving DecidableEq, Repr

/-- `MemRead(off, n)`, 20_memory.md R203. OBUF reads as POISON while BUSY. -/
def State.memRead (s : State) (n : Width) (off : Offset) : ReadResult :=
  match locate s.params off.toNat n.bytes with
  | none => .busError
  | some (.reg r) => .word (s.readReg r)
  | some (.kbuf k) => .bytes (s.kbuf.range k n.bytes)
  | some (.ibuf k) => .bytes (s.ibuf.range k n.bytes)
  | some (.obuf k) => .bytes (if s.isBusy then List.replicate n.bytes none else s.obuf.range k n.bytes)

/-- Byte `j` of a data word, 20_memory.md R202 and R204: little-endian. -/
def byteOf (v : Word) (j : Nat) : Byte := (v >>> (8 * j)).setWidth 8

/-- The low `n` bytes of a data word, lowest offset first. -/
def wordBytes (v : Word) (n : Nat) : List Byte := (List.range n).map (byteOf v)

/-- The data word whose bytes are `bs`, lowest offset first, zero-extended (20_memory.md R203). -/
def bytesWord : List Byte → Word
  | [] => 0#32
  | b :: bs => (bytesWord bs <<< 8) ||| b.setWidth 32

/-- `MemWrite(off, n, v)`, 20_memory.md R204; `none` is BUSERR, where nothing changes (R208). -/
def State.memWrite (s : State) (n : Width) (off : Offset) (v : Word) : Option State :=
  match locate s.params off.toNat n.bytes with
  | none => none
  | some (.reg r) => some (s.writeReg r v)
  | some (.kbuf k) =>
    some (if s.isBusy then s.dropWrite else { s with kbuf := s.kbuf.setBytes k (wordBytes v n.bytes) })
  | some (.ibuf k) =>
    some (if s.isBusy then s.dropWrite else { s with ibuf := s.ibuf.setBytes k (wordBytes v n.bytes) })
  | some (.obuf _) => some s

/-- Every byte a read returned, with the free byte of its lane where it is POISON (70_reset_and_hazards.md R726,
log 7). -/
def fillPoison (ctr lane : Nat) : List (Option Byte) → List Byte
  | [] => []
  | some b :: bs => b :: fillPoison ctr (lane + 1) bs
  | none :: bs => Config.freeByte ctr lane :: fillPoison ctr (lane + 1) bs

/-- One byte of the device window's buffers, as they stand: `none` for POISON and for offsets that are no buffer
byte (20_memory.md R201, R202). Statements about memory are made through this view. -/
def State.windowByte (s : State) (off : Nat) : Option Byte :=
  if kbufStart ≤ off ∧ off < kbufStart + s.params.kbufBytes then s.kbuf.get (off - kbufStart)
  else if ibufStart ≤ off ∧ off < ibufStart + s.params.ibufBytes then s.ibuf.get (off - ibufStart)
  else if obufStart ≤ off ∧ off < obufStart + s.params.obufBytes then s.obuf.get (off - obufStart)
  else none

/-- The window offset of a platform address, if the window holds it: 64 KiB from BASE on (20_memory.md R200). -/
def windowOffset (addr : Nat) : Option Offset :=
  if Config.base ≤ addr ∧ addr < Config.base + 65536 then some (BitVec.ofNat 16 (addr - Config.base)) else none

end Sys2Proof.Machine
end

