-- ==== Sys2Proof/Machine/HostAgent.lean ====
section
/-! DEFINITION. The HOST agent's step over a program in the host notation, the notation's pseudo-operations, and
whose turn it is (30_encoding.md R307, R308; 70_reset_and_hazards.md R727). -/

namespace Sys2Proof.Machine

/-- The value a host write carries, if it is bound. -/
def HostAgent.eval (h : HostAgent) : HostValue → Option Word
  | .const v => some v
  | .name x => Sparse.get x h.vars

/-- The index of the line `label l` in a program, if it has one: `label:` names the next line. DESIGN CHOICE
(log 12): of several lines with one label, the first, as 30_encoding.md R307 does not say which. -/
def labelIndex (l : Nat) : List HostOp → Option Nat
  | [] => none
  | op :: rest => if op = .label l then some 0 else (labelIndex l rest).map (· + 1)

/-- Go to the next line. -/
def HostAgent.advance (h : HostAgent) : HostAgent := { h with pc := h.pc + 1 }

/-- Bind a name to what a read got. -/
def HostAgent.bind (h : HostAgent) (x : Nat) (v : Word) : HostAgent := { h with vars := Sparse.insert x v h.vars }

/-- The host goes to the next line. -/
def State.hostAdvance (s : State) : State := { s with host := s.host.advance }

/-- The host binds a name and goes to the next line. -/
def State.hostBind (s : State) (x : Nat) (v : Word) : State := { s with host := (s.host.bind x v).advance }

/-- The host goes to a line. -/
def State.hostJump (s : State) (line : Nat) : State := { s with host := { s.host with pc := line } }

/-- A host write of a value: MemWrite, or BUS_ERROR recorded and nothing written (20_memory.md R204, R208). The
host then goes on to its next line (log 8). -/
def hostWrite (s : State) (n : Width) (off : Offset) (v : Word) : State :=
  match s.memWrite n off v with
  | none => s.recordBusError.hostAdvance
  | some t => t.hostAdvance

/-- A host read into a name: MemRead; a POISON byte is recorded as UNDEF_READ_HOST and seen as a free byte; after
BUSERR the name holds a free word (20_memory.md R203, R208; 70_reset_and_hazards.md R726; log 7, 8). -/
def hostRead (s : State) (n : Width) (off : Offset) (x : Nat) : State :=
  match s.memRead n off with
  | .busError => s.recordBusError.nextFree.hostBind x (Config.freeWord s.freeCtr)
  | .word v => s.hostBind x v
  | .bytes bs =>
    if bs.all Option.isSome then s.hostBind x (bytesWord (fillPoison s.freeCtr 0 bs))
    else s.recordUndefRead.nextFree.hostBind x (bytesWord (fillPoison s.freeCtr 0 bs))

/-- BNZ, 30_encoding.md R307: continue at the label if `(value & mask) != 0`, else at the next line. Of several
lines with that label the first is taken, and the step faults where there is none (log 12). -/
def hostBranch (s : State) (x : Nat) (mask : Word) (l : Nat) : Host.Outcome State Fault Refusal :=
  match Sparse.get x s.host.vars with
  | none => .fault .unboundHostName
  | some v =>
    if v &&& mask = 0#32 then .next s.hostAdvance
    else
      match labelIndex l s.host.prog with
      | none => .fault .unknownHostLabel
      | some line => .next (s.hostJump line)

/-- The host program's next operation, if it has one (70_reset_and_hazards.md R728). -/
def State.hostLine (s : State) : Option HostOp := s.host.prog[s.host.pc]?

/-- One step of the HOST agent: the next line of its program. Past the last line it has no operation, and nothing
happens (70_reset_and_hazards.md R728, log 2). -/
def hostStep (s : State) : Host.Outcome State Fault Refusal :=
  match s.hostLine with
  | none => .next s
  | some (.write n off v) =>
    match s.host.eval v with
    | none => .fault .unboundHostName
    | some w => .next (hostWrite s n off w)
  | some (.read n off x) => .next (hostRead s n off x)
  | some (.label _) => .next s.hostAdvance
  | some (.bnz x mask l) => hostBranch s x mask l

/-- The agent that moves by the default rule: ENGINE while a command runs, so that a completion comes before
a host write due with it (60_exceptions.md R605), else HOST (log 1). -/
def State.defaultAgent (s : State) : Agent := if s.isBusy then .engine else .host

/-- Whether an agent has a step, 70_reset_and_hazards.md R727: HOST while its program has a next operation, ENGINE
exactly while the phase is BUSY (40_lifecycle.md R402), ENVIRONMENT always. -/
def State.enabled (s : State) : Agent → Bool
  | .host => s.hostLine.isSome
  | .engine => s.isBusy
  | .environment => true

/-- The end of a run, 70_reset_and_hazards.md R728: the host program has no next operation and the phase is IDLE. -/
def State.runOver (s : State) : Bool := s.hostLine.isNone && !s.isBusy

/-- The agent of a free turn: nothing says which of the three it is (log 1). -/
def freeAgent (n : Nat) : Agent :=
  match Config.freeTurn n % 3 with
  | 0 => .host
  | 1 => .engine
  | _ => .environment

/-- Whose turn it is, and the state without that turn: the schedule's first entry; with none left, the default rule
or a free turn (log 1). -/
def State.takeTurn (s : State) : Agent × State :=
  match s.sched, s.freeTurn with
  | a :: rest, _ => (a, { s with sched := rest })
  | [], none => (s.defaultAgent, s)
  | [], some n => (freeAgent n, { s with freeTurn := some (n + 1) })

/-- The same state with other turns to come. -/
def State.withTurns (s : State) (turns : List Agent) (free : Option Nat) : State :=
  { s with sched := turns, freeTurn := free }

/-- The state in which the engine runs the command word `w` in the very next step: what an accepted CMD write of
`w` leaves (40_lifecycle.md R400), with the engine's turn first (log 4). -/
def State.placeCommand (s : State) (w : Word) : State := { s.startCommand w with sched := .engine :: s.sched }

/-! ### The pseudo-operations of 30_encoding.md R308 -/

/-- The offset of a register as an access writes it. -/
def Reg.at (r : Reg) : Offset := BitVec.ofNat 16 r.offset

/-- `W32 REG, v`. -/
def writeRegOp (r : Reg) (v : Word) : HostOp := .write .w32 r.at (.const v)

/-- `CMD mnem`. -/
def cmdOp (i : Instr) : List HostOp := [writeRegOp .cmd (encode i)]

/-- `WAIT`, with a fresh label `l` and the name `x` for the reads of STATUS. -/
def waitOp (l x : Nat) : List HostOp := [.label l, .read .w32 Reg.status.at x, .bnz x 1#32 l]

/-- `W8 start+i, str[i]` for each byte of a string, from index `i` on. DESIGN CHOICE (log 20): where `start+i` is no
16-bit offset (20_memory.md R200), the offset is taken modulo 2^16, as 30_encoding.md R308 does not say. DESIGN CHOICE
(log 21): of the two expansions R308 permits, the one with W8 writes, so that no byte past the string's end is written;
the one with W32 writes, which may write up to 3 bytes past it, is not taken. -/
def loadBytesOp (start i : Nat) : List Byte → List HostOp
  | [] => []
  | b :: bs => .write .w8 (BitVec.ofNat 16 (start + i)) (.const (b.setWidth 32)) :: loadBytesOp start (i + 1) bs

/-- `LOADI str`, by W8 writes (log 21). A length of 2^32 or more is written modulo 2^32 (log 20). -/
def loadiOp (str : List Byte) : List HostOp :=
  loadBytesOp ibufStart 0 str ++ [writeRegOp .ilen (BitVec.ofNat 32 str.length)]

/-- `LOADK str`, by W8 writes (log 21). A length of 2^32 or more is written modulo 2^32 (log 20). -/
def loadkOp (str : List Byte) : List HostOp :=
  loadBytesOp kbufStart 0 str ++ [writeRegOp .klen (BitVec.ofNat 32 str.length)]

/-- `RUN mnem`. -/
def runOp (i : Instr) (l x : Nat) : List HostOp := cmdOp i ++ waitOp l x

/-- `ACK`: clear DONE and BUSYWR. -/
def ackOp : List HostOp := [writeRegOp .status 0x0000000A#32]

end Sys2Proof.Machine
end

