-- ==== Sys2Proof/Machine/Step.lean ====
section
/-! DEFINITION. The machine's step: the agent whose turn it is moves (70_reset_and_hazards.md R727). -/

namespace Sys2Proof.Machine

/-- One step of an agent. ENGINE completes the running command, decoded from its word (40_lifecycle.md R402,
R406), and has no step while the phase is IDLE: its turn then passes and nothing happens (log 2). ENVIRONMENT
makes a hardware reset (70_reset_and_hazards.md R700). -/
def agentStep (a : Agent) (s : State) : Host.Outcome State Fault Refusal :=
  match a with
  | .host => hostStep s
  | .engine =>
    match s.runningWord with
    | none => .next s
    | some w => exec (decode w) s
  | .environment => .next s.deviceReset

/-- One step of the machine: by the turns the state holds (log 1). Machine/Runs.lean has the runs by any turns. -/
def step (s : State) : Host.Outcome State Fault Refusal :=
  agentStep s.takeTurn.1 s.takeTurn.2

/-- `s` with a command word placed where `step` takes its next instruction: the bits above `nbits` are 0 (log 4). -/
def State.withFetchWord (s : State) (nbits w : Nat) : State :=
  s.placeCommand (BitVec.ofNat 32 (w % 2 ^ nbits))

end Sys2Proof.Machine
end

