-- ==== Sys2Proof/Machine/Runs.lean ====
section
/-! DEFINITION. The runs of the three agents: every interleaving of enabled steps, finite or endless, and weak
fairness (70_reset_and_hazards.md R720, R727). `step` is one agent's step by the turns a state holds; these runs
take any turns. -/

namespace Sys2Proof.Machine

/-- Agent `a` makes a step it has, from `s` to `t`: the model's step of 70_reset_and_hazards.md R727. -/
def Moves (a : Agent) (s t : State) : Prop := s.enabled a = true ∧ agentStep a s = .next t

/-- A run in which the agents listed move one after the other, from `s` to `t`. -/
def FiniteRun : List Agent → State → State → Prop
  | [], s, t => t = s
  | a :: turns, s, t => ∃ u, Moves a s u ∧ FiniteRun turns u t

/-- A run without end: at every time `n` agent `turn n` moves from `run n` to `run (n + 1)`. -/
def EndlessRun (turn : Nat → Agent) (run : Nat → State) : Prop := ∀ n, Moves (turn n) (run n) (run (n + 1))

/-- Weak fairness of completion, 70_reset_and_hazards.md R720: every BUSY phase is eventually left. -/
def Fair (run : Nat → State) : Prop := ∀ n, (run n).isBusy = true → ∃ m, n < m ∧ (run m).isBusy = false

end Sys2Proof.Machine
end

