-- ==== Sys2Proof/Safety.lean ====
section
/-! DEFINITION. What counts as a safe state and a safe run, and the vocabulary the statements use: what a
completion keeps, what a command that succeeds or fails leaves, what a host read binds. -/

namespace Sys2Proof.Machine

/-- The legal states: the constraints of 00_scope.md R6; every buffer in canonical form and within its size; the
legal STATUS combinations of 10_state.md R105; OLEN within OBUF_BYTES; and, while a command runs, a snapshot equal
to the live registers and buffers (10_state.md R131). -/
structure State.Inv (s : State) : Prop where
  params : s.params.Ok
  kbufWf : s.kbuf.wf
  kbufFits : s.kbuf.fits s.params.kbufBytes
  ibufWf : s.ibuf.wf
  ibufFits : s.ibuf.fits s.params.ibufBytes
  obufWf : s.obuf.wf
  obufFits : s.obuf.fits s.params.obufBytes
  olen : s.olen.toNat ≤ s.params.obufBytes
  errcode : s.errcode ≠ .emptyInputError
  busy : s.isBusy = true → s.done = false ∧ s.errcode = .ok ∧ s.olen = 0#32
  snapshot : ∀ snap, s.phase = .busy snap → snap = s.snapshotWith s.cmd

/-- No fault of 70_reset_and_hazards.md R726 has been recorded: what claims about results assume (D38). -/
def State.Clean (s : State) : Prop :=
  s.faults.busError = false ∧ s.faults.undefReadHost = false ∧ s.faults.undefReadEngine = false

/-- The device part of two states is the same: everything but the host agent, the schedule and the recorded
faults, with the counter of free values. -/
def State.SameDevice (s t : State) : Prop :=
  t.irqEn = s.irqEn ∧ t.done = s.done ∧ t.busywr = s.busywr ∧ t.errcode = s.errcode ∧ t.cmd = s.cmd ∧
  t.ilen = s.ilen ∧ t.klen = s.klen ∧ t.olen = s.olen ∧ t.kbuf = s.kbuf ∧ t.ibuf = s.ibuf ∧ t.obuf = s.obuf ∧
  t.phase = s.phase ∧ t.params = s.params

/-- The FRAME of a completion (40_lifecycle.md R410): everything but OBUF, OLEN, the fields STATUS.BUSY, DONE and
ERRCODE, and the record of an undefined engine read. -/
def State.KeepsInputs (s t : State) : Prop :=
  t.irqEn = s.irqEn ∧ t.busywr = s.busywr ∧ t.cmd = s.cmd ∧ t.ilen = s.ilen ∧ t.klen = s.klen ∧
  t.kbuf = s.kbuf ∧ t.ibuf = s.ibuf ∧ t.params = s.params ∧ t.host = s.host ∧ t.sched = s.sched ∧
  t.freeTurn = s.freeTurn ∧
  t.faults.busError = s.faults.busError ∧ t.faults.undefReadHost = s.faults.undefReadHost

/-- The command completes with result `out`: ERRCODE OK, OLEN its length, OBUF[0..OLEN) the result and every later
byte POISON, DONE 1, IDLE (40_lifecycle.md R403, R404), and everything else as it was. -/
def Succeeds (i : Instr) (s : State) (out : List Byte) : Prop :=
  ∃ t, exec i s = .next t ∧ t.errcode = .ok ∧ t.olen.toNat = out.length ∧ (∀ k, t.obuf.get k = out[k]?) ∧
    t.done = true ∧ t.phase = .idle ∧ s.KeepsInputs t ∧ t.faults = s.faults ∧ t.freeCtr = s.freeCtr

/-- The command completes with error `c`: OLEN 0, DONE 1, IDLE; every byte of OBUF is unchanged after
IllegalCommand and CapacityError and POISON after any other error (40_lifecycle.md R403, R405); everything else as
it was. -/
def FailsWith (i : Instr) (s : State) (c : ErrCode) : Prop :=
  ∃ t, exec i s = .next t ∧ t.errcode = c ∧ t.olen = 0#32 ∧
    (∀ k, t.obuf.get k = if c = .illegalCommand ∨ c = .capacityError then s.obuf.get k else none) ∧
    t.done = true ∧ t.phase = .idle ∧ s.KeepsInputs t ∧ t.faults = s.faults ∧ t.freeCtr = s.freeCtr

/-- The command completes as the body `r` of its rule says: with its result, or with its error. -/
def CompletesAs (i : Instr) (s : State) (r : Body (List Byte)) : Prop :=
  match r with
  | .ok out => Succeeds i s out
  | .error (.fail c) => FailsWith i s c
  | .error .undefRead => False

/-- The command completes after it read a POISON byte (70_reset_and_hazards.md R726): UNDEF_READ_ENGINE is recorded,
ERRCODE is one of the codes the command may report, OLEN is at most OBUF_BYTES if that is OK and 0 otherwise, every
byte of OBUF is POISON; everything else as it was. Of ERRCODE and OLEN nothing more is said: they are free. The
free values' counter steps on, which it does at no other completion (log 6). -/
def CompletesUndefined (i : Instr) (s : State) : Prop :=
  ∃ t, exec i s = .next t ∧ t.errcode ∈ allowedCodes i ∧
    (t.errcode = .ok → t.olen.toNat ≤ s.params.obufBytes) ∧ (t.errcode ≠ .ok → t.olen = 0#32) ∧
    (∀ k, t.obuf.get k = none) ∧ t.faults.undefReadEngine = true ∧ t.done = true ∧ t.phase = .idle ∧
    s.KeepsInputs t ∧ t.freeCtr = s.freeCtr + 1

/-- Every byte of the command's input IBUF[0..ILEN) is defined, and they are `d`. -/
def Snapshot.InputIs (snap : Snapshot) (d : List Byte) : Prop := snap.input = d.map some

/-- Every byte of the command's key operand KBUF[0..KLEN) is defined, and they are `k`. -/
def Snapshot.KeyIs (snap : Snapshot) (k : List Byte) : Prop := snap.key = k.map some

/-- A byte string matches a row of the UTF-8 table: one byte in the row's first range, then one byte in each of
its other ranges (44_codec.md R482). -/
def MatchesRow (row : ByteRange × List ByteRange) (bs : List Byte) : Prop :=
  List.Forall₂ (fun r b => inRange r b = true) (row.1 :: row.2) bs

/-- The text of ENCRYPT's result for a key and a plaintext, as one expression (44_codec.md R483): the padded
text's 16-byte blocks, each byte E of it and the key byte at its place, in hex, joined. -/
def cipherText (key d : List Byte) : List Byte :=
  join ((blocks (pad d)).map fun b => hexenc (List.zipWith forwardByte b key))

/-- `hexval(c) = v` of 43_hex.md R461 as a relation: `c` is a hex digit of either case and `v` its value. -/
def IsHexDigit (c : Byte) (v : Nat) : Prop :=
  (0x30 ≤ c.toNat ∧ c.toNat ≤ 0x39 ∧ v = c.toNat - 0x30) ∨
  (0x61 ≤ c.toNat ∧ c.toNat ≤ 0x66 ∧ v = c.toNat - 0x61 + 10) ∨
  (0x41 ≤ c.toNat ∧ c.toNat ≤ 0x46 ∧ v = c.toNat - 0x41 + 10)

/-- The hex decoder reads a POISON character of the text `t` (43_hex.md R461, log 9): the length is even, and only
hex digits come before the first POISON character. -/
def HexReadsPoison (t : List (Option Byte)) : Prop :=
  t.length % 2 = 0 ∧ ∃ (digits : List Byte) (rest : List (Option Byte)),
    t = digits.map some ++ none :: rest ∧ ∀ c ∈ digits, ∃ v, IsHexDigit c v

/-- UNPAD reads a POISON byte of its input `d` (41_padding.md R422, log 9): the last byte; or, where the last byte `p`
passes checks 2 and 3, a byte of the last `p` with no other byte than `p` before it there; or, where those all are
`p`, a byte of the result. -/
def UnpadReadsPoison (d : List (Option Byte)) : Prop :=
  d.getLast? = some none ∨
  ∃ p : Byte, d.getLast? = some (some p) ∧ 1 ≤ p.toNat ∧ p.toNat ≤ 16 ∧ p.toNat ≤ d.length ∧
    ((∃ n rest, d.drop (d.length - p.toNat) = List.replicate n (some p) ++ none :: rest) ∨
      (d.drop (d.length - p.toNat) = List.replicate p.toNat (some p) ∧ none ∈ d.take (d.length - p.toNat)))

/-- HEXDIGITS of 43_hex.md R460. -/
def hexDigits : List Byte :=
  [0x30#8, 0x31#8, 0x32#8, 0x33#8, 0x34#8, 0x35#8, 0x36#8, 0x37#8, 0x38#8, 0x39#8, 0x61#8, 0x62#8, 0x63#8, 0x64#8,
    0x65#8, 0x66#8]

/-- A mapped offset of the device window, 20_memory.md R201. -/
def Mapped (p : Params) (off : Nat) : Prop :=
  off < 0x28 ∨ (0x100 ≤ off ∧ off < 0x100 + p.kbufBytes) ∨ (0x4000 ≤ off ∧ off < 0x4000 + p.ibufBytes) ∨
  (0x8000 ≤ off ∧ off < 0x8000 + p.obufBytes)

/-- A write while BUSY is dropped: CMD, ILEN, KLEN, or bytes of KBUF or IBUF (70_reset_and_hazards.md R722). -/
def DroppedWhileBusy (s : State) (n : Width) (off : Offset) : Prop :=
  (n = .w32 ∧ (off = 0x000C#16 ∨ off = 0x0010#16 ∨ off = 0x0014#16)) ∨
  (off.toNat % n.bytes = 0 ∧
    ((0x100 ≤ off.toNat ∧ off.toNat + n.bytes ≤ 0x100 + s.params.kbufBytes) ∨
      (0x4000 ≤ off.toNat ∧ off.toNat + n.bytes ≤ 0x4000 + s.params.ibufBytes)))

/-- The host binds name `x` to `v` and goes to the next line: every other name keeps its value, and nothing but the
host's names and line changes (30_encoding.md R307). -/
def BindsName (s t : State) (x : Nat) (v : Word) : Prop :=
  Sparse.get x t.host.vars = some v ∧ (∀ y, y ≠ x → Sparse.get y t.host.vars = Sparse.get y s.host.vars) ∧
  t = { s with host := { s.host with vars := t.host.vars, pc := s.host.pc + 1 } }

/-- Every register and buffer byte as 10_state.md R140 gives it after reset, as the host reads them. -/
def AtResetValues (s : State) : Prop :=
  s.readReg .id = 0x50430100#32 ∧ s.readReg .ctrl = 0#32 ∧ s.readReg .status = 0#32 ∧ s.readReg .cmd = 0#32 ∧
  s.readReg .ilen = 0#32 ∧ s.readReg .klen = 0#32 ∧ s.readReg .olen = 0#32 ∧
  s.readReg .capKbuf = BitVec.ofNat 32 s.params.kbufBytes ∧
  s.readReg .capIbuf = BitVec.ofNat 32 s.params.ibufBytes ∧
  s.readReg .capObuf = BitVec.ofNat 32 s.params.obufBytes ∧
  (∀ k, s.kbuf.get k = none) ∧ (∀ k, s.ibuf.get k = none) ∧ (∀ k, s.obuf.get k = none) ∧
  s.phase = .idle ∧ s.irq = false

/-- `lower` of 43_hex.md R466: 0x41..0x46 to 0x61..0x66, every other byte unchanged. -/
def lowerHex (t : List Byte) : List Byte :=
  t.map fun c => if 0x41 ≤ c.toNat ∧ c.toNat ≤ 0x46 then c + 0x20#8 else c

end Sys2Proof.Machine
end

