-- ==== Sys2Proof/Certificates/Slice0/Obligations.lean ====
section
/-! DEFINITION. The statements for the provers. Each docstring names the rule of spec/ it formalises. -/

open Sys2Proof Sys2Proof.Machine

/-! ### Encoding -/

/-- R300 to R302: every well-formed command is what its word decodes to, with every bit its word leaves free. -/
def Obligations.DecodeOfEncodeIsTheCommand : Prop :=
  ∀ i : Instr, i.wellFormed = true → decode (encode i) = i

/-- R301, R306: no word's bit is dropped: every 32-bit word decodes to a well-formed command whose word it is. -/
def Obligations.EncodeOfDecodeIsTheWord : Prop :=
  ∀ w : Word, (decode w).wellFormed = true ∧ encode (decode w) = w

/-- R302: words written out from the opcode map decode to the command the map gives them. -/
def Obligations.WordsOfTheOpcodeMapDecode : Prop :=
  decode 0x00000000#32 = .nop ∧ decode 0x00000001#32 = .pad ∧ decode 0x00000002#32 = .unpad ∧
  decode 0x00000003#32 = .xform ∧ decode 0x00000004#32 = .ixform ∧ decode 0x00000005#32 = .hexenc ∧
  decode 0x00000006#32 = .hexdec ∧ decode 0x00000007#32 = .keydec ∧ decode 0x00000008#32 = .encrypt ∧
  decode 0x00000009#32 = .decrypt ∧ decode 0x0000000B#32 = .illegalAB 1#1 ∧ decode 0x0000000E#32 = .illegalCF 2#2 ∧
  decode 0x00000010#32 = .illegalRsv 0#4 1#28 ∧ decode 0x80000008#32 = .illegalRsv 8#4 0x8000000#28

/-- R302 and opcode_table.json ("rows are matched in order; the first match wins"): a word decodes to the command of
the first row it matches. -/
def Obligations.DecodeFollowsTheFirstMatchingRow : Prop :=
  ∀ w : Word, rowOf (decode w) = firstRow w

/-- R301, R305: the ten words 0 to 9 are the legal commands, and every other word is ILLEGAL. -/
def Obligations.EveryWordFromTenUpIsIllegal : Prop :=
  ∀ w : Word,
    (w.toNat ≤ 9 →
      decode w = [Instr.nop, .pad, .unpad, .xform, .ixform, .hexenc, .hexdec, .keydec, .encrypt, .decrypt].getD
        w.toNat .nop) ∧
    (10 ≤ w.toNat →
      (∃ lo, decode w = .illegalAB lo) ∨ (∃ lo, decode w = .illegalCF lo) ∨ ∃ op rsv, decode w = .illegalRsv op rsv)

/-! ### Starting a command -/

/-- R400, R401: a CMD write of `v` while IDLE stores `v`, clears DONE, ERRCODE and OLEN and takes the snapshot;
BUSYWR and CTRL stay and IRQ is low; everything else stays. While BUSY the write is dropped: BUSYWR is set and
nothing else changes. -/
def Obligations.CmdWriteStartsACommandWhenIdle : Prop :=
  ∀ (s : State) (v : Word),
    (s.phase = .idle → ∃ t, s.memWrite .w32 0x000C#16 v = some t ∧
      t.cmd = v ∧ t.done = false ∧ t.errcode = .ok ∧ t.olen = 0#32 ∧
      t.phase = .busy { cmd := v, ilen := s.ilen, klen := s.klen, ibuf := s.ibuf, kbuf := s.kbuf } ∧
      t.busywr = s.busywr ∧ t.irqEn = s.irqEn ∧ t.irq = false ∧
      t.ilen = s.ilen ∧ t.klen = s.klen ∧ t.kbuf = s.kbuf ∧ t.ibuf = s.ibuf ∧ t.obuf = s.obuf ∧
      t.faults = s.faults ∧ t.params = s.params ∧ t.host = s.host ∧ t.sched = s.sched ∧
      t.freeTurn = s.freeTurn ∧ t.freeCtr = s.freeCtr) ∧
    (∀ snap, s.phase = .busy snap → s.memWrite .w32 0x000C#16 v = some { s with busywr := true })

/-! ### The commands: what each one completes with -/

/-- R409: word 0 is NOP, which completes with OK and OLEN 0, OBUF unchanged, whatever the lengths; STATUS then reads
0x2 (with BUSYWR if it was set), and IRQ is high if IRQ_EN is set. -/
def Obligations.NopCompletesWithoutData : Prop :=
  decode 0x00000000#32 = .nop ∧
  ∀ (s : State) (snap : Snapshot), s.phase = .busy snap →
    ∃ t, exec .nop s = .next t ∧ t.errcode = .ok ∧ t.err = false ∧ t.olen = 0#32 ∧ t.done = true ∧ t.phase = .idle ∧
      (∀ k, t.obuf.get k = s.obuf.get k) ∧ s.KeepsInputs t ∧ t.faults = s.faults ∧ t.freeCtr = s.freeCtr ∧
      t.statusWord = (if s.busywr then 0x0000000A#32 else 0x00000002#32) ∧ t.irq = s.irqEn

/-- R408: each of the three ILLEGAL forms completes with IllegalCommand: OLEN 0, OBUF and CMD unchanged, STATUS
0x906 (with BUSYWR if it was set), whatever the lengths; and every word with bits 31:4 not 0, or 0xA to 0xF there,
is one of them. -/
def Obligations.IllegalCommandsCompleteWithIllegalCommand : Prop :=
  (∀ (s : State) (snap : Snapshot) (i : Instr), s.phase = .busy snap →
    ((∃ lo, i = .illegalAB lo) ∨ (∃ lo, i = .illegalCF lo) ∨ ∃ op rsv, i = .illegalRsv op rsv) →
    FailsWith i s .illegalCommand ∧
    ∃ t, exec i s = .next t ∧ t.cmd = s.cmd ∧ t.err = true ∧
      t.statusWord = (if s.busywr then 0x0000090E#32 else 0x00000906#32)) ∧
  ∀ w : Word, w.toNat / 16 ≠ 0 ∨ 10 ≤ w.toNat % 16 →
    (∃ lo, decode w = .illegalAB lo) ∨ (∃ lo, decode w = .illegalCF lo) ∨ ∃ op rsv, decode w = .illegalRsv op rsv

/-- R423, R420: word 1 is PAD. PAD of an input that fits IBUF succeeds with the input and p bytes of value p, p = 16
- (n mod 16); an input longer than IBUF gives CapacityError. -/
def Obligations.PadCommandAppendsPadding : Prop :=
  decode 0x00000001#32 = .pad ∧
  ∀ (s : State) (snap : Snapshot), s.params.Ok → s.phase = .busy snap →
    (∀ d, snap.ilen.toNat ≤ s.params.ibufBytes → snap.InputIs d →
      Succeeds .pad s (d ++ List.replicate (16 - d.length % 16) (BitVec.ofNat 8 (16 - d.length % 16)))) ∧
    (s.params.ibufBytes < snap.ilen.toNat → FailsWith .pad s .capacityError)

/-- R424: word 2 is UNPAD. UNPAD of an input that fits IBUF completes as `unpad` of it (R422), with its result or
PaddingError; an input longer than IBUF gives CapacityError. -/
def Obligations.UnpadCommandCompletesAsUnpad : Prop :=
  decode 0x00000002#32 = .unpad ∧
  ∀ (s : State) (snap : Snapshot), s.params.Ok → s.phase = .busy snap →
    (∀ d, snap.ilen.toNat ≤ s.params.ibufBytes → snap.InputIs d → CompletesAs .unpad s (unpad d)) ∧
    (s.params.ibufBytes < snap.ilen.toNat → FailsWith .unpad s .capacityError)

/-- R446: word 3 is XFORM. Its errors in their order of priority: CapacityError, InvalidBlockSize, KeyTooShortError,
whatever the buffers hold; else, with a 16-byte block b and a raw key k of 16 bytes or more, byte i of the result is
rotl8((b[i] ^ k[i]) + 7 mod 256, 2) (R440); only KBUF[0..16) need be defined. -/
def Obligations.XformCommandTransformsTheBlock : Prop :=
  decode 0x00000003#32 = .xform ∧
  ∀ (s : State) (snap : Snapshot), s.phase = .busy snap →
    (s.params.ibufBytes < snap.ilen.toNat ∨ s.params.kbufBytes < snap.klen.toNat →
      FailsWith .xform s .capacityError) ∧
    (snap.ilen.toNat ≤ s.params.ibufBytes → snap.klen.toNat ≤ s.params.kbufBytes →
      (snap.ilen ≠ 16#32 → FailsWith .xform s .invalidBlockSize) ∧
      (snap.ilen = 16#32 → snap.klen.toNat < 16 → FailsWith .xform s .keyTooShortError) ∧
      (∀ b k : List Byte, snap.ilen = 16#32 → 16 ≤ snap.klen.toNat → snap.ibuf.slice 16 = b.map some →
        snap.kbuf.slice 16 = k.map some →
        Succeeds .xform s (List.zipWith
          (fun (x y : Byte) => (((x ^^^ y) + 7#8) <<< 2) ||| (((x ^^^ y) + 7#8) >>> 6)) b k)))

/-- R447: word 4 is IXFORM, with the same errors in the same order; else byte i of the result is ((rotr8(b[i], 2) -
7) mod 256) ^ k[i] (R441). -/
def Obligations.IxformCommandInvertsTheBlock : Prop :=
  decode 0x00000004#32 = .ixform ∧
  ∀ (s : State) (snap : Snapshot), s.phase = .busy snap →
    (s.params.ibufBytes < snap.ilen.toNat ∨ s.params.kbufBytes < snap.klen.toNat →
      FailsWith .ixform s .capacityError) ∧
    (snap.ilen.toNat ≤ s.params.ibufBytes → snap.klen.toNat ≤ s.params.kbufBytes →
      (snap.ilen ≠ 16#32 → FailsWith .ixform s .invalidBlockSize) ∧
      (snap.ilen = 16#32 → snap.klen.toNat < 16 → FailsWith .ixform s .keyTooShortError) ∧
      (∀ b k : List Byte, snap.ilen = 16#32 → 16 ≤ snap.klen.toNat → snap.ibuf.slice 16 = b.map some →
        snap.kbuf.slice 16 = k.map some →
        Succeeds .ixform s (List.zipWith (fun (x y : Byte) => (((x >>> 2) ||| (x <<< 6)) - 7#8) ^^^ y) b k)))

/-- R463: word 5 is HEXENC. HEXENC of an input that fits IBUF succeeds with its hex text; a longer input gives
CapacityError. -/
def Obligations.HexencCommandEncodes : Prop :=
  decode 0x00000005#32 = .hexenc ∧
  ∀ (s : State) (snap : Snapshot), s.params.Ok → s.phase = .busy snap →
    (∀ d, snap.ilen.toNat ≤ s.params.ibufBytes → snap.InputIs d → Succeeds .hexenc s (hexenc d)) ∧
    (s.params.ibufBytes < snap.ilen.toNat → FailsWith .hexenc s .capacityError)

/-- R464: word 6 is HEXDEC. HEXDEC of an input that fits IBUF succeeds with the bytes of valid hex text and
otherwise fails with InvalidCiphertextEncoding; a longer input gives CapacityError. -/
def Obligations.HexdecCommandDecodes : Prop :=
  decode 0x00000006#32 = .hexdec ∧
  ∀ (s : State) (snap : Snapshot), s.params.Ok → s.phase = .busy snap →
    (∀ t, snap.ilen.toNat ≤ s.params.ibufBytes → snap.InputIs t →
      (∀ r, hexdec t = some r → Succeeds .hexdec s r) ∧
      (hexdec t = none → FailsWith .hexdec s .invalidCiphertextEncoding)) ∧
    (s.params.ibufBytes < snap.ilen.toNat → FailsWith .hexdec s .capacityError)

/-- R465: word 7 is KEYDEC. KEYDEC of a key text that fits KBUF completes as `keydec` of it (R462); a longer one
gives CapacityError. -/
def Obligations.KeydecCommandDecodesTheKey : Prop :=
  decode 0x00000007#32 = .keydec ∧
  ∀ (s : State) (snap : Snapshot), s.params.Ok → s.phase = .busy snap →
    (∀ t, snap.klen.toNat ≤ s.params.kbufBytes → snap.KeyIs t → CompletesAs .keydec s (keydec t)) ∧
    (s.params.kbufBytes < snap.klen.toNat → FailsWith .keydec s .capacityError)

/-- R483: word 8 is ENCRYPT: CapacityError if a length or the output is too large; else the key's error, whatever
the plaintext bytes; else the ciphertext of the plaintext bytes, which are not checked. -/
def Obligations.EncryptCommandEncrypts : Prop :=
  decode 0x00000008#32 = .encrypt ∧
  ∀ (s : State) (snap : Snapshot), s.params.Ok → s.phase = .busy snap →
    (s.params.ibufBytes < snap.ilen.toNat ∨ s.params.kbufBytes < snap.klen.toNat ∨
        s.params.obufBytes < 33 * (snap.ilen.toNat / 16 + 1) - 1 → FailsWith .encrypt s .capacityError) ∧
    (∀ kt, snap.ilen.toNat ≤ s.params.ibufBytes → snap.klen.toNat ≤ s.params.kbufBytes →
      33 * (snap.ilen.toNat / 16 + 1) - 1 ≤ s.params.obufBytes → snap.KeyIs kt →
      (∀ c, keydec kt = failWith c → FailsWith .encrypt s c) ∧
      (∀ key d, keydec kt = .ok key → snap.InputIs d → Succeeds .encrypt s (cipherText key d)))

/-- R484: word 9 is DECRYPT: CapacityError if a length is too large; else the key's error, whatever the ciphertext
bytes; else what steps 2 to 6 give. -/
def Obligations.DecryptCommandDecrypts : Prop :=
  decode 0x00000009#32 = .decrypt ∧
  ∀ (s : State) (snap : Snapshot), s.params.Ok → s.phase = .busy snap →
    (s.params.ibufBytes < snap.ilen.toNat ∨ s.params.kbufBytes < snap.klen.toNat → FailsWith .decrypt s .capacityError) ∧
    (∀ kt, snap.ilen.toNat ≤ s.params.ibufBytes → snap.klen.toNat ≤ s.params.kbufBytes → snap.KeyIs kt →
      (∀ c, keydec kt = failWith c → FailsWith .decrypt s c) ∧
      (∀ key t, keydec kt = .ok key → snap.InputIs t → CompletesAs .decrypt s (decryptWith key t)))

/-! ### The padder -/

/-- The properties of `pad` that the spec derives in R421 from R420. -/
def Obligations.PadHasItsProperties : Prop :=
  ∀ d : List Byte,
    (pad d).length = 16 * (d.length / 16 + 1) ∧
    (d.length % 16 = 0 → pad d = d ++ List.replicate 16 0x10#8) ∧
    (pad d).take d.length = d ∧
    ∃ p : Byte, 1 ≤ p.toNat ∧ p.toNat ≤ 16 ∧ (pad d).getLast? = some p ∧ (pad d).length = d.length + p.toNat

/-- R422, R425: `unpad` succeeds exactly when its four checks pass, with the bytes before the padding, and fails
with PaddingError otherwise. -/
def Obligations.UnpadAppliesExactlyItsFourChecks : Prop :=
  ∀ d : List Byte,
    (∀ r, unpad d = .ok r ↔ ∃ p : Byte, d.getLast? = some p ∧ 1 ≤ p.toNat ∧ p.toNat ≤ 16 ∧ p.toNat ≤ d.length ∧
      (∀ j, d.length - p.toNat ≤ j → j < d.length → d[j]? = some p) ∧ r = d.take (d.length - p.toNat)) ∧
    ((∀ r, unpad d ≠ .ok r) → unpad d = failWith .paddingError)

/-- `unpad(pad(d)) = d`, which the spec derives in R427 from R420 to R422. -/
def Obligations.UnpadUndoesPad : Prop :=
  ∀ d : List Byte, unpad (pad d) = .ok d

/-- What `unpad` answers after one padding byte of a padded buffer is changed, in each of the three cases the spec
derives in R428 from R420 and R422. -/
def Obligations.TamperedPaddingIsDetectedExactly : Prop :=
  ∀ (d : List Byte) (j : Nat) (v : Byte) (p : Nat),
    p = 16 - d.length % 16 → d.length ≤ j → j < d.length + p → v ≠ BitVec.ofNat 8 p →
    (j < d.length + p - 1 → unpad ((pad d).set j v) = failWith .paddingError) ∧
    (j = d.length + p - 1 → 2 ≤ p →
      unpad ((pad d).set j v) =
        if v = 1#8 then .ok (d ++ List.replicate (p - 1) (BitVec.ofNat 8 p)) else failWith .paddingError) ∧
    (j = d.length + p - 1 → p = 1 →
      unpad ((pad d).set j v) =
        if 2 ≤ v.toNat ∧ v.toNat ≤ 16 ∧ d.drop (d.length - (v.toNat - 1)) = List.replicate (v.toNat - 1) v
        then .ok (d.take (d.length - (v.toNat - 1))) else failWith .paddingError)

/-! ### The transform engine -/

/-- rotr8 undoes rotl8, and for every key byte the two byte transforms are inverse: what the spec derives in R12 and
R442 from R10 to R13, R440 and R441. -/
def Obligations.ByteTransformsAreInverse : Prop :=
  (∀ (v : Byte) (n : Nat), 0 < n → n < 8 → rotr8 (rotl8 v n) n = v) ∧
  (∀ b k : Byte, inverseByte (forwardByte b k) k = b) ∧ (∀ c k : Byte, forwardByte (inverseByte c k) k = c)

/-- For a 16-byte block and a key of at least 16 bytes the two block functions undo each other: what the spec
derives in R449 from R442 to R444. -/
def Obligations.BlockTransformsAreInverse : Prop :=
  ∀ b k : List Byte, b.length = 16 → 16 ≤ k.length →
    (transformBlock b k >>= fun c => inverseTransformBlock c k) = .ok b ∧
    (inverseTransformBlock b k >>= fun c => transformBlock c k) = .ok b

/-- Byte i of either block function depends only on byte i of the block and byte i of the key: the lane independence
the spec derives in R448 from R443 to R445. -/
def Obligations.BlockFunctionsWorkLaneByLane : Prop :=
  ∀ (b b' k k' r r' : List Byte) (i : Nat), b.length = 16 → b'.length = 16 → 16 ≤ k.length → 16 ≤ k'.length →
    b[i]? = b'[i]? → k[i]? = k'[i]? →
    (transformBlock b k = .ok r → transformBlock b' k' = .ok r' → r[i]? = r'[i]?) ∧
    (inverseTransformBlock b k = .ok r → inverseTransformBlock b' k' = .ok r' → r[i]? = r'[i]?)

/-! ### Hex -/

/-- R460: `hexenc` gives two lowercase digits a byte, the high nibble's first (a reading the spec marks in R460 as
general knowledge). -/
def Obligations.HexencGivesTwoLowercaseDigits : Prop :=
  ∀ s : List Byte, (hexenc s).length = 2 * s.length ∧
    ∀ (i : Nat) (b : Byte), s[i]? = some b →
      (hexenc s)[2 * i]? = hexDigits[b.toNat / 16]? ∧ (hexenc s)[2 * i + 1]? = hexDigits[b.toNat % 16]?

/-- R461: `hexdec` is valid exactly on text of even length all of whose characters are hex digits of either case,
and gives 16*high + low for each pair. -/
def Obligations.HexdecAcceptsExactlyPairsOfHexDigits : Prop :=
  ∀ t r : List Byte, hexdec t = some r ↔
    t.length = 2 * r.length ∧
    ∀ (i : Nat) (b : Byte), r[i]? = some b → ∃ (hi lo : Nat) (h l : Byte), t[2 * i]? = some h ∧ t[2 * i + 1]? = some l ∧
      IsHexDigit h hi ∧ IsHexDigit l lo ∧ b.toNat = 16 * hi + lo

/-- Decoding the hex of a byte string gives it back, and encoding the bytes of a text gives its lowercase: what the
spec derives in R466 from R460 and R461. -/
def Obligations.HexRoundTrips : Prop :=
  (∀ s : List Byte, hexdec (hexenc s) = some s) ∧
  (∀ t r : List Byte, hexdec t = some r → hexenc r = lowerHex t)

/-- R462: the outcomes of `keydec`: the format check first, then the length check. -/
def Obligations.KeydecChecksFormatThenLength : Prop :=
  ∀ t : List Byte,
    (t.length % 2 = 1 ∨ (∃ c ∈ t, ∀ v, ¬ IsHexDigit c v) → keydec t = failWith .invalidKeyFormat) ∧
    (t.length % 2 = 0 → (∀ c ∈ t, ∃ v, IsHexDigit c v) → t.length ≠ 64 → keydec t = failWith .invalidKeyLength) ∧
    (t.length = 64 → (∀ c ∈ t, ∃ v, IsHexDigit c v) →
      ∃ key, keydec t = .ok key ∧ key.length = 32 ∧ hexdec t = some key)

/-! ### The codec sequencer -/

/-- R480: `split` cuts at every separator, keeps the pieces' order, and skips empty pieces. -/
def Obligations.SplitCutsAtSeparatorsAndSkipsEmptyPieces : Prop :=
  split [] = [] ∧
  (∀ seg : List Byte, seg ≠ [] → (∀ c ∈ seg, c ≠ 0x2C#8) → split seg = [seg]) ∧
  (∀ a b : List Byte, split (a ++ 0x2C#8 :: b) = split a ++ split b)

/-- R482: `utf8_valid(s)` is true exactly when s can be cut into consecutive sequences that each match a row of the
table, which the spec marks in R482 as general knowledge. -/
def Obligations.UtfEightValidExactlyWhenItCanBeCut : Prop :=
  ∀ s : List Byte, utf8Valid s = true ↔
    ∃ seqs : List (List Byte), s = seqs.flatten ∧ ∀ q ∈ seqs, ∃ row ∈ utf8Rows, MatchesRow row q

/-- R484: with a 32-byte key, steps 2 to 6 of DECRYPT succeed with p exactly when every segment decodes to 16 bytes,
the inverse-transformed blocks unpad to p, and p is valid UTF-8. Where every segment decodes to 16 bytes, a failing
unpad gives PaddingError, and an unpadded text that is not valid UTF-8 gives InvalidUtf8; an empty text, or one of
separators only, gives PaddingError. -/
def Obligations.DecryptSucceedsExactlyWhenEveryStepDoes : Prop :=
  ∀ key t : List Byte, key.length = 32 →
    (∀ p, decryptWith key t = .ok p ↔
      ∃ blks : List (List Byte),
        List.Forall₂ (fun seg b => hexdec seg = some b ∧ b.length = 16) (split t) blks ∧
        unpad (blks.map fun b => List.zipWith inverseByte b key).flatten = .ok p ∧ utf8Valid p = true) ∧
    (∀ blks : List (List Byte),
      List.Forall₂ (fun seg b => hexdec seg = some b ∧ b.length = 16) (split t) blks →
      ((∀ p, unpad (blks.map fun b => List.zipWith inverseByte b key).flatten ≠ .ok p) →
        decryptWith key t = failWith .paddingError) ∧
      (∀ p, unpad (blks.map fun b => List.zipWith inverseByte b key).flatten = .ok p → utf8Valid p = false →
        decryptWith key t = failWith .invalidUtf8)) ∧
    ((∀ c ∈ t, c = 0x2C#8) → decryptWith key t = failWith .paddingError)

/-- R484: the first segment that fails decides the code, the hex check before the size check within it. -/
def Obligations.DecryptReportsTheFirstFailingSegment : Prop :=
  ∀ (key t seg : List Byte) (good rest : List (List Byte)),
    split t = good ++ seg :: rest → (∀ g ∈ good, ∃ b, hexdec g = some b ∧ b.length = 16) →
    (hexdec seg = none → decryptWith key t = failWith .invalidCiphertextEncoding) ∧
    (∀ b, hexdec seg = some b → b.length ≠ 16 → decryptWith key t = failWith .invalidBlockSize)

/-- The form of ENCRYPT's output that the spec derives in R485 from R483, R481, R421 and R460: 33*n - 1 bytes, a
separator at every place 32 mod 33, lowercase hex digits elsewhere. -/
def Obligations.EncryptOutputHasTheWireForm : Prop :=
  ∀ key d : List Byte, key.length = 32 →
    (cipherText key d).length = 33 * (d.length / 16 + 1) - 1 ∧
    ∀ (i : Nat) (c : Byte), (cipherText key d)[i]? = some c → if i % 33 = 32 then c = 0x2C#8 else c ∈ hexDigits

/-- The round trip the spec derives in R486 from R483 and R484: DECRYPT of what ENCRYPT wrote, under the same key,
gives the plaintext back if it is valid UTF-8 and fails with InvalidUtf8 if it is not; on the machine, for any two
states that run the two commands. -/
def Obligations.DecryptGivesBackWhatEncryptWasGiven : Prop :=
  ∀ (s u : State) (a b : Snapshot) (kt key d : List Byte),
    s.params.Ok → u.params = s.params → s.phase = .busy a → u.phase = .busy b →
    a.klen.toNat ≤ s.params.kbufBytes → a.ilen.toNat ≤ s.params.ibufBytes →
    33 * (a.ilen.toNat / 16 + 1) - 1 ≤ s.params.obufBytes →
    a.KeyIs kt → b.KeyIs kt → keydec kt = .ok key → a.InputIs d →
    ∃ c, Succeeds .encrypt s c ∧
      (b.ilen.toNat ≤ s.params.ibufBytes → b.InputIs c →
        (utf8Valid d = true → Succeeds .decrypt u d) ∧ (utf8Valid d = false → FailsWith .decrypt u .invalidUtf8))

/-- The ECB pattern the spec derives in R487 from R483 and R443: equal 16-byte-aligned blocks of the padded
plaintext give equal segments. -/
def Obligations.EqualBlocksGiveEqualSegments : Prop :=
  ∀ (key d : List Byte) (i j : Nat), key.length = 32 → i < d.length / 16 + 1 → j < d.length / 16 + 1 →
    ((pad d).drop (16 * i)).take 16 = ((pad d).drop (16 * j)).take 16 →
    ((cipherText key d).drop (33 * i)).take 32 = ((cipherText key d).drop (33 * j)).take 32

/-- The key indexing the spec derives in R445 from R443 and R444: of a 32-byte key only bytes 0 to 15 affect a
ciphertext or a decrypted text. -/
def Obligations.OnlyTheFirstSixteenKeyBytesMatter : Prop :=
  ∀ key key' : List Byte, key.length = 32 → key'.length = 32 → key.take 16 = key'.take 16 →
    (∀ d, encryptWith key d = encryptWith key' d) ∧ (∀ t, decryptWith key t = decryptWith key' t)

/-! ### All commands -/

/-- Whatever state a command completes from, its ERRCODE is one the table the spec derives in R602 allows it; the
device never reports EmptyInputError. -/
def Obligations.CommandsReportOnlyTheirOwnCodes : Prop :=
  ∀ (i : Instr) (s t : State), exec i s = .next t → t.errcode ∈ allowedCodes i ∧ t.errcode ≠ .emptyInputError

/-- R402, R403: every command completes from every BUSY state: DONE 1, IDLE, and OLEN 0 unless it is OK; in the IDLE
phase completion is not enabled (the model's fault, log 10). -/
def Obligations.EveryCommandCompletesExactlyWhenBusy : Prop :=
  ∀ (i : Instr) (s : State),
    (∀ snap, s.phase = .busy snap →
      ∃ t, exec i s = .next t ∧ t.done = true ∧ t.phase = .idle ∧ (t.errcode ≠ .ok → t.olen = 0#32)) ∧
    (s.phase = .idle → exec i s = .fault .completionNotEnabled)

/-- R410: the frame of every command: it writes no input, no control bit and no byte of the window outside OBUF;
NOP, and a command that ends in IllegalCommand or CapacityError without an undefined read, writes no byte. -/
def Obligations.CommandsWriteOnlyObufOlenAndStatus : Prop :=
  ∀ (i : Instr) (s t : State), exec i s = .next t →
    s.KeepsInputs t ∧
    (∀ off, ¬ (0x8000 ≤ off ∧ off < 0x8000 + s.params.obufBytes) → t.windowByte off = s.windowByte off) ∧
    (i = .nop ∨ (t.freeCtr = s.freeCtr ∧ (t.errcode = .illegalCommand ∨ t.errcode = .capacityError)) →
      ∀ off, t.windowByte off = s.windowByte off)

/-- R407: a command fails with CapacityError exactly when one of the three checks fails; with the default sizes and
a key that fits, ENCRYPT does so exactly from ILEN = 7936 on, as the spec derives there. -/
def Obligations.CapacityErrorExactlyWhenACheckFails : Prop :=
  ∀ (i : Instr) (s : State) (snap : Snapshot), s.phase = .busy snap →
    (FailsWith i s .capacityError ↔
      (i ∈ [Instr.pad, .unpad, .xform, .ixform, .hexenc, .hexdec, .encrypt, .decrypt] ∧
        s.params.ibufBytes < snap.ilen.toNat) ∨
      (i ∈ [Instr.xform, .ixform, .keydec, .encrypt, .decrypt] ∧ s.params.kbufBytes < snap.klen.toNat) ∨
      (i = .pad ∧ s.params.obufBytes < snap.ilen.toNat + (16 - snap.ilen.toNat % 16)) ∨
      (i = .hexenc ∧ s.params.obufBytes < 2 * snap.ilen.toNat) ∨
      (i = .encrypt ∧ s.params.obufBytes < 33 * (snap.ilen.toNat / 16 + 1) - 1)) ∧
    (s.params = Params.default → snap.klen.toNat ≤ 128 →
      (FailsWith .encrypt s .capacityError ↔ 7936 ≤ snap.ilen.toNat))

/-- R726, R210: exactly where each command reads a POISON byte and so completes with free values; only a command whose
capacity checks pass does (R407), and NOP and the ILLEGAL forms never do. Which bytes a body reads is the model's
reading of the pseudocode's order (log 9), and the free values are log 6's. -/
def Obligations.UndefinedReadsCompleteWithFreeValues : Prop :=
  ∀ (s : State) (snap : Snapshot), s.params.Ok → s.phase = .busy snap →
    (∀ i ∈ [Instr.pad, .hexenc],
      (CompletesUndefined i s ↔ snap.ilen.toNat ≤ s.params.ibufBytes ∧ none ∈ snap.input)) ∧
    (CompletesUndefined .unpad s ↔ snap.ilen.toNat ≤ s.params.ibufBytes ∧ UnpadReadsPoison snap.input) ∧
    (∀ i ∈ [Instr.xform, .ixform],
      (CompletesUndefined i s ↔ snap.ilen = 16#32 ∧ 16 ≤ snap.klen.toNat ∧ snap.klen.toNat ≤ s.params.kbufBytes ∧
        (none ∈ snap.ibuf.slice 16 ∨ none ∈ snap.kbuf.slice 16))) ∧
    (CompletesUndefined .hexdec s ↔ snap.ilen.toNat ≤ s.params.ibufBytes ∧ HexReadsPoison snap.input) ∧
    (CompletesUndefined .keydec s ↔ snap.klen.toNat ≤ s.params.kbufBytes ∧ HexReadsPoison snap.key) ∧
    (CompletesUndefined .encrypt s ↔
      snap.ilen.toNat ≤ s.params.ibufBytes ∧ snap.klen.toNat ≤ s.params.kbufBytes ∧
      33 * (snap.ilen.toNat / 16 + 1) - 1 ≤ s.params.obufBytes ∧
      (HexReadsPoison snap.key ∨ ∃ kt key, snap.KeyIs kt ∧ keydec kt = .ok key ∧ none ∈ snap.input)) ∧
    (CompletesUndefined .decrypt s ↔
      snap.ilen.toNat ≤ s.params.ibufBytes ∧ snap.klen.toNat ≤ s.params.kbufBytes ∧
      (HexReadsPoison snap.key ∨ ∃ kt key, snap.KeyIs kt ∧ keydec kt = .ok key ∧ none ∈ snap.input)) ∧
    ∀ i, (i = .nop ∨ (∃ lo, i = .illegalAB lo) ∨ (∃ lo, i = .illegalCF lo) ∨ ∃ op rsv, i = .illegalRsv op rsv) →
      ¬ CompletesUndefined i s

/-- What the spec derives in R133 and R411: a command's result depends on its snapshot alone: two states that run
the same snapshot complete with the same code, length and output, unless the command read a POISON byte. -/
def Obligations.ResultDependsOnTheSnapshotAlone : Prop :=
  ∀ (i : Instr) (s s' t t' : State), s.params = s'.params → s.phase = s'.phase →
    exec i s = .next t → exec i s' = .next t' → t.freeCtr = s.freeCtr →
    t'.freeCtr = s'.freeCtr ∧ t'.errcode = t.errcode ∧ t'.olen = t.olen ∧
    (t'.obuf = t.obuf ∨ (t.obuf = s.obuf ∧ t'.obuf = s'.obuf))

/-! ### The machine's step -/

/-- R402, R727: one step is a step of the agent whose turn it is: the scheduled one, or, with nothing scheduled,
ENGINE while BUSY and HOST while IDLE, or an agent that nothing settles (log 1). ENGINE runs the command decoded from
the snapshot's word, with nothing added; its turn passes while IDLE (log 2). ENVIRONMENT makes a hardware reset. -/
def Obligations.StepRunsTheDecodedCommand : Prop :=
  ∀ (s : State) (rest : List Agent),
    (∀ snap, s.phase = .busy snap →
      (s.sched = [] → s.freeTurn = none → step s = exec (decode snap.cmd) s) ∧
      (s.sched = .engine :: rest → step s = exec (decode snap.cmd) { s with sched := rest })) ∧
    (s.phase = .idle →
      (s.sched = [] → s.freeTurn = none → step s = hostStep s) ∧
      (s.sched = .engine :: rest → step s = .next { s with sched := rest })) ∧
    (s.sched = .host :: rest → step s = hostStep { s with sched := rest }) ∧
    (s.sched = .environment :: rest → step s = .next (State.deviceReset { s with sched := rest })) ∧
    (∀ n, s.sched = [] → s.freeTurn = some n →
      step s = agentStep (freeAgent n) { s with freeTurn := some (n + 1) })

/-- R402, R720, R727, R131: while BUSY the step keeps the phase and its snapshot, or ends it with IDLE; a host step
ends it only by a soft reset; and with no turn to come the next step completes the command (log 1). In every endless
run that is fair, whatever agents move in it, a BUSY phase keeps its snapshot until it ends, by the completion of the
snapshot's command or by a reset. Every run in which listed agents move is a run of `step` with those turns. -/
def Obligations.BusyEndsByCompletionOrReset : Prop :=
  (∀ (s : State) (snap : Snapshot), s.phase = .busy snap →
    (∀ t, step s = .next t → t.phase = .busy snap ∨ t.phase = .idle) ∧
    (∀ t, hostStep s = .next t → t.phase = .idle → t.irqEn = false ∧ t.done = false ∧ t.cmd = 0#32) ∧
    (s.sched = [] → s.freeTurn = none → ∃ t, step s = .next t ∧ t.phase = .idle ∧ t.done = true)) ∧
  (∀ (turn : Nat → Agent) (run : Nat → State) (n : Nat) (snap : Snapshot), EndlessRun turn run → Fair run →
    (run n).phase = .busy snap →
    ∃ m, n ≤ m ∧ (∀ k, n ≤ k → k ≤ m → (run k).phase = .busy snap) ∧ (run (m + 1)).phase = .idle ∧
      ((turn m = .engine ∧ exec (decode snap.cmd) (run m) = .next (run (m + 1))) ∨ AtResetValues (run (m + 1)))) ∧
  (∀ (turns : List Agent) (s t : State), FiniteRun turns s t →
    core.run turns.length { s with sched := turns } = .next { t with sched := [] })

/-- R140, R701: the state after reset, as the host reads it; with the default sizes (log 3) and no recorded fault
(log 6), which are the model's choice. -/
def Obligations.ResetLeavesTheResetValues : Prop :=
  AtResetValues State.reset ∧ State.reset.params = Params.default ∧ State.reset.Clean

/-- R701, R702, R704: from every state, in either phase, a CTRL write with bit 0 set and a hardware reset both leave
the reset values; recorded faults and the sizes stay. That the host's program and its place in it stay too is the
model's reading (log 16). -/
def Obligations.SoftAndHardwareResetRestoreTheResetValues : Prop :=
  ∀ (s : State) (v : Word),
    (v.getLsbD 0 = true → s.memWrite .w32 0x0004#16 v = some s.deviceReset) ∧
    AtResetValues s.deviceReset ∧ s.deviceReset.faults = s.faults ∧ s.deviceReset.params = s.params ∧
    ∀ rest, s.sched = .environment :: rest →
      ∃ t, step s = .next t ∧ AtResetValues t ∧ t.faults = s.faults ∧ t.params = s.params ∧ t.host = s.host

/-- R705, R105: a CTRL write with bit 0 clear sets IRQ_EN to bit 1 and changes nothing else; a STATUS write clears
DONE and BUSYWR where bits 1 and 3 are 1 and changes nothing else; both in either phase. -/
def Obligations.CtrlAndStatusWritesAreNeverDropped : Prop :=
  ∀ (s : State) (v : Word),
    (v.getLsbD 0 = false → s.memWrite .w32 0x0004#16 v = some { s with irqEn := v.getLsbD 1 }) ∧
    s.memWrite .w32 0x0008#16 v =
      some { s with done := s.done && !v.getLsbD 1, busywr := s.busywr && !v.getLsbD 3 }

/-- R105, R104, R600, R203: a 4-byte read of STATUS and of CTRL returns a word each of whose bits is the field's, in
either phase; and the number of every error code. -/
def Obligations.StatusAndCtrlReadTheirFields : Prop :=
  (∀ s : State,
    s.memRead .w32 0x0008#16 = .word s.statusWord ∧ s.memRead .w32 0x0004#16 = .word s.ctrlWord ∧
    ∀ i : Nat,
      (s.statusWord.getLsbD i =
        if i = 0 then s.isBusy else if i = 1 then s.done else if i = 2 then decide (s.errcode ≠ .ok)
        else if i = 3 then s.busywr else if 8 ≤ i ∧ i < 12 then s.errcode.code.getLsbD (i - 8) else false) ∧
      s.ctrlWord.getLsbD i = (decide (i = 1) && s.irqEn)) ∧
  (∀ s : State, s.readReg .status = s.statusWord ∧ s.readReg .ctrl = s.ctrlWord) ∧
  ([ErrCode.ok, .invalidKeyFormat, .invalidKeyLength, .keyTooShortError, .invalidCiphertextEncoding,
    .invalidBlockSize, .paddingError, .invalidUtf8, .emptyInputError, .illegalCommand, .capacityError].map
      fun c => c.code.toNat) = [0, 1, 2, 3, 4, 5, 6, 7, 8, 9, 10]

/-- R610: IRQ is DONE and IRQ_EN, and how the events move it: a completion raises it if IRQ_EN is set; setting
IRQ_EN with DONE set raises it; W1C of DONE, clearing IRQ_EN, an accepted command and a reset lower it. -/
def Obligations.IrqIsTheLevelOfDoneAndEnable : Prop :=
  ∀ s : State,
    s.irq = (s.done && s.irqEn) ∧
    (∀ i t, exec i s = .next t → t.irq = s.irqEn) ∧
    (∀ v t, s.memWrite .w32 0x0004#16 v = some t →
      t.irq = (s.done && !v.getLsbD 0 && v.getLsbD 1)) ∧
    (∀ v t, s.memWrite .w32 0x0008#16 v = some t → v.getLsbD 1 = true → t.irq = false) ∧
    (∀ v t, s.phase = .idle → s.memWrite .w32 0x000C#16 v = some t → t.irq = false)

/-! ### The host bus -/

/-- R722: while BUSY a permitted write to CMD, ILEN, KLEN or any byte of KBUF or IBUF changes nothing but BUSYWR,
which becomes 1; a write that gets BUSERR changes nothing; no other write sets BUSYWR, and only a W1C of STATUS bit
3 or a soft reset clears it. -/
def Obligations.WritesWhileBusyAreDropped : Prop :=
  ∀ (s : State) (snap : Snapshot) (n : Width) (off : Offset) (v : Word), s.phase = .busy snap →
    (DroppedWhileBusy s n off → s.memWrite n off v = some { s with busywr := true }) ∧
    (s.memRead n off = .busError → s.memWrite n off v = none) ∧
    (∀ t, s.memWrite n off v = some t → t.busywr = true → s.busywr = true ∨ DroppedWhileBusy s n off) ∧
    (∀ t, s.memWrite n off v = some t → s.busywr = true → t.busywr = true ∨
      (n = .w32 ∧ off = 0x0008#16 ∧ v.getLsbD 3 = true) ∨ (n = .w32 ∧ off = 0x0004#16 ∧ v.getLsbD 0 = true))

/-- R205, R206, R207: an access gets BUSERR exactly when it is misaligned, or addresses a register with another
width than 4, or touches an unmapped byte. -/
def Obligations.BusErrorExactlyWhenNotPermitted : Prop :=
  ∀ (s : State) (n : Width) (off : Offset) (v : Word), s.params.Ok →
    (s.memRead n off = .busError ↔
      off.toNat % n.bytes ≠ 0 ∨ (off.toNat < 0x28 ∧ n.bytes ≠ 4) ∨
        ∃ j, j < n.bytes ∧ ¬ Mapped s.params (off.toNat + j)) ∧
    (s.memWrite n off v = none ↔ s.memRead n off = .busError)

/-- R208, R726: after BUSERR the device is unchanged and BUS_ERROR is recorded, for a host write and a host read;
the other recorded faults stay. That the host then goes on is the model's choice (log 8). -/
def Obligations.BusErrorIsRecordedAndChangesNothing : Prop :=
  ∀ (s : State) (n : Width) (off : Offset) (v : Word) (x : Nat), s.memRead n off = .busError →
    (s.SameDevice (hostWrite s n off v) ∧ (hostWrite s n off v).faults = { s.faults with busError := true }) ∧
    (s.SameDevice (hostRead s n off x) ∧ (hostRead s n off x).faults = { s.faults with busError := true })

/-- R204, R202: a permitted write to KBUF or IBUF while IDLE stores the low bytes of the data word, bits 7:0 at the
lowest offset, leaves every other byte of the window as it was, and changes nothing but that buffer; reading the
same bytes gives them back. -/
def Obligations.BufferWritesStoreLittleEndianBytes : Prop :=
  ∀ (s : State) (n : Width) (off : Offset) (v : Word), s.params.Ok → s.phase = .idle →
    off.toNat % n.bytes = 0 →
    ((0x100 ≤ off.toNat ∧ off.toNat + n.bytes ≤ 0x100 + s.params.kbufBytes) ∨
      (0x4000 ≤ off.toNat ∧ off.toNat + n.bytes ≤ 0x4000 + s.params.ibufBytes)) →
    ∃ t, s.memWrite n off v = some t ∧
      (∀ j, j < n.bytes → t.windowByte (off.toNat + j) = some (v.extractLsb' (8 * j) 8)) ∧
      (∀ a, ¬ (off.toNat ≤ a ∧ a < off.toNat + n.bytes) → t.windowByte a = s.windowByte a) ∧
      t.memRead n off = .bytes ((List.range n.bytes).map fun j => some (v.extractLsb' (8 * j) 8)) ∧
      t = { s with kbuf := t.kbuf, ibuf := t.ibuf } ∧
      (off.toNat < 0x4000 → t.ibuf = s.ibuf) ∧ (0x4000 ≤ off.toNat → t.kbuf = s.kbuf)

/-- R203, R202: a host read of a register binds its name to the register's value; a host read of buffer bytes that
are all defined binds it to their little-endian value, zero-extended. The host then goes to the next line; every
other name keeps its value, and nothing else changes, so no fault is recorded. -/
def Obligations.HostReadsBindTheLittleEndianValue : Prop :=
  ∀ (s : State) (n : Width) (off : Offset) (x : Nat),
    (∀ v, s.memRead n off = .word v → BindsName s (hostRead s n off x) x v) ∧
    (∀ bs : List Byte, s.memRead n off = .bytes (bs.map some) →
      ∃ v : Word, BindsName s (hostRead s n off x) x v ∧
        ∀ i, i < 32 → v.getLsbD i = (bs.getD (i / 8) 0#8).getLsbD (i % 8))

/-- R203, R209, R721, R726: no host read changes the device; a read of OBUF while BUSY returns only POISON bytes; a
read that returns a POISON byte is recorded as UNDEF_READ_HOST, and the host goes on (log 7). -/
def Obligations.HostReadsChangeNothingInTheDevice : Prop :=
  ∀ (s : State) (n : Width) (off : Offset) (x : Nat),
    s.SameDevice (hostRead s n off x) ∧
    (s.isBusy = true → off.toNat % n.bytes = 0 → 0x8000 ≤ off.toNat →
      off.toNat + n.bytes ≤ 0x8000 + s.params.obufBytes → s.params.Ok →
      s.memRead n off = .bytes (List.replicate n.bytes none)) ∧
    (∀ bs, s.memRead n off = .bytes bs → none ∈ bs →
      (hostRead s n off x).faults = { s.faults with undefReadHost := true })

/-- R103, R106 to R111, R203: ILEN and KLEN read back any value written while IDLE; ID and the CAP registers read
their constants; a write to a read-only register or to OBUF has no effect, in either phase. -/
def Obligations.RegistersReadBackAndReadOnlyOnesIgnoreWrites : Prop :=
  ∀ (s : State) (v : Word),
    (s.phase = .idle → s.memWrite .w32 0x0010#16 v = some { s with ilen := v } ∧
      s.memWrite .w32 0x0014#16 v = some { s with klen := v }) ∧
    s.memRead .w32 0x0000#16 = .word 0x50430100#32 ∧ s.memRead .w32 0x000C#16 = .word s.cmd ∧
    s.memRead .w32 0x0010#16 = .word s.ilen ∧ s.memRead .w32 0x0014#16 = .word s.klen ∧
    s.memRead .w32 0x0018#16 = .word s.olen ∧
    s.memRead .w32 0x001C#16 = .word (BitVec.ofNat 32 s.params.kbufBytes) ∧
    s.memRead .w32 0x0020#16 = .word (BitVec.ofNat 32 s.params.ibufBytes) ∧
    s.memRead .w32 0x0024#16 = .word (BitVec.ofNat 32 s.params.obufBytes) ∧
    (∀ off ∈ [0x0000#16, 0x0018#16, 0x001C#16, 0x0020#16, 0x0024#16], s.memWrite .w32 off v = some s) ∧
    (∀ (n : Width) (off : Offset), s.params.Ok → off.toNat % n.bytes = 0 → 0x8000 ≤ off.toNat →
      off.toNat + n.bytes ≤ 0x8000 + s.params.obufBytes → s.memWrite n off v = some s)

/-! ### The host's program -/

/-- R307, R204, R203, R220, R728: the host goes through its lines in order. A write line makes MemWrite of its
constant, or of its name's value; a read line makes MemRead into its name; BNZ alone branches, to the line with its
label, when the named value has a bit of the mask. The model's own choices: going on to the next line after BUSERR
(log 8); that a label line takes a step, the first of several lines with one label, and the faults of a name without
a value and of a label the program lacks (log 12); that nothing happens past the last line (log 2). A run is over
exactly when no line is left and the phase is IDLE: then no agent but ENVIRONMENT moves; while BUSY, ENGINE does. -/
def Obligations.HostProgramsRunInOrder : Prop :=
  ∀ s : State,
    (∀ t, hostStep s = .next t → t.host.prog = s.host.prog) ∧
    (∀ n off val v, s.host.prog[s.host.pc]? = some (.write n off val) →
      (val = .const v ∨ ∃ x, val = .name x ∧ Sparse.get x s.host.vars = some v) →
      (∀ t, s.memWrite n off v = some t → hostStep s = .next { t with host := { s.host with pc := s.host.pc + 1 } }) ∧
      (s.memWrite n off v = none → hostStep s = .next
        { s with faults := { s.faults with busError := true }, host := { s.host with pc := s.host.pc + 1 } })) ∧
    (∀ n off x, s.host.prog[s.host.pc]? = some (.read n off x) →
      hostStep s = .next (hostRead s n off x) ∧ (hostRead s n off x).host.pc = s.host.pc + 1) ∧
    (∀ l, s.host.prog[s.host.pc]? = some (.label l) →
      hostStep s = .next { s with host := { s.host with pc := s.host.pc + 1 } }) ∧
    (∀ x m l v, s.host.prog[s.host.pc]? = some (.bnz x m l) → Sparse.get x s.host.vars = some v →
      (v &&& m = 0#32 → hostStep s = .next { s with host := { s.host with pc := s.host.pc + 1 } }) ∧
      (∀ k, v &&& m ≠ 0#32 → s.host.prog[k]? = some (.label l) → (∀ j, j < k → s.host.prog[j]? ≠ some (.label l)) →
        hostStep s = .next { s with host := { s.host with pc := k } }) ∧
      (v &&& m ≠ 0#32 → .label l ∉ s.host.prog → hostStep s = .fault .unknownHostLabel)) ∧
    (∀ x, Sparse.get x s.host.vars = none →
      ((∃ n off, s.host.prog[s.host.pc]? = some (.write n off (.name x))) ∨
        ∃ m l, s.host.prog[s.host.pc]? = some (.bnz x m l)) →
      hostStep s = .fault .unboundHostName) ∧
    (s.host.prog[s.host.pc]? = none → hostStep s = .next s) ∧
    (s.runOver = true ↔ s.host.prog[s.host.pc]? = none ∧ s.phase = .idle) ∧
    (s.runOver = true → ∀ a t, Moves a s t → a = .environment) ∧
    (∀ snap, s.phase = .busy snap → ∃ t, Moves .engine s t)

/-! ### Invariants -/

/-- R6, R105, R140: the state after reset is a legal state. -/
def Obligations.ResetIsALegalState : Prop := State.reset.Inv

/-- R105, R131, R601 and the canonical form of the buffers: every step keeps a legal state legal. -/
def Obligations.EveryStepKeepsLegalStates : Prop :=
  ∀ s t : State, s.Inv → step s = .next t → t.Inv

/-- R726: no step clears a recorded fault, and no step changes the sizes (R6, R110; log 3). -/
def Obligations.NoStepClearsARecordedFault : Prop :=
  ∀ s t : State, step s = .next t →
    t.params = s.params ∧
    (s.faults.busError = true → t.faults.busError = true) ∧
    (s.faults.undefReadHost = true → t.faults.undefReadHost = true) ∧
    (s.faults.undefReadEngine = true → t.faults.undefReadEngine = true)
end

