-- ==== Sys2Proof/Laws/Sparse.lean ====
section
/-! SUPPORT. Sparse data by key: reading after writing, and that every buffer operation keeps the canonical form
and the buffer's size. -/

namespace Sys2Proof.Machine

section Sparse

variable {α : Type}

@[simp] theorem Sparse.get_nil (k : Nat) : Sparse.get k ([] : List (Nat × α)) = none := rfl

theorem Sparse.get_insert_same (k : Nat) (v : α) (m : List (Nat × α)) : Sparse.get k (Sparse.insert k v m) = some v := by
  induction m with
  | nil => simp [Sparse.insert, Sparse.get]
  | cons c rest ih =>
    obtain ⟨j, u⟩ := c
    unfold Sparse.insert
    split_ifs with h₁ h₂
    · simp [Sparse.get]
    · simp [Sparse.get]
    · simp [Sparse.get, Ne.symm h₂, ih]

theorem Sparse.get_insert_other {k j : Nat} (h : j ≠ k) (v : α) (m : List (Nat × α)) :
    Sparse.get j (Sparse.insert k v m) = Sparse.get j m := by
  induction m with
  | nil => simp [Sparse.insert, Sparse.get, Ne.symm h]
  | cons c rest ih =>
    obtain ⟨i, u⟩ := c
    unfold Sparse.insert
    split_ifs with h₁ h₂
    · simp [Sparse.get, Ne.symm h]
    · subst h₂
      simp [Sparse.get, Ne.symm h]
    · simp [Sparse.get, ih]

theorem Sparse.get_insert (j k : Nat) (v : α) (m : List (Nat × α)) :
    Sparse.get j (Sparse.insert k v m) = if j = k then some v else Sparse.get j m := by
  split_ifs with h
  · subst h
    exact Sparse.get_insert_same j v m
  · exact Sparse.get_insert_other h v m

theorem Sparse.mem_insert {k : Nat} {v : α} {m : List (Nat × α)} {c : Nat × α} (h : c ∈ Sparse.insert k v m) :
    c = (k, v) ∨ c ∈ m := by
  induction m with
  | nil => simpa [Sparse.insert] using h
  | cons d rest ih =>
    obtain ⟨i, u⟩ := d
    unfold Sparse.insert at h
    split_ifs at h with h₁ h₂
    · simpa using h
    · rcases List.mem_cons.mp h with h | h
      · exact .inl h
      · exact .inr (List.mem_cons_of_mem _ h)
    · rcases List.mem_cons.mp h with h | h
      · exact .inr (h ▸ List.mem_cons_self)
      · exact (ih h).imp id (List.mem_cons_of_mem _)

/-- Inserting keeps the keys strictly rising. -/
theorem Sparse.insert_sorted (k : Nat) (v : α) (m : List (Nat × α))
    (h : (m.map Prod.fst).Pairwise (· < ·)) : ((Sparse.insert k v m).map Prod.fst).Pairwise (· < ·) := by
  induction m with
  | nil => simp [Sparse.insert]
  | cons c rest ih =>
    obtain ⟨i, u⟩ := c
    rw [List.map_cons, List.pairwise_cons] at h
    unfold Sparse.insert
    split_ifs with h₁ h₂
    · rw [List.map_cons, List.map_cons, List.pairwise_cons, List.pairwise_cons]
      refine ⟨fun x hx => ?_, h⟩
      rcases List.mem_cons.mp hx with rfl | hx
      · exact h₁
      · exact lt_trans h₁ (h.1 x hx)
    · subst h₂
      rw [List.map_cons, List.pairwise_cons]
      exact h
    · rw [List.map_cons, List.pairwise_cons]
      refine ⟨fun x hx => ?_, ih h.2⟩
      obtain ⟨c, hc, rfl⟩ := List.mem_map.mp hx
      rcases Sparse.mem_insert hc with rfl | hc
      · show i < k
        omega
      · exact h.1 _ (List.mem_map_of_mem hc)

/-- A value that is read is listed. -/
theorem Sparse.mem_of_get {k : Nat} {v : α} {m : List (Nat × α)} (h : Sparse.get k m = some v) : (k, v) ∈ m := by
  induction m with
  | nil => simp at h
  | cons c rest ih =>
    obtain ⟨i, u⟩ := c
    unfold Sparse.get at h
    split_ifs at h with hi
    · obtain rfl := Option.some.inj h
      simp [hi]
    · exact List.mem_cons_of_mem _ (ih h)

end Sparse

/-! ### One byte -/

@[simp] theorem Memory.get_nil (k : Nat) : Memory.get [] k = none := rfl

@[simp] theorem Memory.get_set (m : Memory) (k j : Nat) (b : Byte) :
    (m.set k b).get j = if j = k then some b else m.get j := Sparse.get_insert j k b m

theorem Memory.set_wf {m : Memory} (h : m.wf) (k : Nat) (b : Byte) : (m.set k b).wf := Sparse.insert_sorted k b m h

theorem Memory.set_fits {m : Memory} {n k : Nat} (h : m.fits n) (hk : k < n) (b : Byte) : (m.set k b).fits n := by
  intro c hc
  rcases Sparse.mem_insert hc with rfl | hc
  · exact hk
  · exact h c hc

theorem Memory.get_eq_none_of_fits {m : Memory} {n k : Nat} (h : m.fits n) (hk : n ≤ k) : m.get k = none := by
  cases hg : m.get k with
  | none => rfl
  | some b => exact absurd (h _ (Sparse.mem_of_get hg)) (by simpa using hk)

/-! ### Several bytes -/

theorem Memory.get_setBytes (bs : List Byte) (m : Memory) (k j : Nat) :
    (m.setBytes k bs).get j = if k ≤ j ∧ j < k + bs.length then bs[j - k]? else m.get j := by
  induction bs generalizing m k with
  | nil => simp [Memory.setBytes]
  | cons b bs ih =>
    rw [Memory.setBytes, ih]
    simp only [Memory.get_set, List.length_cons]
    split_ifs with h₁ h₂ h₃ h₄ h₅
    · rw [show j - k = (j - (k + 1)) + 1 by omega, List.getElem?_cons_succ]
    · omega
    · subst h₃
      simp
    · omega
    · omega
    · rfl

theorem Memory.setBytes_wf (bs : List Byte) {m : Memory} (h : m.wf) (k : Nat) : (m.setBytes k bs).wf := by
  induction bs generalizing m k with
  | nil => exact h
  | cons b bs ih => exact ih (Memory.set_wf h k b) (k + 1)

theorem Memory.setBytes_fits (bs : List Byte) {m : Memory} {n k : Nat} (h : m.fits n) (hk : k + bs.length ≤ n) :
    (m.setBytes k bs).fits n := by
  induction bs generalizing m k with
  | nil => exact h
  | cons b bs ih =>
    rw [List.length_cons] at hk
    exact ih (Memory.set_fits h (by omega) b) (by omega)

theorem Memory.get_ofBytesFrom (bs : List Byte) (k j : Nat) :
    (Memory.ofBytesFrom k bs).get j = if k ≤ j then bs[j - k]? else none := by
  induction bs generalizing k with
  | nil => simp [Memory.ofBytesFrom]
  | cons b bs ih =>
    have h := ih (k + 1)
    unfold Memory.get at h
    unfold Memory.get Memory.ofBytesFrom Sparse.get
    rw [h]
    split_ifs with h₁ h₂ h₃ h₄
    · subst h₁
      simp
    · omega
    · rw [show j - k = (j - (k + 1)) + 1 by omega, List.getElem?_cons_succ]
    · omega
    · omega
    · rfl

@[simp] theorem Memory.get_ofBytes (bs : List Byte) (j : Nat) : (Memory.ofBytes bs).get j = bs[j]? := by
  simp [Memory.ofBytes, Memory.get_ofBytesFrom]

theorem Memory.mem_ofBytesFrom {bs : List Byte} {k : Nat} {c : Host.Cell} (h : c ∈ Memory.ofBytesFrom k bs) :
    k ≤ c.1 ∧ c.1 < k + bs.length := by
  induction bs generalizing k with
  | nil => simp [Memory.ofBytesFrom] at h
  | cons b bs ih =>
    rw [List.length_cons]
    rcases List.mem_cons.mp h with rfl | h
    · exact ⟨le_rfl, by simp⟩
    · have := ih h
      omega

theorem Memory.ofBytesFrom_wf (bs : List Byte) (k : Nat) : (Memory.ofBytesFrom k bs).wf := by
  induction bs generalizing k with
  | nil => exact List.Pairwise.nil
  | cons b bs ih =>
    refine List.pairwise_cons.mpr ⟨fun x hx => ?_, ih (k + 1)⟩
    obtain ⟨c, hc, rfl⟩ := List.mem_map.mp hx
    have := Memory.mem_ofBytesFrom hc
    omega

theorem Memory.ofBytes_wf (bs : List Byte) : (Memory.ofBytes bs).wf := Memory.ofBytesFrom_wf bs 0

theorem Memory.ofBytes_fits {bs : List Byte} {n : Nat} (h : bs.length ≤ n) : (Memory.ofBytes bs).fits n := by
  intro c hc
  have := Memory.mem_ofBytesFrom hc
  omega

theorem Memory.nil_wf : Memory.wf [] := List.Pairwise.nil

theorem Memory.nil_fits (n : Nat) : Memory.fits [] n := by intro c hc; cases hc

@[simp] theorem Memory.slice_length (m : Memory) (n : Nat) : (m.slice n).length = n := by simp [Memory.slice]

theorem Memory.slice_getElem? (m : Memory) (n k : Nat) (h : k < n) : (m.slice n)[k]? = some (m.get k) := by
  simp [Memory.slice, h]

/-- The first bytes of a slice are the shorter slice. -/
theorem Memory.slice_take (m : Memory) {j n : Nat} (h : j ≤ n) : (m.slice n).take j = m.slice j := by
  unfold Memory.slice
  rw [← List.map_take, List.take_range, min_eq_left h]

@[simp] theorem wordBytes_length (v : Word) (n : Nat) : (wordBytes v n).length = n := by simp [wordBytes]

end Sys2Proof.Machine
end

