-- ==== Sys2Proof/Laws/State.lean ====
section
/-! SUPPORT. One lemma per field per named update of the state: what the update leaves in that field. -/

namespace Sys2Proof.Machine

variable (s : State)

/-! ### startCommand -/

@[simp] theorem State.startCommand_irqEn (v : Word) : (s.startCommand v).irqEn = s.irqEn := rfl
@[simp] theorem State.startCommand_done (v : Word) : (s.startCommand v).done = false := rfl
@[simp] theorem State.startCommand_busywr (v : Word) : (s.startCommand v).busywr = s.busywr := rfl
@[simp] theorem State.startCommand_errcode (v : Word) : (s.startCommand v).errcode = .ok := rfl
@[simp] theorem State.startCommand_cmd (v : Word) : (s.startCommand v).cmd = v := rfl
@[simp] theorem State.startCommand_ilen (v : Word) : (s.startCommand v).ilen = s.ilen := rfl
@[simp] theorem State.startCommand_klen (v : Word) : (s.startCommand v).klen = s.klen := rfl
@[simp] theorem State.startCommand_olen (v : Word) : (s.startCommand v).olen = 0#32 := rfl
@[simp] theorem State.startCommand_kbuf (v : Word) : (s.startCommand v).kbuf = s.kbuf := rfl
@[simp] theorem State.startCommand_ibuf (v : Word) : (s.startCommand v).ibuf = s.ibuf := rfl
@[simp] theorem State.startCommand_obuf (v : Word) : (s.startCommand v).obuf = s.obuf := rfl
@[simp] theorem State.startCommand_phase (v : Word) : (s.startCommand v).phase = .busy (s.snapshotWith v) := rfl
@[simp] theorem State.startCommand_faults (v : Word) : (s.startCommand v).faults = s.faults := rfl
@[simp] theorem State.startCommand_params (v : Word) : (s.startCommand v).params = s.params := rfl
@[simp] theorem State.startCommand_host (v : Word) : (s.startCommand v).host = s.host := rfl
@[simp] theorem State.startCommand_sched (v : Word) : (s.startCommand v).sched = s.sched := rfl
@[simp] theorem State.startCommand_freeTurn (v : Word) : (s.startCommand v).freeTurn = s.freeTurn := rfl
@[simp] theorem State.startCommand_freeCtr (v : Word) : (s.startCommand v).freeCtr = s.freeCtr := rfl

/-! ### completeWith -/

@[simp] theorem State.completeWith_irqEn (c : ErrCode) (n : Word) (m : Memory) : (s.completeWith c n m).irqEn = s.irqEn :=
  rfl
@[simp] theorem State.completeWith_done (c : ErrCode) (n : Word) (m : Memory) : (s.completeWith c n m).done = true :=
  rfl
@[simp] theorem State.completeWith_busywr (c : ErrCode) (n : Word) (m : Memory) : (s.completeWith c n m).busywr = s.busywr :=
  rfl
@[simp] theorem State.completeWith_errcode (c : ErrCode) (n : Word) (m : Memory) : (s.completeWith c n m).errcode = c :=
  rfl
@[simp] theorem State.completeWith_cmd (c : ErrCode) (n : Word) (m : Memory) : (s.completeWith c n m).cmd = s.cmd :=
  rfl
@[simp] theorem State.completeWith_ilen (c : ErrCode) (n : Word) (m : Memory) : (s.completeWith c n m).ilen = s.ilen :=
  rfl
@[simp] theorem State.completeWith_klen (c : ErrCode) (n : Word) (m : Memory) : (s.completeWith c n m).klen = s.klen :=
  rfl
@[simp] theorem State.completeWith_olen (c : ErrCode) (n : Word) (m : Memory) : (s.completeWith c n m).olen = n := rfl
@[simp] theorem State.completeWith_kbuf (c : ErrCode) (n : Word) (m : Memory) : (s.completeWith c n m).kbuf = s.kbuf :=
  rfl
@[simp] theorem State.completeWith_ibuf (c : ErrCode) (n : Word) (m : Memory) : (s.completeWith c n m).ibuf = s.ibuf :=
  rfl
@[simp] theorem State.completeWith_obuf (c : ErrCode) (n : Word) (m : Memory) : (s.completeWith c n m).obuf = m := rfl
@[simp] theorem State.completeWith_phase (c : ErrCode) (n : Word) (m : Memory) : (s.completeWith c n m).phase = .idle :=
  rfl
@[simp] theorem State.completeWith_faults (c : ErrCode) (n : Word) (m : Memory) : (s.completeWith c n m).faults = s.faults :=
  rfl
@[simp] theorem State.completeWith_params (c : ErrCode) (n : Word) (m : Memory) : (s.completeWith c n m).params = s.params :=
  rfl
@[simp] theorem State.completeWith_host (c : ErrCode) (n : Word) (m : Memory) : (s.completeWith c n m).host = s.host :=
  rfl
@[simp] theorem State.completeWith_sched (c : ErrCode) (n : Word) (m : Memory) : (s.completeWith c n m).sched = s.sched :=
  rfl
@[simp] theorem State.completeWith_freeTurn (c : ErrCode) (n : Word) (m : Memory) : (s.completeWith c n m).freeTurn = s.freeTurn :=
  rfl
@[simp] theorem State.completeWith_freeCtr (c : ErrCode) (n : Word) (m : Memory) : (s.completeWith c n m).freeCtr = s.freeCtr :=
  rfl

/-! ### deviceReset -/

@[simp] theorem State.deviceReset_irqEn : (s.deviceReset).irqEn = false := rfl
@[simp] theorem State.deviceReset_done : (s.deviceReset).done = false := rfl
@[simp] theorem State.deviceReset_busywr : (s.deviceReset).busywr = false := rfl
@[simp] theorem State.deviceReset_errcode : (s.deviceReset).errcode = .ok := rfl
@[simp] theorem State.deviceReset_cmd : (s.deviceReset).cmd = 0#32 := rfl
@[simp] theorem State.deviceReset_ilen : (s.deviceReset).ilen = 0#32 := rfl
@[simp] theorem State.deviceReset_klen : (s.deviceReset).klen = 0#32 := rfl
@[simp] theorem State.deviceReset_olen : (s.deviceReset).olen = 0#32 := rfl
@[simp] theorem State.deviceReset_kbuf : (s.deviceReset).kbuf = [] := rfl
@[simp] theorem State.deviceReset_ibuf : (s.deviceReset).ibuf = [] := rfl
@[simp] theorem State.deviceReset_obuf : (s.deviceReset).obuf = [] := rfl
@[simp] theorem State.deviceReset_phase : (s.deviceReset).phase = .idle := rfl
@[simp] theorem State.deviceReset_faults : (s.deviceReset).faults = s.faults := rfl
@[simp] theorem State.deviceReset_params : (s.deviceReset).params = s.params := rfl
@[simp] theorem State.deviceReset_host : (s.deviceReset).host = s.host := rfl
@[simp] theorem State.deviceReset_sched : (s.deviceReset).sched = s.sched := rfl
@[simp] theorem State.deviceReset_freeTurn : (s.deviceReset).freeTurn = s.freeTurn := rfl
@[simp] theorem State.deviceReset_freeCtr : (s.deviceReset).freeCtr = s.freeCtr := rfl

/-! ### dropWrite -/

@[simp] theorem State.dropWrite_irqEn : (s.dropWrite).irqEn = s.irqEn := rfl
@[simp] theorem State.dropWrite_done : (s.dropWrite).done = s.done := rfl
@[simp] theorem State.dropWrite_busywr : (s.dropWrite).busywr = true := rfl
@[simp] theorem State.dropWrite_errcode : (s.dropWrite).errcode = s.errcode := rfl
@[simp] theorem State.dropWrite_cmd : (s.dropWrite).cmd = s.cmd := rfl
@[simp] theorem State.dropWrite_ilen : (s.dropWrite).ilen = s.ilen := rfl
@[simp] theorem State.dropWrite_klen : (s.dropWrite).klen = s.klen := rfl
@[simp] theorem State.dropWrite_olen : (s.dropWrite).olen = s.olen := rfl
@[simp] theorem State.dropWrite_kbuf : (s.dropWrite).kbuf = s.kbuf := rfl
@[simp] theorem State.dropWrite_ibuf : (s.dropWrite).ibuf = s.ibuf := rfl
@[simp] theorem State.dropWrite_obuf : (s.dropWrite).obuf = s.obuf := rfl
@[simp] theorem State.dropWrite_phase : (s.dropWrite).phase = s.phase := rfl
@[simp] theorem State.dropWrite_faults : (s.dropWrite).faults = s.faults := rfl
@[simp] theorem State.dropWrite_params : (s.dropWrite).params = s.params := rfl
@[simp] theorem State.dropWrite_host : (s.dropWrite).host = s.host := rfl
@[simp] theorem State.dropWrite_sched : (s.dropWrite).sched = s.sched := rfl
@[simp] theorem State.dropWrite_freeTurn : (s.dropWrite).freeTurn = s.freeTurn := rfl
@[simp] theorem State.dropWrite_freeCtr : (s.dropWrite).freeCtr = s.freeCtr := rfl

/-! ### acknowledge -/

@[simp] theorem State.acknowledge_irqEn (v : Word) : (s.acknowledge v).irqEn = s.irqEn := rfl
@[simp] theorem State.acknowledge_done (v : Word) : (s.acknowledge v).done = (s.done && !v.getLsbD 1) := rfl
@[simp] theorem State.acknowledge_busywr (v : Word) : (s.acknowledge v).busywr = (s.busywr && !v.getLsbD 3) := rfl
@[simp] theorem State.acknowledge_errcode (v : Word) : (s.acknowledge v).errcode = s.errcode := rfl
@[simp] theorem State.acknowledge_cmd (v : Word) : (s.acknowledge v).cmd = s.cmd := rfl
@[simp] theorem State.acknowledge_ilen (v : Word) : (s.acknowledge v).ilen = s.ilen := rfl
@[simp] theorem State.acknowledge_klen (v : Word) : (s.acknowledge v).klen = s.klen := rfl
@[simp] theorem State.acknowledge_olen (v : Word) : (s.acknowledge v).olen = s.olen := rfl
@[simp] theorem State.acknowledge_kbuf (v : Word) : (s.acknowledge v).kbuf = s.kbuf := rfl
@[simp] theorem State.acknowledge_ibuf (v : Word) : (s.acknowledge v).ibuf = s.ibuf := rfl
@[simp] theorem State.acknowledge_obuf (v : Word) : (s.acknowledge v).obuf = s.obuf := rfl
@[simp] theorem State.acknowledge_phase (v : Word) : (s.acknowledge v).phase = s.phase := rfl
@[simp] theorem State.acknowledge_faults (v : Word) : (s.acknowledge v).faults = s.faults := rfl
@[simp] theorem State.acknowledge_params (v : Word) : (s.acknowledge v).params = s.params := rfl
@[simp] theorem State.acknowledge_host (v : Word) : (s.acknowledge v).host = s.host := rfl
@[simp] theorem State.acknowledge_sched (v : Word) : (s.acknowledge v).sched = s.sched := rfl
@[simp] theorem State.acknowledge_freeTurn (v : Word) : (s.acknowledge v).freeTurn = s.freeTurn := rfl
@[simp] theorem State.acknowledge_freeCtr (v : Word) : (s.acknowledge v).freeCtr = s.freeCtr := rfl

/-! ### recordBusError -/

@[simp] theorem State.recordBusError_irqEn : (s.recordBusError).irqEn = s.irqEn := rfl
@[simp] theorem State.recordBusError_done : (s.recordBusError).done = s.done := rfl
@[simp] theorem State.recordBusError_busywr : (s.recordBusError).busywr = s.busywr := rfl
@[simp] theorem State.recordBusError_errcode : (s.recordBusError).errcode = s.errcode := rfl
@[simp] theorem State.recordBusError_cmd : (s.recordBusError).cmd = s.cmd := rfl
@[simp] theorem State.recordBusError_ilen : (s.recordBusError).ilen = s.ilen := rfl
@[simp] theorem State.recordBusError_klen : (s.recordBusError).klen = s.klen := rfl
@[simp] theorem State.recordBusError_olen : (s.recordBusError).olen = s.olen := rfl
@[simp] theorem State.recordBusError_kbuf : (s.recordBusError).kbuf = s.kbuf := rfl
@[simp] theorem State.recordBusError_ibuf : (s.recordBusError).ibuf = s.ibuf := rfl
@[simp] theorem State.recordBusError_obuf : (s.recordBusError).obuf = s.obuf := rfl
@[simp] theorem State.recordBusError_phase : (s.recordBusError).phase = s.phase := rfl
@[simp] theorem State.recordBusError_faults : (s.recordBusError).faults = { s.faults with busError := true } := rfl
@[simp] theorem State.recordBusError_params : (s.recordBusError).params = s.params := rfl
@[simp] theorem State.recordBusError_host : (s.recordBusError).host = s.host := rfl
@[simp] theorem State.recordBusError_sched : (s.recordBusError).sched = s.sched := rfl
@[simp] theorem State.recordBusError_freeTurn : (s.recordBusError).freeTurn = s.freeTurn := rfl
@[simp] theorem State.recordBusError_freeCtr : (s.recordBusError).freeCtr = s.freeCtr := rfl

/-! ### recordUndefRead -/

@[simp] theorem State.recordUndefRead_irqEn : (s.recordUndefRead).irqEn = s.irqEn := rfl
@[simp] theorem State.recordUndefRead_done : (s.recordUndefRead).done = s.done := rfl
@[simp] theorem State.recordUndefRead_busywr : (s.recordUndefRead).busywr = s.busywr := rfl
@[simp] theorem State.recordUndefRead_errcode : (s.recordUndefRead).errcode = s.errcode := rfl
@[simp] theorem State.recordUndefRead_cmd : (s.recordUndefRead).cmd = s.cmd := rfl
@[simp] theorem State.recordUndefRead_ilen : (s.recordUndefRead).ilen = s.ilen := rfl
@[simp] theorem State.recordUndefRead_klen : (s.recordUndefRead).klen = s.klen := rfl
@[simp] theorem State.recordUndefRead_olen : (s.recordUndefRead).olen = s.olen := rfl
@[simp] theorem State.recordUndefRead_kbuf : (s.recordUndefRead).kbuf = s.kbuf := rfl
@[simp] theorem State.recordUndefRead_ibuf : (s.recordUndefRead).ibuf = s.ibuf := rfl
@[simp] theorem State.recordUndefRead_obuf : (s.recordUndefRead).obuf = s.obuf := rfl
@[simp] theorem State.recordUndefRead_phase : (s.recordUndefRead).phase = s.phase := rfl
@[simp] theorem State.recordUndefRead_faults : (s.recordUndefRead).faults = { s.faults with undefReadHost := true } :=
  rfl
@[simp] theorem State.recordUndefRead_params : (s.recordUndefRead).params = s.params := rfl
@[simp] theorem State.recordUndefRead_host : (s.recordUndefRead).host = s.host := rfl
@[simp] theorem State.recordUndefRead_sched : (s.recordUndefRead).sched = s.sched := rfl
@[simp] theorem State.recordUndefRead_freeTurn : (s.recordUndefRead).freeTurn = s.freeTurn := rfl
@[simp] theorem State.recordUndefRead_freeCtr : (s.recordUndefRead).freeCtr = s.freeCtr := rfl

/-! ### nextFree -/

@[simp] theorem State.nextFree_irqEn : (s.nextFree).irqEn = s.irqEn := rfl
@[simp] theorem State.nextFree_done : (s.nextFree).done = s.done := rfl
@[simp] theorem State.nextFree_busywr : (s.nextFree).busywr = s.busywr := rfl
@[simp] theorem State.nextFree_errcode : (s.nextFree).errcode = s.errcode := rfl
@[simp] theorem State.nextFree_cmd : (s.nextFree).cmd = s.cmd := rfl
@[simp] theorem State.nextFree_ilen : (s.nextFree).ilen = s.ilen := rfl
@[simp] theorem State.nextFree_klen : (s.nextFree).klen = s.klen := rfl
@[simp] theorem State.nextFree_olen : (s.nextFree).olen = s.olen := rfl
@[simp] theorem State.nextFree_kbuf : (s.nextFree).kbuf = s.kbuf := rfl
@[simp] theorem State.nextFree_ibuf : (s.nextFree).ibuf = s.ibuf := rfl
@[simp] theorem State.nextFree_obuf : (s.nextFree).obuf = s.obuf := rfl
@[simp] theorem State.nextFree_phase : (s.nextFree).phase = s.phase := rfl
@[simp] theorem State.nextFree_faults : (s.nextFree).faults = s.faults := rfl
@[simp] theorem State.nextFree_params : (s.nextFree).params = s.params := rfl
@[simp] theorem State.nextFree_host : (s.nextFree).host = s.host := rfl
@[simp] theorem State.nextFree_sched : (s.nextFree).sched = s.sched := rfl
@[simp] theorem State.nextFree_freeTurn : (s.nextFree).freeTurn = s.freeTurn := rfl
@[simp] theorem State.nextFree_freeCtr : (s.nextFree).freeCtr = s.freeCtr + 1 := rfl

/-! ### hostAdvance -/

@[simp] theorem State.hostAdvance_irqEn : (s.hostAdvance).irqEn = s.irqEn := rfl
@[simp] theorem State.hostAdvance_done : (s.hostAdvance).done = s.done := rfl
@[simp] theorem State.hostAdvance_busywr : (s.hostAdvance).busywr = s.busywr := rfl
@[simp] theorem State.hostAdvance_errcode : (s.hostAdvance).errcode = s.errcode := rfl
@[simp] theorem State.hostAdvance_cmd : (s.hostAdvance).cmd = s.cmd := rfl
@[simp] theorem State.hostAdvance_ilen : (s.hostAdvance).ilen = s.ilen := rfl
@[simp] theorem State.hostAdvance_klen : (s.hostAdvance).klen = s.klen := rfl
@[simp] theorem State.hostAdvance_olen : (s.hostAdvance).olen = s.olen := rfl
@[simp] theorem State.hostAdvance_kbuf : (s.hostAdvance).kbuf = s.kbuf := rfl
@[simp] theorem State.hostAdvance_ibuf : (s.hostAdvance).ibuf = s.ibuf := rfl
@[simp] theorem State.hostAdvance_obuf : (s.hostAdvance).obuf = s.obuf := rfl
@[simp] theorem State.hostAdvance_phase : (s.hostAdvance).phase = s.phase := rfl
@[simp] theorem State.hostAdvance_faults : (s.hostAdvance).faults = s.faults := rfl
@[simp] theorem State.hostAdvance_params : (s.hostAdvance).params = s.params := rfl
@[simp] theorem State.hostAdvance_host : (s.hostAdvance).host = s.host.advance := rfl
@[simp] theorem State.hostAdvance_sched : (s.hostAdvance).sched = s.sched := rfl
@[simp] theorem State.hostAdvance_freeTurn : (s.hostAdvance).freeTurn = s.freeTurn := rfl
@[simp] theorem State.hostAdvance_freeCtr : (s.hostAdvance).freeCtr = s.freeCtr := rfl

/-! ### hostBind -/

@[simp] theorem State.hostBind_irqEn (x : Nat) (v : Word) : (s.hostBind x v).irqEn = s.irqEn := rfl
@[simp] theorem State.hostBind_done (x : Nat) (v : Word) : (s.hostBind x v).done = s.done := rfl
@[simp] theorem State.hostBind_busywr (x : Nat) (v : Word) : (s.hostBind x v).busywr = s.busywr := rfl
@[simp] theorem State.hostBind_errcode (x : Nat) (v : Word) : (s.hostBind x v).errcode = s.errcode := rfl
@[simp] theorem State.hostBind_cmd (x : Nat) (v : Word) : (s.hostBind x v).cmd = s.cmd := rfl
@[simp] theorem State.hostBind_ilen (x : Nat) (v : Word) : (s.hostBind x v).ilen = s.ilen := rfl
@[simp] theorem State.hostBind_klen (x : Nat) (v : Word) : (s.hostBind x v).klen = s.klen := rfl
@[simp] theorem State.hostBind_olen (x : Nat) (v : Word) : (s.hostBind x v).olen = s.olen := rfl
@[simp] theorem State.hostBind_kbuf (x : Nat) (v : Word) : (s.hostBind x v).kbuf = s.kbuf := rfl
@[simp] theorem State.hostBind_ibuf (x : Nat) (v : Word) : (s.hostBind x v).ibuf = s.ibuf := rfl
@[simp] theorem State.hostBind_obuf (x : Nat) (v : Word) : (s.hostBind x v).obuf = s.obuf := rfl
@[simp] theorem State.hostBind_phase (x : Nat) (v : Word) : (s.hostBind x v).phase = s.phase := rfl
@[simp] theorem State.hostBind_faults (x : Nat) (v : Word) : (s.hostBind x v).faults = s.faults := rfl
@[simp] theorem State.hostBind_params (x : Nat) (v : Word) : (s.hostBind x v).params = s.params := rfl
@[simp] theorem State.hostBind_host (x : Nat) (v : Word) : (s.hostBind x v).host = (s.host.bind x v).advance := rfl
@[simp] theorem State.hostBind_sched (x : Nat) (v : Word) : (s.hostBind x v).sched = s.sched := rfl
@[simp] theorem State.hostBind_freeTurn (x : Nat) (v : Word) : (s.hostBind x v).freeTurn = s.freeTurn := rfl
@[simp] theorem State.hostBind_freeCtr (x : Nat) (v : Word) : (s.hostBind x v).freeCtr = s.freeCtr := rfl

/-! ### hostJump -/

@[simp] theorem State.hostJump_irqEn (line : Nat) : (s.hostJump line).irqEn = s.irqEn := rfl
@[simp] theorem State.hostJump_done (line : Nat) : (s.hostJump line).done = s.done := rfl
@[simp] theorem State.hostJump_busywr (line : Nat) : (s.hostJump line).busywr = s.busywr := rfl
@[simp] theorem State.hostJump_errcode (line : Nat) : (s.hostJump line).errcode = s.errcode := rfl
@[simp] theorem State.hostJump_cmd (line : Nat) : (s.hostJump line).cmd = s.cmd := rfl
@[simp] theorem State.hostJump_ilen (line : Nat) : (s.hostJump line).ilen = s.ilen := rfl
@[simp] theorem State.hostJump_klen (line : Nat) : (s.hostJump line).klen = s.klen := rfl
@[simp] theorem State.hostJump_olen (line : Nat) : (s.hostJump line).olen = s.olen := rfl
@[simp] theorem State.hostJump_kbuf (line : Nat) : (s.hostJump line).kbuf = s.kbuf := rfl
@[simp] theorem State.hostJump_ibuf (line : Nat) : (s.hostJump line).ibuf = s.ibuf := rfl
@[simp] theorem State.hostJump_obuf (line : Nat) : (s.hostJump line).obuf = s.obuf := rfl
@[simp] theorem State.hostJump_phase (line : Nat) : (s.hostJump line).phase = s.phase := rfl
@[simp] theorem State.hostJump_faults (line : Nat) : (s.hostJump line).faults = s.faults := rfl
@[simp] theorem State.hostJump_params (line : Nat) : (s.hostJump line).params = s.params := rfl
@[simp] theorem State.hostJump_host (line : Nat) : (s.hostJump line).host = { s.host with pc := line } := rfl
@[simp] theorem State.hostJump_sched (line : Nat) : (s.hostJump line).sched = s.sched := rfl
@[simp] theorem State.hostJump_freeTurn (line : Nat) : (s.hostJump line).freeTurn = s.freeTurn := rfl
@[simp] theorem State.hostJump_freeCtr (line : Nat) : (s.hostJump line).freeCtr = s.freeCtr := rfl

/-! ### placeCommand -/

@[simp] theorem State.placeCommand_irqEn (w : Word) : (s.placeCommand w).irqEn = s.irqEn := rfl
@[simp] theorem State.placeCommand_done (w : Word) : (s.placeCommand w).done = false := rfl
@[simp] theorem State.placeCommand_busywr (w : Word) : (s.placeCommand w).busywr = s.busywr := rfl
@[simp] theorem State.placeCommand_errcode (w : Word) : (s.placeCommand w).errcode = .ok := rfl
@[simp] theorem State.placeCommand_cmd (w : Word) : (s.placeCommand w).cmd = w := rfl
@[simp] theorem State.placeCommand_ilen (w : Word) : (s.placeCommand w).ilen = s.ilen := rfl
@[simp] theorem State.placeCommand_klen (w : Word) : (s.placeCommand w).klen = s.klen := rfl
@[simp] theorem State.placeCommand_olen (w : Word) : (s.placeCommand w).olen = 0#32 := rfl
@[simp] theorem State.placeCommand_kbuf (w : Word) : (s.placeCommand w).kbuf = s.kbuf := rfl
@[simp] theorem State.placeCommand_ibuf (w : Word) : (s.placeCommand w).ibuf = s.ibuf := rfl
@[simp] theorem State.placeCommand_obuf (w : Word) : (s.placeCommand w).obuf = s.obuf := rfl
@[simp] theorem State.placeCommand_phase (w : Word) : (s.placeCommand w).phase = .busy (s.snapshotWith w) := rfl
@[simp] theorem State.placeCommand_faults (w : Word) : (s.placeCommand w).faults = s.faults := rfl
@[simp] theorem State.placeCommand_params (w : Word) : (s.placeCommand w).params = s.params := rfl
@[simp] theorem State.placeCommand_host (w : Word) : (s.placeCommand w).host = s.host := rfl
@[simp] theorem State.placeCommand_sched (w : Word) : (s.placeCommand w).sched = .engine :: s.sched := rfl
@[simp] theorem State.placeCommand_freeTurn (w : Word) : (s.placeCommand w).freeTurn = s.freeTurn := rfl
@[simp] theorem State.placeCommand_freeCtr (w : Word) : (s.placeCommand w).freeCtr = s.freeCtr := rfl

/-! ### withTurns -/

@[simp] theorem State.withTurns_irqEn (l : List Agent) (f : Option Nat) : (s.withTurns l f).irqEn = s.irqEn := rfl
@[simp] theorem State.withTurns_done (l : List Agent) (f : Option Nat) : (s.withTurns l f).done = s.done := rfl
@[simp] theorem State.withTurns_busywr (l : List Agent) (f : Option Nat) : (s.withTurns l f).busywr = s.busywr := rfl
@[simp] theorem State.withTurns_errcode (l : List Agent) (f : Option Nat) : (s.withTurns l f).errcode = s.errcode :=
  rfl
@[simp] theorem State.withTurns_cmd (l : List Agent) (f : Option Nat) : (s.withTurns l f).cmd = s.cmd := rfl
@[simp] theorem State.withTurns_ilen (l : List Agent) (f : Option Nat) : (s.withTurns l f).ilen = s.ilen := rfl
@[simp] theorem State.withTurns_klen (l : List Agent) (f : Option Nat) : (s.withTurns l f).klen = s.klen := rfl
@[simp] theorem State.withTurns_olen (l : List Agent) (f : Option Nat) : (s.withTurns l f).olen = s.olen := rfl
@[simp] theorem State.withTurns_kbuf (l : List Agent) (f : Option Nat) : (s.withTurns l f).kbuf = s.kbuf := rfl
@[simp] theorem State.withTurns_ibuf (l : List Agent) (f : Option Nat) : (s.withTurns l f).ibuf = s.ibuf := rfl
@[simp] theorem State.withTurns_obuf (l : List Agent) (f : Option Nat) : (s.withTurns l f).obuf = s.obuf := rfl
@[simp] theorem State.withTurns_phase (l : List Agent) (f : Option Nat) : (s.withTurns l f).phase = s.phase := rfl
@[simp] theorem State.withTurns_faults (l : List Agent) (f : Option Nat) : (s.withTurns l f).faults = s.faults := rfl
@[simp] theorem State.withTurns_params (l : List Agent) (f : Option Nat) : (s.withTurns l f).params = s.params := rfl
@[simp] theorem State.withTurns_host (l : List Agent) (f : Option Nat) : (s.withTurns l f).host = s.host := rfl
@[simp] theorem State.withTurns_sched (l : List Agent) (f : Option Nat) : (s.withTurns l f).sched = l := rfl
@[simp] theorem State.withTurns_freeTurn (l : List Agent) (f : Option Nat) : (s.withTurns l f).freeTurn = f := rfl
@[simp] theorem State.withTurns_freeCtr (l : List Agent) (f : Option Nat) : (s.withTurns l f).freeCtr = s.freeCtr :=
  rfl

/-! ### The completions, through the one update they share -/

@[simp] theorem State.completeNoData_eq : s.completeNoData = s.completeWith .ok 0#32 s.obuf := rfl

@[simp] theorem State.completeOk_eq (out : List Byte) :
    s.completeOk out = s.completeWith .ok (BitVec.ofNat 32 out.length) (Memory.ofBytes out) := rfl

@[simp] theorem State.completeFail_eq (c : ErrCode) :
    s.completeFail c = s.completeWith c 0#32 (if c.keepsObuf then s.obuf else []) := rfl

/-! ### completeUndef -/

@[simp] theorem State.completeUndef_irqEn (l : List ErrCode) : (s.completeUndef l).irqEn = s.irqEn := rfl
@[simp] theorem State.completeUndef_done (l : List ErrCode) : (s.completeUndef l).done = true := rfl
@[simp] theorem State.completeUndef_busywr (l : List ErrCode) : (s.completeUndef l).busywr = s.busywr := rfl
@[simp] theorem State.completeUndef_errcode (l : List ErrCode) : (s.completeUndef l).errcode =
    pickCode l s.freeCtr := rfl
@[simp] theorem State.completeUndef_cmd (l : List ErrCode) : (s.completeUndef l).cmd = s.cmd := rfl
@[simp] theorem State.completeUndef_ilen (l : List ErrCode) : (s.completeUndef l).ilen = s.ilen := rfl
@[simp] theorem State.completeUndef_klen (l : List ErrCode) : (s.completeUndef l).klen = s.klen := rfl
@[simp] theorem State.completeUndef_olen (l : List ErrCode) : (s.completeUndef l).olen =
    (if pickCode l s.freeCtr = .ok then pickOlen s.params.obufBytes s.freeCtr else 0#32) := rfl
@[simp] theorem State.completeUndef_kbuf (l : List ErrCode) : (s.completeUndef l).kbuf = s.kbuf := rfl
@[simp] theorem State.completeUndef_ibuf (l : List ErrCode) : (s.completeUndef l).ibuf = s.ibuf := rfl
@[simp] theorem State.completeUndef_obuf (l : List ErrCode) : (s.completeUndef l).obuf = [] := rfl
@[simp] theorem State.completeUndef_phase (l : List ErrCode) : (s.completeUndef l).phase = .idle := rfl
@[simp] theorem State.completeUndef_faults (l : List ErrCode) : (s.completeUndef l).faults =
    { s.faults with undefReadEngine := true } := rfl
@[simp] theorem State.completeUndef_params (l : List ErrCode) : (s.completeUndef l).params = s.params := rfl
@[simp] theorem State.completeUndef_host (l : List ErrCode) : (s.completeUndef l).host = s.host := rfl
@[simp] theorem State.completeUndef_sched (l : List ErrCode) : (s.completeUndef l).sched = s.sched := rfl
@[simp] theorem State.completeUndef_freeTurn (l : List ErrCode) : (s.completeUndef l).freeTurn = s.freeTurn := rfl
@[simp] theorem State.completeUndef_freeCtr (l : List ErrCode) : (s.completeUndef l).freeCtr = s.freeCtr + 1 := rfl

/-! ### The functions of the record -/

@[simp] theorem Phase.isBusy_idle : Phase.idle.isBusy = false := rfl
@[simp] theorem Phase.isBusy_busy (snap : Snapshot) : (Phase.busy snap).isBusy = true := rfl

theorem State.isBusy_of_idle {s : State} (h : s.phase = .idle) : s.isBusy = false := by simp [State.isBusy, h]

theorem State.isBusy_of_busy {s : State} {snap : Snapshot} (h : s.phase = .busy snap) : s.isBusy = true := by
  simp [State.isBusy, h]

theorem State.isBusy_cases (s : State) :
    (s.isBusy = false ∧ s.phase = .idle) ∨ ∃ snap, s.isBusy = true ∧ s.phase = .busy snap := by
  cases h : s.phase with
  | idle => exact .inl ⟨State.isBusy_of_idle h, rfl⟩
  | busy snap => exact .inr ⟨snap, State.isBusy_of_busy h, rfl⟩

end Sys2Proof.Machine
end

