-- ==== Sys2Proof/Laws/Operands.lean ====
section
/-! SUPPORT. Reading operands: on defined bytes every demand-driven reading agrees with the plain function on
byte strings. -/

namespace Sys2Proof.Machine

@[simp] theorem body_pure_bind {α β : Type} (a : α) (f : α → Body β) : (Except.ok a >>= f) = f a := rfl

@[simp] theorem body_error_bind {α β : Type} (e : Stop) (f : α → Body β) :
    ((Except.error e : Body α) >>= f) = Except.error e := rfl

@[simp] theorem demand_some (b : Byte) : demand (some b) = .ok b := rfl

@[simp] theorem demand_none : demand none = .error .undefRead := rfl

@[simp] theorem demandAll_map_some (d : List Byte) : demandAll (d.map some) = .ok d := by
  induction d with
  | nil => rfl
  | cons b bs ih =>
    simp only [List.map_cons, demandAll, demand_some, body_pure_bind, ih]
    rfl

/-- Reading every byte of an operand succeeds only on defined bytes. -/
theorem demandAll_ok {cs : List (Option Byte)} {d : List Byte} (h : demandAll cs = .ok d) : cs = d.map some := by
  induction cs generalizing d with
  | nil =>
    obtain rfl : [] = d := Except.ok.inj h
    rfl
  | cons c cs ih =>
    cases c with
    | none => simp [demandAll] at h
    | some b =>
      cases hr : demandAll cs with
      | error e => simp [demandAll, hr] at h
      | ok bs =>
        simp only [demandAll, hr, demand_some, body_pure_bind] at h
        obtain rfl : b :: bs = d := Except.ok.inj h
        simp [ih hr]

/-- Reading every byte of an operand that holds a POISON byte is an undefined read. -/
theorem demandAll_undef {cs : List (Option Byte)} (h : none ∈ cs) : demandAll cs = .error .undefRead := by
  induction cs with
  | nil => cases h
  | cons c cs ih =>
    cases c with
    | none => rfl
    | some b =>
      have h' : none ∈ cs := by simpa using h
      simp [demandAll, ih h']

theorem demandEqual_map_some (p : Byte) (d : List Byte) :
    demandEqual p (d.map some) = if d.all (· == p) then .ok () else failWith .paddingError := by
  induction d with
  | nil => rfl
  | cons b bs ih =>
    by_cases h : b = p <;> simp [demandEqual, ih, h]

/-- `unpad` over an operand of defined bytes is `unpad` of them. -/
theorem unpadOperand_map_some (d : List Byte) : unpadOperand (d.map some) = unpad d := by
  unfold unpadOperand unpad
  rw [List.getLast?_map]
  cases d.getLast? with
  | none => rfl
  | some p =>
    simp only [Option.map_some, demand_some, body_pure_bind, List.length_map]
    by_cases h₁ : padByteInRange p
    · by_cases h₂ : d.length < p.toNat
      · simp only [h₁, h₂, not_true, if_false, if_true]
      · by_cases h₃ : (d.drop (d.length - p.toNat)).all (· == p)
        · simp only [h₁, h₂, h₃, not_true, if_false, if_true, ← List.map_drop, ← List.map_take, demandEqual_map_some,
            demandAll_map_some, body_pure_bind]
        · simp only [h₁, h₂, h₃, not_true, if_false, ← List.map_drop, demandEqual_map_some]
          rfl
    · rw [if_pos h₁, if_pos h₁]

theorem keyedLanes_map_some (f : Byte → Byte → Byte) (b : List Byte) (k : List (Option Byte)) (key : List Byte)
    (i : Nat) (h : ∀ j, i ≤ j → j < i + b.length → k.getD (j % k.length) none = some (key.getD j 0#8)) :
    keyedLanes f k i (b.map some) = .ok ((b.zipIdx i).map fun p => f p.1 (key.getD p.2 0#8)) := by
  induction b generalizing i with
  | nil => rfl
  | cons x xs ih =>
    have h₀ := h i le_rfl (by simp)
    have h₁ := ih (i + 1) fun j hj hj' => h j (by omega) (by simp; omega)
    simp only [List.map_cons, keyedLanes, demand_some, body_pure_bind, h₀, h₁, List.zipIdx_cons]
    rfl

theorem demandHexvals_map_some (c : ErrCode) (t : List Byte) :
    demandHexvals c (t.map some) = match hexvals t with
      | none => failWith c
      | some vs => .ok vs := by
  induction t with
  | nil => rfl
  | cons b bs ih =>
    simp only [List.map_cons, demandHexvals, demand_some, body_pure_bind, ih, hexvals]
    cases hexval b with
    | none => rfl
    | some v => cases hexvals bs <;> rfl

/-- `hexdec` over an operand of defined bytes is `hexdec` of them. -/
theorem hexdecOperand_map_some (c : ErrCode) (t : List Byte) : hexdecOperand c (t.map some) = hexdecOr c t := by
  unfold hexdecOperand hexdecOr hexdec
  rw [List.length_map, demandHexvals_map_some]
  split_ifs with h
  · rfl
  · cases hexvals t with
    | none => rfl
    | some vs => rfl

/-- `keydec` over an operand of defined bytes is `keydec` of them. -/
theorem keydecOperand_map_some (t : List Byte) : keydecOperand (t.map some) = keydec t := by
  unfold keydecOperand keydec
  rw [hexdecOperand_map_some]

end Sys2Proof.Machine
end

