-- ==== Sys2Proof/Laws/Completion.lean ====
section
/-! SUPPORT. What a completion can do: one spec lemma for `exec` on a running command, its inversion, its frame,
and the codes and lengths a body can give. -/

namespace Sys2Proof.Machine

/-! ### One equation for the thirteen meanings -/

/-- The body of each command with its common checks, `exec(snap)` of 40_lifecycle.md R406. -/
def commandBody (p : Params) (i : Instr) (snap : Snapshot) : Body Result :=
  match i with
  | .nop => .ok .noData
  | .pad => do
    capacityCheck p .pad snap
    let d ← demandAll snap.input
    return .data (pad d)
  | .unpad => do
    capacityCheck p .unpad snap
    let d ← unpadOperand snap.input
    return .data d
  | .xform => do
    capacityCheck p .xform snap
    blockBody forwardByte snap
  | .ixform => do
    capacityCheck p .ixform snap
    blockBody inverseByte snap
  | .hexenc => do
    capacityCheck p .hexenc snap
    let d ← demandAll snap.input
    return .data (hexenc d)
  | .hexdec => do
    capacityCheck p .hexdec snap
    let r ← hexdecOperand .invalidCiphertextEncoding snap.input
    return .data r
  | .keydec => do
    capacityCheck p .keydec snap
    let key ← keydecOperand snap.key
    return .data key
  | .encrypt => do
    capacityCheck p .encrypt snap
    let key ← keydecOperand snap.key
    let d ← demandAll snap.input
    let out ← encryptWith key d
    return .data out
  | .decrypt => do
    capacityCheck p .decrypt snap
    let key ← keydecOperand snap.key
    let t ← demandAll snap.input
    let out ← decryptWith key t
    return .data out
  | .illegalAB _ => failWith .illegalCommand
  | .illegalCF _ => failWith .illegalCommand
  | .illegalRsv _ _ => failWith .illegalCommand

theorem exec_eq_runCommand (i : Instr) (s : State) :
    exec i s = runCommand s (allowedCodes i) (commandBody s.params i) := by
  cases i <;> rfl

/-- A command runs exactly while the phase is BUSY, and its completion is that of its body on the snapshot. -/
theorem exec_busy {s : State} {snap : Snapshot} (h : s.phase = .busy snap) (i : Instr) :
    exec i s = .next (s.complete (allowedCodes i) (commandBody s.params i snap)) := by
  rw [exec_eq_runCommand, runCommand, h]

theorem exec_idle {s : State} (h : s.phase = .idle) (i : Instr) : exec i s = .fault .completionNotEnabled := by
  rw [exec_eq_runCommand, runCommand, h]

/-- If a command's meaning answers a next state, that state is its completion. -/
theorem exec_next {i : Instr} {s t : State} (h : exec i s = .next t) :
    ∃ snap, s.phase = .busy snap ∧ t = s.complete (allowedCodes i) (commandBody s.params i snap) := by
  cases hp : s.phase with
  | idle => rw [exec_idle hp] at h; cases h
  | busy snap =>
    rw [exec_busy hp] at h
    exact ⟨snap, rfl, (Host.Outcome.next.inj h).symm⟩

/-! ### What a completion leaves -/

theorem State.complete_keepsInputs (s : State) (l : List ErrCode) (r : Body Result) :
    s.KeepsInputs (s.complete l r) := by
  rcases r with (c | _) | (_ | out) <;> simp [State.complete, State.KeepsInputs]

@[simp] theorem State.complete_phase (s : State) (l : List ErrCode) (r : Body Result) :
    (s.complete l r).phase = .idle := by
  rcases r with (c | _) | (_ | out) <;> simp [State.complete]

@[simp] theorem State.complete_done (s : State) (l : List ErrCode) (r : Body Result) :
    (s.complete l r).done = true := by
  rcases r with (c | _) | (_ | out) <;> simp [State.complete]

/-- A body that gives bytes which fit OBUF makes the command succeed with them. -/
theorem succeeds_of_body {i : Instr} {s : State} {snap : Snapshot} {out : List Byte} (hp : s.phase = .busy snap)
    (hl : out.length < 2 ^ 32) (hb : commandBody s.params i snap = .ok (.data out)) : Succeeds i s out := by
  refine ⟨_, exec_busy hp i, ?_⟩
  have hk := s.complete_keepsInputs (allowedCodes i) (.ok (.data out))
  rw [hb]
  refine ⟨rfl, ?_, fun k => Memory.get_ofBytes out k, rfl, rfl, hk, rfl, rfl⟩
  simp only [State.complete, State.completeOk_eq, State.completeWith_olen, BitVec.toNat_ofNat]
  exact Nat.mod_eq_of_lt hl

/-- A body that raises an error makes the command fail with it. -/
theorem failsWith_of_body {i : Instr} {s : State} {snap : Snapshot} {c : ErrCode} (hp : s.phase = .busy snap)
    (hb : commandBody s.params i snap = .error (.fail c)) : FailsWith i s c := by
  refine ⟨_, exec_busy hp i, ?_⟩
  have hk := s.complete_keepsInputs (allowedCodes i) (.error (.fail c))
  rw [hb]
  refine ⟨rfl, rfl, fun k => ?_, rfl, rfl, hk, rfl, rfl⟩
  simp only [State.complete, State.completeFail_eq, State.completeWith_obuf]
  cases c <;> simp [ErrCode.keepsObuf]

/-! ### The checks that come before a body -/

/-- The three capacity checks pass exactly when each length the command reads, and its output, fits. -/
theorem overCapacity_eq_false {p : Params} {i : Instr} {a b : Nat} :
    overCapacity p i a b = false ↔
      (readsIlen i = true → a ≤ p.ibufBytes) ∧ (readsKlen i = true → b ≤ p.kbufBytes) ∧ outlen i a ≤ p.obufBytes := by
  unfold overCapacity
  cases readsIlen i <;> cases readsKlen i <;> simp <;> omega

theorem capacityCheck_ok {p : Params} {i : Instr} {snap : Snapshot}
    (h : overCapacity p i snap.ilen.toNat snap.klen.toNat = false) : capacityCheck p i snap = .ok () := by
  simp [capacityCheck, h]

theorem capacityCheck_over {p : Params} {i : Instr} {snap : Snapshot}
    (h : overCapacity p i snap.ilen.toNat snap.klen.toNat = true) :
    capacityCheck p i snap = failWith .capacityError := by
  simp [capacityCheck, h]

/-- Where a capacity check fails, the body is CapacityError, whatever the command. -/
theorem commandBody_over {p : Params} {i : Instr} {snap : Snapshot}
    (h : overCapacity p i snap.ilen.toNat snap.klen.toNat = true) :
    commandBody p i snap = failWith .capacityError := by
  cases i <;> first
    | (simp only [commandBody, capacityCheck_over h]; rfl)
    | simp [overCapacity, readsIlen, readsKlen, outlen] at h

theorem inputIs_length {snap : Snapshot} {d : List Byte} (h : snap.InputIs d) : d.length = snap.ilen.toNat := by
  have := congrArg List.length h
  simpa [Snapshot.input] using this.symm

theorem keyIs_length {snap : Snapshot} {k : List Byte} (h : snap.KeyIs k) : k.length = snap.klen.toNat := by
  have := congrArg List.length h
  simpa [Snapshot.key] using this.symm

/-- A command whose body is `r` completes as `r`, if `r` reads no POISON byte and gives fewer than 2^32 bytes. -/
theorem completesAs_of_body {i : Instr} {s : State} {snap : Snapshot} {r : Body (List Byte)}
    (hp : s.phase = .busy snap) (hl : ∀ out, r = .ok out → out.length < 2 ^ 32) (hu : r ≠ .error .undefRead)
    (hb : commandBody s.params i snap = (do let out ← r; return .data out)) : CompletesAs i s r := by
  rcases r with (c | _) | out
  · exact failsWith_of_body hp hb
  · exact absurd rfl hu
  · exact succeeds_of_body hp (hl out rfl) hb

/-! ### The codes a body can raise, and the lengths it can give -/

/-- Whatever error a body raises is one of `l`. -/
def Body.RaisesIn {α : Type} (r : Body α) (l : List ErrCode) : Prop := ∀ c, r = .error (.fail c) → c ∈ l

/-- Whatever bytes a body gives are at most `n`. -/
def Body.Within (r : Body (List Byte)) (n : Nat) : Prop := ∀ out, r = .ok out → out.length ≤ n

theorem raisesIn_ok {α : Type} (a : α) (l : List ErrCode) : Body.RaisesIn (.ok a) l := by intro c h; cases h

theorem raisesIn_fail {α : Type} {c : ErrCode} {l : List ErrCode} (h : c ∈ l) :
    Body.RaisesIn (failWith c : Body α) l := by
  intro c' h'
  cases h'
  exact h

theorem raisesIn_undef {α : Type} (l : List ErrCode) : Body.RaisesIn (.error .undefRead : Body α) l := by
  intro c h
  cases h

theorem raisesIn_bind {α β : Type} {r : Body α} {f : α → Body β} {l : List ErrCode} (hr : Body.RaisesIn r l)
    (hf : ∀ a, Body.RaisesIn (f a) l) : Body.RaisesIn (r >>= f) l := by
  intro c h
  rcases r with e | a
  · exact hr c (by simpa using h)
  · exact hf a c h

theorem raisesIn_mono {α : Type} {r : Body α} {l l' : List ErrCode} (hr : Body.RaisesIn r l) (h : l ⊆ l') :
    Body.RaisesIn r l' := fun c hc => h (hr c hc)

theorem demand_raises (x : Option Byte) : Body.RaisesIn (demand x) [] := by
  cases x with
  | none => exact raisesIn_undef []
  | some b => exact raisesIn_ok b []

theorem demandAll_raises (cs : List (Option Byte)) : Body.RaisesIn (demandAll cs) [] := by
  induction cs with
  | nil => exact raisesIn_ok _ _
  | cons c cs ih => exact raisesIn_bind (demand_raises c) fun _ => raisesIn_bind ih fun _ => raisesIn_ok _ _

theorem capacityCheck_raises (p : Params) (i : Instr) (snap : Snapshot) :
    Body.RaisesIn (capacityCheck p i snap) [.capacityError] := by
  unfold capacityCheck
  split_ifs
  · exact raisesIn_fail (by simp)
  · exact raisesIn_ok _ _

theorem demandEqual_raises (p : Byte) (cs : List (Option Byte)) :
    Body.RaisesIn (demandEqual p cs) [.paddingError] := by
  induction cs with
  | nil => exact raisesIn_ok _ _
  | cons c cs ih =>
    refine raisesIn_bind (raisesIn_mono (demand_raises c) (by simp)) fun b => ?_
    split_ifs
    · exact ih
    · exact raisesIn_fail (by simp)

theorem unpadOperand_raises (cs : List (Option Byte)) : Body.RaisesIn (unpadOperand cs) [.paddingError] := by
  unfold unpadOperand
  split
  · exact raisesIn_fail (by simp)
  · refine raisesIn_bind (raisesIn_mono (demand_raises _) (by simp)) fun p => ?_
    split_ifs
    · exact raisesIn_fail (by simp)
    · exact raisesIn_bind (demandEqual_raises p _) fun _ => raisesIn_mono (demandAll_raises _) (by simp)
    · exact raisesIn_fail (by simp)

theorem unpad_raises (d : List Byte) : Body.RaisesIn (unpad d) [.paddingError] := by
  rw [← unpadOperand_map_some]
  exact unpadOperand_raises _

theorem keyedLanes_raises (f : Byte → Byte → Byte) (k b : List (Option Byte)) (i : Nat) :
    Body.RaisesIn (keyedLanes f k i b) [] := by
  induction b generalizing i with
  | nil => exact raisesIn_ok _ _
  | cons c cs ih =>
    exact raisesIn_bind (demand_raises _) fun _ => raisesIn_bind (demand_raises _) fun _ =>
      raisesIn_bind (ih _) fun _ => raisesIn_ok _ _

theorem blockBody_raises (f : Byte → Byte → Byte) (snap : Snapshot) :
    Body.RaisesIn (blockBody f snap) [.keyTooShortError, .invalidBlockSize] := by
  unfold blockBody keyedBlockOperand
  split_ifs
  · exact raisesIn_fail (by simp)
  · exact raisesIn_bind (raisesIn_fail (by simp)) fun _ => raisesIn_ok _ _
  · exact raisesIn_bind (raisesIn_mono (keyedLanes_raises f _ _ _) (by simp)) fun _ => raisesIn_ok _ _

theorem keyedBlock_raises (f : Byte → Byte → Byte) {b k : List Byte} (h : b.length ≤ k.length) :
    Body.RaisesIn (keyedBlock f b k) [] := by
  unfold keyedBlock
  rw [if_neg (by omega)]
  exact raisesIn_ok _ _

theorem demandHexvals_raises (c : ErrCode) (cs : List (Option Byte)) :
    Body.RaisesIn (demandHexvals c cs) [c] := by
  induction cs with
  | nil => exact raisesIn_ok _ _
  | cons x xs ih =>
    refine raisesIn_bind (raisesIn_mono (demand_raises x) (by simp)) fun b => ?_
    split
    · exact raisesIn_fail (by simp)
    · exact raisesIn_bind ih fun _ => raisesIn_ok _ _

theorem hexdecOperand_raises (c : ErrCode) (cs : List (Option Byte)) :
    Body.RaisesIn (hexdecOperand c cs) [c] := by
  unfold hexdecOperand
  split_ifs
  · exact raisesIn_fail (by simp)
  · exact raisesIn_bind (demandHexvals_raises c cs) fun _ => raisesIn_ok _ _

theorem hexdecOr_raises (c : ErrCode) (t : List Byte) : Body.RaisesIn (hexdecOr c t) [c] := by
  rw [← hexdecOperand_map_some]
  exact hexdecOperand_raises c _

theorem keydecOperand_raises (cs : List (Option Byte)) :
    Body.RaisesIn (keydecOperand cs) [.invalidKeyFormat, .invalidKeyLength] := by
  refine raisesIn_bind (raisesIn_mono (hexdecOperand_raises _ cs) (by simp)) fun r => ?_
  unfold checkKeyLength
  split_ifs
  · exact raisesIn_fail (by simp)
  · exact raisesIn_ok _ _

theorem eachInOrder_raises {α : Type} {f : α → Body (List Byte)} {l : List ErrCode} {as : List α}
    (h : ∀ a ∈ as, Body.RaisesIn (f a) l) : Body.RaisesIn (eachInOrder f as) l := by
  induction as with
  | nil => exact raisesIn_ok _ _
  | cons a as ih =>
    exact raisesIn_bind (h a List.mem_cons_self) fun _ =>
      raisesIn_bind (ih fun b hb => h b (List.mem_cons_of_mem _ hb)) fun _ => raisesIn_ok _ _

end Sys2Proof.Machine
end

