-- ==== Sys2Proof/Laws/Codec.lean ====
section
/-! SUPPORT. Closed forms and lengths of the codec's functions, and from them what every command body can give. -/

namespace Sys2Proof.Machine

/-! ### Running a body over a list -/

theorem eachInOrder_ok {α : Type} {f : α → Body (List Byte)} {g : α → List Byte} {as : List α}
    (h : ∀ a ∈ as, f a = .ok (g a)) : eachInOrder f as = .ok (as.map g) := by
  induction as with
  | nil => rfl
  | cons a as ih =>
    rw [eachInOrder, h a List.mem_cons_self, ih fun b hb => h b (List.mem_cons_of_mem _ hb)]
    rfl

/-- If a body ran over a list to the end, it gave one result for each element, in order. -/
theorem eachInOrder_inv {α : Type} {f : α → Body (List Byte)} {as : List α} {rs : List (List Byte)}
    (h : eachInOrder f as = .ok rs) : List.Forall₂ (fun a r => f a = .ok r) as rs := by
  induction as generalizing rs with
  | nil =>
    obtain rfl : [] = rs := Except.ok.inj h
    exact List.Forall₂.nil
  | cons a as ih =>
    rw [eachInOrder] at h
    cases ha : f a with
    | error e => rw [ha] at h; cases h
    | ok r =>
      cases has : eachInOrder f as with
      | error e => rw [ha, has] at h; cases h
      | ok rs' =>
        rw [ha, has] at h
        obtain rfl : r :: rs' = rs := Except.ok.inj h
        exact List.Forall₂.cons ha (ih has)

/-! ### Padding -/

theorem padLength_pos (n : Nat) : 1 ≤ padLength n := by
  unfold padLength Config.block
  omega

theorem padLength_le (n : Nat) : padLength n ≤ 16 := by
  unfold padLength Config.block
  omega

theorem pad_length (d : List Byte) : (pad d).length = 16 * (d.length / 16 + 1) := by
  simp only [pad, padLength, Config.block, List.length_append, List.length_replicate]
  omega

theorem unpad_length {d p : List Byte} (h : unpad d = .ok p) : p.length ≤ d.length := by
  unfold unpad at h
  split at h
  · cases h
  · split_ifs at h
    · cases h
    · obtain rfl := Except.ok.inj h
      simp
    · cases h
    · cases h

/-! ### Blocks -/

theorem blocks_length (x : List Byte) : (blocks x).length = x.length / 16 := by simp [blocks]

theorem length_of_mem_blocks {x b : List Byte} (h : b ∈ blocks x) : b.length = 16 := by
  obtain ⟨j, hj, rfl⟩ := List.mem_map.mp h
  have hj' : j < x.length / 16 := List.mem_range.mp hj
  rw [List.length_take, List.length_drop]
  show min 16 (x.length - 16 * j) = 16
  omega

theorem zipIdx_map_getD (f : Byte → Byte → Byte) (b k : List Byte) (i : Nat) (h : i + b.length ≤ k.length) :
    (b.zipIdx i).map (fun p => f p.1 (k.getD (p.2 % k.length) 0#8)) = List.zipWith f b (k.drop i) := by
  induction b generalizing i with
  | nil => simp
  | cons x xs ih =>
    rw [List.length_cons] at h
    rw [List.zipIdx_cons, List.map_cons, ih (i + 1) (by omega), List.drop_eq_getElem_cons (show i < k.length by omega),
      List.zipWith_cons_cons, Nat.mod_eq_of_lt (show i < k.length by omega)]
    simp [show i < k.length by omega]

/-- Where the guard passes, a block function combines each byte with the key byte at its place (42_transform.md
R445). -/
theorem keyedBlock_eq (f : Byte → Byte → Byte) {b k : List Byte} (h : b.length ≤ k.length) :
    keyedBlock f b k = .ok (List.zipWith f b k) := by
  unfold keyedBlock
  rw [if_neg (by omega), zipIdx_map_getD f b k 0 (by omega), List.drop_zero]

/-- The guard of R443 and R444 passes for every block of the pipeline, so `encrypt` gives the text in one
expression (44_codec.md R489). -/
theorem encryptWith_eq {key : List Byte} (h : 16 ≤ key.length) (d : List Byte) :
    encryptWith key d = .ok (cipherText key d) := by
  unfold encryptWith cipherText
  rw [eachInOrder_ok (g := fun b => List.zipWith forwardByte b key)]
  · simp [List.map_map, Function.comp_def]
  · intro b hb
    exact keyedBlock_eq forwardByte (by rw [length_of_mem_blocks hb]; exact h)

/-! ### Hex -/

@[simp] theorem hexenc_length (s : List Byte) : (hexenc s).length = 2 * s.length := by
  induction s with
  | nil => rfl
  | cons b bs ih =>
    have : hexenc (b :: bs) = hexDigit (b >>> 4) :: hexDigit (b &&& 0x0F#8) :: hexenc bs := rfl
    rw [this, List.length_cons, List.length_cons, ih, List.length_cons]
    omega

theorem hexvals_length {t vs : List Byte} (h : hexvals t = some vs) : vs.length = t.length := by
  induction t generalizing vs with
  | nil =>
    obtain rfl : [] = vs := Option.some.inj h
    rfl
  | cons c cs ih =>
    rw [hexvals] at h
    cases hc : hexval c with
    | none => rw [hc] at h; cases h
    | some v =>
      rw [hc] at h
      obtain ⟨us, hu, rfl⟩ := Option.map_eq_some_iff.mp h
      simp [ih hu]

theorem pairDigits_length (vs : List Byte) : (pairDigits vs).length = vs.length / 2 := by
  induction vs using pairDigits.induct with
  | case1 a b rest ih =>
    rw [pairDigits, List.length_cons, ih, List.length_cons, List.length_cons]
    omega
  | case2 vs h =>
    match vs with
    | [] => rfl
    | [x] => simp [pairDigits]
    | a :: b :: r => exact absurd rfl (h a b r)

theorem hexdec_length {t r : List Byte} (h : hexdec t = some r) : t.length = 2 * r.length := by
  unfold hexdec at h
  split_ifs at h with hodd
  obtain ⟨vs, hv, rfl⟩ := Option.map_eq_some_iff.mp h
  rw [pairDigits_length, hexvals_length hv]
  omega

theorem hexdecOr_ok {c : ErrCode} {t r : List Byte} (h : hexdecOr c t = .ok r) : hexdec t = some r := by
  unfold hexdecOr at h
  split at h
  · cases h
  · next hr => rw [hr, Except.ok.inj h]

theorem demandHexvals_length {c : ErrCode} {cs : List (Option Byte)} {vs : List Byte}
    (h : demandHexvals c cs = .ok vs) : vs.length = cs.length := by
  induction cs generalizing vs with
  | nil =>
    obtain rfl : [] = vs := Except.ok.inj h
    rfl
  | cons x xs ih =>
    rw [demandHexvals] at h
    cases x with
    | none => cases h
    | some b =>
      rw [demand_some, body_pure_bind] at h
      split at h
      · cases h
      · cases hr : demandHexvals c xs with
        | error e => rw [hr] at h; cases h
        | ok us =>
          rw [hr] at h
          obtain rfl := Except.ok.inj h
          simp [ih hr]

theorem hexdecOperand_length {c : ErrCode} {cs : List (Option Byte)} {r : List Byte}
    (h : hexdecOperand c cs = .ok r) : cs.length = 2 * r.length := by
  unfold hexdecOperand at h
  split_ifs at h with hodd
  · cases h
  · cases hv : demandHexvals c cs with
    | error e => rw [hv] at h; cases h
    | ok vs =>
      rw [hv] at h
      obtain rfl := Except.ok.inj h
      rw [pairDigits_length, demandHexvals_length hv]
      omega

/-- The key decoder gives 32 bytes or no result (43_hex.md R462). -/
theorem keydecOperand_length {cs : List (Option Byte)} {key : List Byte} (h : keydecOperand cs = .ok key) :
    key.length = 32 := by
  unfold keydecOperand at h
  cases hr : hexdecOperand .invalidKeyFormat cs with
  | error e => rw [hr] at h; cases h
  | ok r =>
    rw [hr, body_pure_bind, checkKeyLength] at h
    split_ifs at h with hl
    · cases h
    · obtain rfl := Except.ok.inj h
      exact not_not.mp hl

/-! ### Splitting and joining -/

/-- Joined segments of one length take that length each and one separator between neighbours. -/
theorem join_length {m : Nat} {L : List (List Byte)} (h : ∀ s ∈ L, s.length = m) (hne : L ≠ []) :
    (join L).length = (m + 1) * L.length - 1 := by
  induction L with
  | nil => exact absurd rfl hne
  | cons s rest ih =>
    have hs := h s List.mem_cons_self
    cases rest with
    | nil => simp [join, hs]
    | cons r rs =>
      have ih := ih (fun x hx => h x (List.mem_cons_of_mem _ hx)) (by simp)
      rw [join, List.length_append, List.length_cons, ih, hs]
      · simp only [List.length_cons, Nat.mul_add]
        omega
      · simp

theorem cipherText_length {key : List Byte} (h : 16 ≤ key.length) (d : List Byte) :
    (cipherText key d).length = 33 * (d.length / 16 + 1) - 1 := by
  unfold cipherText
  rw [join_length (m := 32)]
  · rw [List.length_map, blocks_length, pad_length]
    congr 2
    omega
  · intro s hs
    obtain ⟨b, hb, rfl⟩ := List.mem_map.mp hs
    rw [hexenc_length, List.length_zipWith, length_of_mem_blocks hb]
    omega
  · intro hnil
    have := congrArg List.length hnil
    rw [List.length_map, blocks_length, pad_length] at this
    simp at this

theorem splitFrom_length (cur t : List Byte) :
    ((splitFrom cur t).map List.length).sum ≤ cur.length + t.length := by
  induction t generalizing cur with
  | nil => simp [splitFrom]
  | cons c cs ih =>
    unfold splitFrom
    split_ifs
    · have := ih []
      simp only [List.map_cons, List.sum_cons, List.length_cons, List.length_nil] at this ⊢
      omega
    · have := ih (cur ++ [c])
      simp only [List.length_append, List.length_cons, List.length_nil] at this ⊢
      omega

theorem sum_length_filter_le (L : List (List Byte)) (q : List Byte → Bool) :
    ((L.filter q).map List.length).sum ≤ (L.map List.length).sum := by
  induction L with
  | nil => simp
  | cons s rest ih =>
    rw [List.filter_cons]
    split_ifs <;> simp <;> omega

/-- The segments of a text are no longer together than the text (44_codec.md R480). -/
theorem split_length (t : List Byte) : ((split t).map List.length).sum ≤ t.length := by
  have h₁ := sum_length_filter_le (splitFrom [] t) fun s => !s.isEmpty
  have h₂ := splitFrom_length [] t
  rw [List.length_nil] at h₂
  exact le_trans h₁ (by omega)

theorem decodeSegment_ok {seg b : List Byte} (h : decodeSegment seg = .ok b) : seg.length = 32 ∧ b.length = 16 := by
  unfold decodeSegment at h
  cases hr : hexdecOr .invalidCiphertextEncoding seg with
  | error e => rw [hr] at h; cases h
  | ok r =>
    rw [hr, body_pure_bind] at h
    split_ifs at h with hl
    · cases h
    · obtain rfl := Except.ok.inj h
      have h₁ := hexdec_length (hexdecOr_ok hr)
      have h₂ : r.length = 16 := not_not.mp hl
      omega

theorem keyedBlock_length {f : Byte → Byte → Byte} {b k r : List Byte} (h : keyedBlock f b k = .ok r) :
    r.length = b.length := by
  unfold keyedBlock at h
  split_ifs at h
  · cases h
  · obtain rfl := Except.ok.inj h
    simp

theorem flatten_length_le {α : Type} {R : α → List Byte → Prop} {g : α → Nat} {as : List α} {rs : List (List Byte)}
    (h : List.Forall₂ R as rs) (hg : ∀ a r, R a r → r.length ≤ g a) : rs.flatten.length ≤ (as.map g).sum := by
  induction h with
  | nil => simp
  | cons hR _ ih =>
    have := hg _ _ hR
    simp only [List.flatten_cons, List.length_append, List.map_cons, List.sum_cons]
    omega

/-- A decrypted text is no longer than its ciphertext. -/
theorem decryptWith_length {key t p : List Byte} (h : decryptWith key t = .ok p) : p.length ≤ t.length := by
  unfold decryptWith at h
  cases hb : eachInOrder decodeSegment (split t) with
  | error e => rw [hb] at h; cases h
  | ok blks =>
    rw [hb, body_pure_bind] at h
    cases hx : eachInOrder (fun b => inverseTransformBlock b key) blks with
    | error e => rw [hx] at h; cases h
    | ok xs =>
      rw [hx, body_pure_bind] at h
      cases hu : unpad xs.flatten with
      | error e => rw [hu] at h; cases h
      | ok q =>
        rw [hu, body_pure_bind, checkUtf8] at h
        split_ifs at h
        · obtain rfl := Except.ok.inj h
          have h₁ := unpad_length hu
          have h₂ := flatten_length_le (g := List.length) (eachInOrder_inv hx) fun a r hr => by
            rw [keyedBlock_length hr]
          have h₃ := flatten_length_le (g := List.length) (eachInOrder_inv hb) fun a r hr => by
            have := decodeSegment_ok hr
            omega
          have h₄ := split_length t
          rw [List.length_flatten] at h₃
          omega
        · cases h

/-! ### The errors of the two pipelines -/

theorem encryptWith_raises {key : List Byte} (h : 16 ≤ key.length) (d : List Byte) :
    Body.RaisesIn (encryptWith key d) [] := by
  rw [encryptWith_eq h]
  exact raisesIn_ok _ _

theorem decodeSegment_raises (seg : List Byte) :
    Body.RaisesIn (decodeSegment seg) [.invalidCiphertextEncoding, .invalidBlockSize] := by
  refine raisesIn_bind (raisesIn_mono (hexdecOr_raises _ seg) (by simp)) fun b => ?_
  split_ifs
  · exact raisesIn_fail (by simp)
  · exact raisesIn_ok _ _

theorem length_of_forall₂ {segs blks : List (List Byte)}
    (h : List.Forall₂ (fun seg b => decodeSegment seg = .ok b) segs blks) : ∀ b ∈ blks, b.length = 16 := by
  induction h with
  | nil => simp
  | cons hR _ ih => exact List.forall_mem_cons.mpr ⟨(decodeSegment_ok hR).2, ih⟩

/-- Every decoded segment is one block. -/
theorem length_of_decoded {segs blks : List (List Byte)} (h : eachInOrder decodeSegment segs = .ok blks) :
    ∀ b ∈ blks, b.length = 16 := length_of_forall₂ (eachInOrder_inv h)

/-- The guard of the block transform is never what ends DECRYPT (44_codec.md R489). -/
theorem decryptWith_raises {key : List Byte} (hk : 16 ≤ key.length) (t : List Byte) :
    Body.RaisesIn (decryptWith key t)
      [.invalidCiphertextEncoding, .invalidBlockSize, .paddingError, .invalidUtf8] := by
  unfold decryptWith
  intro c h
  cases hb : eachInOrder decodeSegment (split t) with
  | error e =>
    rw [hb, body_error_bind] at h
    have hraise := eachInOrder_raises (as := split t) fun seg _ => decodeSegment_raises seg
    rw [hb] at hraise
    exact raisesIn_mono hraise (by simp) c (congrArg _ (Except.error.inj h))
  | ok blks =>
    rw [hb, body_pure_bind] at h
    have hlen := length_of_decoded hb
    have hx : eachInOrder (fun b => inverseTransformBlock b key) blks =
        .ok (blks.map fun b => List.zipWith inverseByte b key) :=
      eachInOrder_ok fun b hm => keyedBlock_eq inverseByte (by rw [hlen b hm]; exact hk)
    rw [hx, body_pure_bind] at h
    refine raisesIn_bind (raisesIn_mono (unpad_raises _) (by simp)) (fun p => ?_) c h
    unfold checkUtf8
    split_ifs
    · exact raisesIn_ok _ _
    · exact raisesIn_fail (by simp)

/-! ### The pipelines on defined bytes never read a POISON byte -/

theorem keydec_ne_undef (t : List Byte) : keydec t ≠ .error .undefRead := by
  unfold keydec hexdecOr checkKeyLength
  cases hexdec t with
  | none => simp [failWith]
  | some r =>
    simp only [body_pure_bind]
    split_ifs <;> simp [failWith]

theorem unpad_ne_undef (d : List Byte) : unpad d ≠ .error .undefRead := by
  unfold unpad
  intro h
  split at h
  · cases h
  · split_ifs at h <;> cases h

theorem eachInOrder_ne_undef {α : Type} {f : α → Body (List Byte)} (h : ∀ a, f a ≠ .error .undefRead) (as : List α) :
    eachInOrder f as ≠ .error .undefRead := by
  induction as with
  | nil => simp [eachInOrder]
  | cons a as ih =>
    unfold eachInOrder
    cases ha : f a with
    | error e =>
      intro h'
      exact h a (ha.trans (by simpa using h'))
    | ok r =>
      cases hr : eachInOrder f as with
      | error e =>
        intro h'
        exact ih (hr.trans (by simpa using h'))
      | ok rs =>
        intro h'
        cases h'

theorem decodeSegment_ne_undef (seg : List Byte) : decodeSegment seg ≠ .error .undefRead := by
  unfold decodeSegment hexdecOr
  cases hexdec seg with
  | none => simp [failWith]
  | some b =>
    simp only [body_pure_bind]
    split_ifs <;> simp [failWith]

theorem decryptWith_ne_undef (key t : List Byte) : decryptWith key t ≠ .error .undefRead := by
  unfold decryptWith
  cases hb : eachInOrder decodeSegment (split t) with
  | error e =>
    intro h
    exact eachInOrder_ne_undef decodeSegment_ne_undef _ (hb.trans (by simpa using h))
  | ok blks =>
    rw [body_pure_bind]
    cases hx : eachInOrder (fun b => inverseTransformBlock b key) blks with
    | error e =>
      intro h
      refine eachInOrder_ne_undef (fun b => ?_) _ (hx.trans (by simpa using h))
      unfold inverseTransformBlock keyedBlock
      split_ifs <;> simp [failWith]
    | ok xs =>
      rw [body_pure_bind]
      cases hu : unpad xs.flatten with
      | error e =>
        intro h
        exact unpad_ne_undef _ (hu.trans (by simpa using h))
      | ok q =>
        rw [body_pure_bind, checkUtf8]
        split_ifs <;> simp [failWith]

end Sys2Proof.Machine
end

