-- ==== Sys2Proof/Laws/Body.lean ====
section
/-! SUPPORT. What the body of a command can give, over all thirteen commands: its errors are codes the command may
report, its bytes fit OBUF, and only NOP gives NoData. -/

namespace Sys2Proof.Machine

/-- Every error a command raises is one of its row of 60_exceptions.md R602. -/
theorem commandBody_raises (p : Params) (i : Instr) (snap : Snapshot) :
    Body.RaisesIn (commandBody p i snap) (allowedCodes i) := by
  have hcap : ∀ j l, ErrCode.capacityError ∈ l → Body.RaisesIn (capacityCheck p j snap) l := fun j l hl =>
    raisesIn_mono (capacityCheck_raises p j snap) (by simpa using hl)
  cases i <;> unfold commandBody
  case nop => exact raisesIn_ok _ _
  case illegalAB => exact raisesIn_fail (by simp [allowedCodes])
  case illegalCF => exact raisesIn_fail (by simp [allowedCodes])
  case illegalRsv => exact raisesIn_fail (by simp [allowedCodes])
  all_goals refine raisesIn_bind (hcap _ _ (by simp [allowedCodes])) fun _ => ?_
  case pad => exact raisesIn_bind (raisesIn_mono (demandAll_raises _) (by simp)) fun _ => raisesIn_ok _ _
  case unpad =>
    exact raisesIn_bind (raisesIn_mono (unpadOperand_raises _) (by simp [allowedCodes])) fun _ => raisesIn_ok _ _
  case xform => exact raisesIn_mono (blockBody_raises _ _) (by simp [allowedCodes])
  case ixform => exact raisesIn_mono (blockBody_raises _ _) (by simp [allowedCodes])
  case hexenc => exact raisesIn_bind (raisesIn_mono (demandAll_raises _) (by simp)) fun _ => raisesIn_ok _ _
  case hexdec =>
    exact raisesIn_bind (raisesIn_mono (hexdecOperand_raises _ _) (by simp [allowedCodes])) fun _ => raisesIn_ok _ _
  case keydec =>
    exact raisesIn_bind (raisesIn_mono (keydecOperand_raises _) (by simp [allowedCodes])) fun _ => raisesIn_ok _ _
  case encrypt =>
    intro c h
    cases hk : keydecOperand snap.key with
    | error e =>
      refine raisesIn_mono (keydecOperand_raises snap.key) (by simp [allowedCodes]) c (hk.trans ?_)
      rw [hk] at h
      exact congrArg _ (Except.error.inj h)
    | ok key =>
      rw [hk, body_pure_bind] at h
      have hlen := keydecOperand_length hk
      exact raisesIn_bind (raisesIn_mono (demandAll_raises _) (by simp))
        (fun d => raisesIn_bind (raisesIn_mono (encryptWith_raises (by omega) d) (by simp)) fun _ =>
          raisesIn_ok _ _) c h
  case decrypt =>
    intro c h
    cases hk : keydecOperand snap.key with
    | error e =>
      refine raisesIn_mono (keydecOperand_raises snap.key) (by simp [allowedCodes]) c (hk.trans ?_)
      rw [hk] at h
      exact congrArg _ (Except.error.inj h)
    | ok key =>
      rw [hk, body_pure_bind] at h
      have hlen := keydecOperand_length hk
      exact raisesIn_bind (raisesIn_mono (demandAll_raises _) (by simp))
        (fun d => raisesIn_bind (raisesIn_mono (decryptWith_raises (by omega) d) (by simp [allowedCodes])) fun _ =>
          raisesIn_ok _ _) c h

/-- If two computations in a row gave a result, each of them gave one. -/
theorem body_bind_ok {α β : Type} {r : Body α} {f : α → Body β} {b : β} (h : (r >>= f) = .ok b) :
    ∃ a, r = .ok a ∧ f a = .ok b := by
  cases r with
  | error e => cases h
  | ok a => exact ⟨a, rfl, h⟩

/-- A capacity check that passed: every length the command reads, and its checked output length, fits. -/
theorem capacityCheck_eq_ok {p : Params} {i : Instr} {snap : Snapshot} {u : Unit} (h : capacityCheck p i snap = .ok u) :
    (readsIlen i = true → snap.ilen.toNat ≤ p.ibufBytes) ∧ (readsKlen i = true → snap.klen.toNat ≤ p.kbufBytes) ∧
      outlen i snap.ilen.toNat ≤ p.obufBytes := by
  unfold capacityCheck at h
  split_ifs at h with ho
  · cases h
  · exact overCapacity_eq_false.mp (by simpa using ho)

theorem unpadOperand_length {cs : List (Option Byte)} {d : List Byte} (h : unpadOperand cs = .ok d) :
    d.length ≤ cs.length := by
  unfold unpadOperand at h
  split at h
  · cases h
  · obtain ⟨p, -, h⟩ := body_bind_ok h
    split_ifs at h
    · cases h
    · obtain ⟨-, -, h⟩ := body_bind_ok h
      have := congrArg List.length (demandAll_ok h)
      rw [List.length_take, List.length_map] at this
      omega
    · cases h

theorem keyedLanes_length {f : Byte → Byte → Byte} {k b : List (Option Byte)} {i : Nat} {r : List Byte}
    (h : keyedLanes f k i b = .ok r) : r.length = b.length := by
  induction b generalizing i r with
  | nil =>
    obtain rfl : [] = r := Except.ok.inj h
    rfl
  | cons c cs ih =>
    obtain ⟨_, -, h⟩ := body_bind_ok h
    obtain ⟨_, -, h⟩ := body_bind_ok h
    obtain ⟨rest, hr, h⟩ := body_bind_ok h
    obtain rfl := Except.ok.inj h
    simp [ih hr]

@[simp] theorem Snapshot.input_length (snap : Snapshot) : snap.input.length = snap.ilen.toNat := by
  simp [Snapshot.input]

@[simp] theorem Snapshot.key_length (snap : Snapshot) : snap.key.length = snap.klen.toNat := by
  simp [Snapshot.key]

/-- The bytes any command gives fit OBUF (40_lifecycle.md R407). -/
theorem commandBody_fits {p : Params} (hp : p.Ok) {i : Instr} {snap : Snapshot} {out : List Byte}
    (h : commandBody p i snap = .ok (.data out)) : out.length ≤ p.obufBytes := by
  obtain ⟨⟨-, hk₁, hk₂⟩, ⟨-, hi₁, hi₂⟩, -, ho₁, ho₂⟩ := hp
  cases i <;> unfold commandBody at h
  case nop => cases h
  case illegalAB => cases h
  case illegalCF => cases h
  case illegalRsv => cases h
  all_goals
    obtain ⟨_, hc, h⟩ := body_bind_ok h
    obtain ⟨hlen, -, hout⟩ := capacityCheck_eq_ok hc
    simp only [readsIlen, true_implies] at hlen
    simp only [outlen, Config.block] at hout
  case pad =>
    obtain ⟨d, hd, h⟩ := body_bind_ok h
    obtain rfl := Result.data.inj (Except.ok.inj h)
    have := congrArg List.length (demandAll_ok hd)
    rw [Snapshot.input_length, List.length_map] at this
    rw [pad_length]
    omega
  case unpad =>
    obtain ⟨d, hd, h⟩ := body_bind_ok h
    obtain rfl := Result.data.inj (Except.ok.inj h)
    have := unpadOperand_length hd
    rw [Snapshot.input_length] at this
    omega
  case hexenc =>
    obtain ⟨d, hd, h⟩ := body_bind_ok h
    obtain rfl := Result.data.inj (Except.ok.inj h)
    have := congrArg List.length (demandAll_ok hd)
    rw [Snapshot.input_length, List.length_map] at this
    rw [hexenc_length]
    omega
  case hexdec =>
    obtain ⟨d, hd, h⟩ := body_bind_ok h
    obtain rfl := Result.data.inj (Except.ok.inj h)
    have := hexdecOperand_length hd
    rw [Snapshot.input_length] at this
    omega
  case keydec =>
    obtain ⟨d, hd, h⟩ := body_bind_ok h
    obtain rfl := Result.data.inj (Except.ok.inj h)
    have := keydecOperand_length hd
    omega
  case encrypt =>
    obtain ⟨key, hk, h⟩ := body_bind_ok h
    obtain ⟨d, hd, h⟩ := body_bind_ok h
    obtain ⟨c, he, h⟩ := body_bind_ok h
    obtain rfl := Result.data.inj (Except.ok.inj h)
    have hkl := keydecOperand_length hk
    rw [encryptWith_eq (by omega)] at he
    obtain rfl := Except.ok.inj he
    have := congrArg List.length (demandAll_ok hd)
    rw [Snapshot.input_length, List.length_map] at this
    rw [cipherText_length (by omega)]
    omega
  case decrypt =>
    obtain ⟨key, hk, h⟩ := body_bind_ok h
    obtain ⟨d, hd, h⟩ := body_bind_ok h
    obtain ⟨c, he, h⟩ := body_bind_ok h
    obtain rfl := Result.data.inj (Except.ok.inj h)
    have := congrArg List.length (demandAll_ok hd)
    rw [Snapshot.input_length, List.length_map] at this
    have := decryptWith_length he
    omega
  all_goals
    unfold blockBody at h
    split_ifs at h with hb
    · cases h
    · obtain ⟨r, hr, h⟩ := body_bind_ok h
      obtain rfl := Result.data.inj (Except.ok.inj h)
      unfold keyedBlockOperand at hr
      split_ifs at hr
      · cases hr
      · rw [keyedLanes_length hr, Snapshot.input_length]
        omega

/-- Only NOP completes without data. -/
theorem commandBody_eq_noData {p : Params} {i : Instr} {snap : Snapshot} (h : commandBody p i snap = .ok .noData) :
    i = .nop := by
  cases i <;> unfold commandBody at h
  case nop => rfl
  case illegalAB => cases h
  case illegalCF => cases h
  case illegalRsv => cases h
  case xform =>
    obtain ⟨_, -, h⟩ := body_bind_ok h
    unfold blockBody at h
    split_ifs at h
    · cases h
    · obtain ⟨_, -, h⟩ := body_bind_ok h
      cases h
  case ixform =>
    obtain ⟨_, -, h⟩ := body_bind_ok h
    unfold blockBody at h
    split_ifs at h
    · cases h
    · obtain ⟨_, -, h⟩ := body_bind_ok h
      cases h
  case encrypt =>
    obtain ⟨_, -, h⟩ := body_bind_ok h
    obtain ⟨_, -, h⟩ := body_bind_ok h
    obtain ⟨_, -, h⟩ := body_bind_ok h
    obtain ⟨_, -, h⟩ := body_bind_ok h
    cases h
  case decrypt =>
    obtain ⟨_, -, h⟩ := body_bind_ok h
    obtain ⟨_, -, h⟩ := body_bind_ok h
    obtain ⟨_, -, h⟩ := body_bind_ok h
    obtain ⟨_, -, h⟩ := body_bind_ok h
    cases h
  all_goals
    obtain ⟨_, -, h⟩ := body_bind_ok h
    obtain ⟨_, -, h⟩ := body_bind_ok h
    cases h

/-! ### After an undefined read -/

theorem pickCode_mem {l : List ErrCode} (h : l ≠ []) (n : Nat) : pickCode l n ∈ l := by
  unfold pickCode
  have : Config.freeCode n % l.length < l.length := Nat.mod_lt _ (List.length_pos_of_ne_nil h)
  rw [List.getD_eq_getElem?_getD, List.getElem?_eq_getElem this]
  simp

theorem allowedCodes_ne_nil (i : Instr) : allowedCodes i ≠ [] := by cases i <;> simp [allowedCodes]

/-- The free OLEN is at most OBUF_BYTES, whatever the free value. -/
theorem pickOlen_le (obufBytes n : Nat) : (pickOlen obufBytes n).toNat ≤ obufBytes := by
  rw [pickOlen, BitVec.toNat_ofNat]
  have h₁ := Nat.mod_lt (Config.freeOlen n) (show 0 < obufBytes + 1 by omega)
  have h₂ := Nat.mod_le (Config.freeOlen n % (obufBytes + 1)) (2 ^ 32)
  omega

/-- A body that reads a POISON byte makes the command complete with free values (70_reset_and_hazards.md R726). -/
theorem completesUndefined_of_body {i : Instr} {s : State} {snap : Snapshot} (hp : s.phase = .busy snap)
    (hb : commandBody s.params i snap = .error .undefRead) : CompletesUndefined i s := by
  refine ⟨_, exec_busy hp i, ?_⟩
  have hk := s.complete_keepsInputs (allowedCodes i) (.error .undefRead)
  rw [hb]
  refine ⟨pickCode_mem (allowedCodes_ne_nil i) _, fun h => ?_, fun h => ?_, fun _ => rfl, rfl, rfl, rfl, hk, rfl⟩
  · show (if pickCode (allowedCodes i) s.freeCtr = .ok then pickOlen s.params.obufBytes s.freeCtr else 0#32).toNat ≤ _
    rw [if_pos (show pickCode (allowedCodes i) s.freeCtr = .ok from h)]
    exact pickOlen_le _ _
  · show (if pickCode (allowedCodes i) s.freeCtr = .ok then pickOlen s.params.obufBytes s.freeCtr else 0#32) = 0#32
    exact if_neg h

end Sys2Proof.Machine
end

