-- ==== Sys2Proof/Laws/Bus.lean ====
section
/-! SUPPORT. What a host access can do: where `locate` sends it, and the one list of states a permitted write can
leave. -/

namespace Sys2Proof.Machine

/-- An access to a buffer region is permitted when it is aligned and inside the region. -/
theorem locate_kbuf {p : Params} {off n : Nat} (ha : off % n = 0) (h₁ : 0x100 ≤ off)
    (h₂ : off + n ≤ 0x100 + p.kbufBytes) : locate p off n = some (.kbuf (off - 0x100)) := by
  unfold locate regsEnd kbufStart
  rw [if_neg (by omega), if_neg (by omega), if_pos ⟨h₁, h₂⟩]

theorem locate_ibuf {p : Params} (hp : p.Ok) {off n : Nat} (hn : 0 < n) (ha : off % n = 0) (h₁ : 0x4000 ≤ off)
    (h₂ : off + n ≤ 0x4000 + p.ibufBytes) : locate p off n = some (.ibuf (off - 0x4000)) := by
  obtain ⟨⟨-, -, hk⟩, -, -⟩ := hp
  unfold locate regsEnd kbufStart ibufStart
  rw [if_neg (by omega), if_neg (by omega), if_neg (by omega), if_pos ⟨h₁, h₂⟩]

theorem locate_obuf {p : Params} (hp : p.Ok) {off n : Nat} (hn : 0 < n) (ha : off % n = 0) (h₁ : 0x8000 ≤ off)
    (h₂ : off + n ≤ 0x8000 + p.obufBytes) : locate p off n = some (.obuf (off - 0x8000)) := by
  obtain ⟨⟨-, -, hk⟩, ⟨-, -, hi⟩, -⟩ := hp
  unfold locate regsEnd kbufStart ibufStart obufStart
  rw [if_neg (by omega), if_neg (by omega), if_neg (by omega), if_neg (by omega), if_pos ⟨h₁, h₂⟩]

/-- Where a permitted access goes: a register by its own offset and 4 bytes, or aligned bytes inside a buffer's
region. -/
theorem locate_some {p : Params} {off n : Nat} {t : Target} (h : locate p off n = some t) :
    (∃ r, t = .reg r ∧ n = 4 ∧ off = r.offset) ∨
    (∃ k, t = .kbuf k ∧ off % n = 0 ∧ 0x100 ≤ off ∧ off + n ≤ 0x100 + p.kbufBytes) ∨
    (∃ k, t = .ibuf k ∧ off % n = 0 ∧ 0x4000 ≤ off ∧ off + n ≤ 0x4000 + p.ibufBytes) ∨ ∃ k, t = .obuf k := by
  unfold locate at h
  split_ifs at h with h₁ h₂ h₃ h₄ h₅ h₆
  · obtain ⟨r, hr, rfl⟩ := Option.map_eq_some_iff.mp h
    exact .inl ⟨r, rfl, h₃, (by simpa using List.find?_some hr : r.offset = off).symm⟩
  · exact .inr (.inl ⟨_, (Option.some.inj h).symm, not_not.mp h₁, h₄.1, h₄.2⟩)
  · exact .inr (.inr (.inl ⟨_, (Option.some.inj h).symm, not_not.mp h₁, h₅.1, h₅.2⟩))
  · exact .inr (.inr (.inr ⟨_, (Option.some.inj h).symm⟩))

theorem Width.bytes_pos (n : Width) : 0 < n.bytes := by cases n <;> decide

/-- A 4-byte write to a register's offset is that register's write. -/
theorem memWrite_reg (s : State) (r : Reg) (v : Word) : s.memWrite .w32 r.at v = some (s.writeReg r v) := by
  cases r <;> rfl

/-- A 4-byte read of a register's offset is that register's value. -/
theorem memRead_reg (s : State) (r : Reg) : s.memRead .w32 r.at = .word (s.readReg r) := by cases r <;> rfl

/-- A read gets BUSERR exactly where a write does (20_memory.md R207). -/
theorem memWrite_eq_none {s : State} {n : Width} {off : Offset} {v : Word} :
    s.memWrite n off v = none ↔ s.memRead n off = .busError := by
  unfold State.memWrite State.memRead
  rcases locate s.params off.toNat n.bytes with _ | r | k | k | k <;> simp

/-- Everything a permitted write can do. -/
theorem memWrite_cases {s t : State} {n : Width} {off : Offset} {v : Word} (h : s.memWrite n off v = some t) :
    (∃ r, t = s.writeReg r v) ∨ (s.isBusy = true ∧ t = s.dropWrite) ∨ t = s ∨
    (s.isBusy = false ∧ ∃ k, k + n.bytes ≤ s.params.kbufBytes ∧
      t = { s with kbuf := s.kbuf.setBytes k (wordBytes v n.bytes) }) ∨
    (s.isBusy = false ∧ ∃ k, k + n.bytes ≤ s.params.ibufBytes ∧
      t = { s with ibuf := s.ibuf.setBytes k (wordBytes v n.bytes) }) := by
  unfold State.memWrite at h
  have hloc : ∀ k, (locate s.params off.toNat n.bytes = some (.kbuf k) → k + n.bytes ≤ s.params.kbufBytes) ∧
      (locate s.params off.toNat n.bytes = some (.ibuf k) → k + n.bytes ≤ s.params.ibufBytes) := by
    intro k
    unfold locate kbufStart ibufStart
    split_ifs <;> simp <;> omega
  rcases hl : locate s.params off.toNat n.bytes with _ | r | k | k | k <;> rw [hl] at h <;> simp only at h
  · cases h
  · exact .inl ⟨r, (Option.some.inj h).symm⟩
  · obtain rfl := Option.some.inj h
    split_ifs with hb
    · exact .inr (.inl ⟨hb, rfl⟩)
    · exact .inr (.inr (.inr (.inl ⟨by simpa using hb, k, (hloc k).1 hl, rfl⟩)))
  · obtain rfl := Option.some.inj h
    split_ifs with hb
    · exact .inr (.inl ⟨hb, rfl⟩)
    · exact .inr (.inr (.inr (.inr ⟨by simpa using hb, k, (hloc k).2 hl, rfl⟩)))
  · exact .inr (.inr (.inl (Option.some.inj h).symm))

/-- Everything a register write can do. -/
theorem writeReg_cases (s : State) (r : Reg) (v : Word) :
    s.writeReg r v = s ∨ s.writeReg r v = s.deviceReset ∨ s.writeReg r v = { s with irqEn := v.getLsbD 1 } ∨
    s.writeReg r v = s.acknowledge v ∨ (s.isBusy = true ∧ s.writeReg r v = s.dropWrite) ∨
    (s.isBusy = false ∧ (s.writeReg r v = s.startCommand v ∨ s.writeReg r v = { s with ilen := v } ∨
      s.writeReg r v = { s with klen := v })) := by
  cases r <;> simp only [State.writeReg]
  case ctrl =>
    unfold State.writeCtrl
    split_ifs
    · exact .inr (.inl rfl)
    · exact .inr (.inr (.inl rfl))
  case status => exact .inr (.inr (.inr (.inl trivial)))
  case cmd =>
    split_ifs with hb
    · exact .inr (.inr (.inr (.inr (.inl ⟨hb, rfl⟩))))
    · exact .inr (.inr (.inr (.inr (.inr ⟨by simpa using hb, .inl rfl⟩))))
  case ilen =>
    split_ifs with hb
    · exact .inr (.inr (.inr (.inr (.inl ⟨hb, rfl⟩))))
    · exact .inr (.inr (.inr (.inr (.inr ⟨by simpa using hb, .inr (.inl rfl)⟩))))
  case klen =>
    split_ifs with hb
    · exact .inr (.inr (.inr (.inr (.inl ⟨hb, rfl⟩))))
    · exact .inr (.inr (.inr (.inr (.inr ⟨by simpa using hb, .inr (.inr rfl)⟩))))
  all_goals exact .inl trivial

theorem isBusy_of_phase {s : State} {snap : Snapshot} (h : s.phase = .busy snap) : s.isBusy = true := by
  rw [State.isBusy, h]
  rfl

theorem isBusy_of_idle {s : State} (h : s.phase = .idle) : s.isBusy = false := by
  rw [State.isBusy, h]
  rfl

/-- Everything a host step can do to the machine: the state it leaves, apart from the host's own part. -/
theorem hostStep_next {s t : State} (h : hostStep s = .next t) :
    t = s ∨ (∃ l, t = s.hostJump l) ∨ t = s.hostAdvance ∨ (∃ n off v, t = hostWrite s n off v) ∨
    ∃ n off x, t = hostRead s n off x := by
  unfold hostStep hostBranch at h
  split at h
  · exact .inl (Host.Outcome.next.inj h).symm
  · split at h
    · cases h
    · exact .inr (.inr (.inr (.inl ⟨_, _, _, (Host.Outcome.next.inj h).symm⟩)))
  · exact .inr (.inr (.inr (.inr ⟨_, _, _, (Host.Outcome.next.inj h).symm⟩)))
  · exact .inr (.inr (.inl (Host.Outcome.next.inj h).symm))
  · split at h
    · cases h
    · split_ifs at h
      · exact .inr (.inr (.inl (Host.Outcome.next.inj h).symm))
      · split at h
        · cases h
        · exact .inr (.inl ⟨_, (Host.Outcome.next.inj h).symm⟩)

/-- A host read leaves the device as it was; it can record a fault and read a free value. -/
theorem hostRead_cases (s : State) (n : Width) (off : Offset) (x : Nat) :
    (∃ v, hostRead s n off x = s.hostBind x v) ∨ (∃ v, hostRead s n off x = s.recordBusError.nextFree.hostBind x v) ∨
    ∃ v, hostRead s n off x = s.recordUndefRead.nextFree.hostBind x v := by
  unfold hostRead
  split
  · exact .inr (.inl ⟨_, rfl⟩)
  · exact .inl ⟨_, rfl⟩
  · split_ifs
    · exact .inl ⟨_, rfl⟩
    · exact .inr (.inr ⟨_, rfl⟩)

/-- A host write is MemWrite and the next line, or a recorded BUS_ERROR and the next line. -/
theorem hostWrite_cases (s : State) (n : Width) (off : Offset) (v : Word) :
    (∃ t, s.memWrite n off v = some t ∧ hostWrite s n off v = t.hostAdvance) ∨
    (s.memWrite n off v = none ∧ hostWrite s n off v = s.recordBusError.hostAdvance) := by
  unfold hostWrite
  split
  · next h => exact .inr ⟨h, rfl⟩
  · next t h => exact .inl ⟨t, h, rfl⟩

end Sys2Proof.Machine
end

