-- ==== Sys2Proof/Laws/Encoding.lean ====
section
/-! SUPPORT. The two fields of a command word. -/

namespace Sys2Proof

theorem getLsbD_append_fields (rsv : BitVec 28) (op : BitVec 4) (i : Nat) :
    (rsv ++ op : Word).getLsbD i = if i < 4 then op.getLsbD i else rsv.getLsbD (i - 4) :=
  BitVec.getLsbD_append (x := rsv) (y := op)

@[simp] theorem rsvField_append (rsv : BitVec 28) (op : BitVec 4) : rsvField (rsv ++ op) = rsv := by
  apply BitVec.eq_of_getLsbD_eq
  intro i hi
  simp [rsvField, hi, getLsbD_append_fields]

@[simp] theorem opField_append (rsv : BitVec 28) (op : BitVec 4) : opField (rsv ++ op) = op := by
  apply BitVec.eq_of_getLsbD_eq
  intro i hi
  simp [opField, hi, getLsbD_append_fields]

/-- A word is its two fields. -/
theorem append_fields (w : Word) : rsvField w ++ opField w = w := by
  apply BitVec.eq_of_getLsbD_eq
  intro i hi
  simp only [rsvField, opField, getLsbD_append_fields, BitVec.getLsbD_extractLsb', zero_add]
  split_ifs with h
  · simp [h]
  · rw [show 4 + (i - 4) = i by omega]
    simp
    omega

/-- Where every bit of a row's mask above bit 3 is set and its match has none, only words with RSV = 0 match. -/
theorem rsvField_of_match {w mask m : Word} (hmask : rsvField mask = BitVec.allOnes 28) (hm : rsvField m = 0#28)
    (h : w &&& mask = m) : rsvField w = 0#28 := by
  have hw : rsvField (w &&& mask) = rsvField w := by
    have hand : rsvField (w &&& mask) = rsvField w &&& rsvField mask := by
      apply BitVec.eq_of_getLsbD_eq
      intro i hi
      simp [rsvField, hi]
    rw [hand, hmask, BitVec.and_allOnes]
  rw [← hw, h, hm]

end Sys2Proof
end

