-- ==== Sys2Proof/Laws/Hex.lean ====
section
/-! SUPPORT. The hex functions digit by digit: the value of a character, the digits of a byte, and one pair of
`hexdec`. -/

namespace Sys2Proof.Machine

theorem hexenc_cons (b : Byte) (bs : List Byte) :
    hexenc (b :: bs) = hexDigit (b >>> 4) :: hexDigit (b &&& 0x0F#8) :: hexenc bs := rfl

theorem highNibble_eq (b : Byte) : b >>> 4 = BitVec.ofNat 8 (b.toNat / 16) := by
  apply BitVec.eq_of_toNat_eq
  have := b.isLt
  simp only [BitVec.toNat_ushiftRight, Nat.shiftRight_eq_div_pow, BitVec.toNat_ofNat]
  omega

theorem lowNibble_eq (b : Byte) : b &&& 0x0F#8 = BitVec.ofNat 8 (b.toNat % 16) := by
  apply BitVec.eq_of_toNat_eq
  have : (b &&& 0x0F#8).toNat = b.toNat % 2 ^ 4 := by
    rw [BitVec.toNat_and]
    exact Nat.and_two_pow_sub_one_eq_mod b.toNat 4
  rw [this, BitVec.toNat_ofNat]
  omega

theorem IsHexDigit.lt {c : Byte} {v : Nat} (h : IsHexDigit c v) : v < 16 := by
  rcases h with h | h | h <;> omega

/-- `hexval` gives exactly the value the relation `IsHexDigit` gives (43_hex.md R461). -/
theorem hexval_eq_some {c v : Byte} : hexval c = some v ↔ IsHexDigit c v.toNat := by
  unfold hexval IsHexDigit
  have hc := c.isLt
  have hv := v.isLt
  split_ifs with h₁ h₂ h₃ <;> constructor
  all_goals first
    | (intro h; obtain rfl := Option.some.inj h; simp only [BitVec.toNat_add, BitVec.toNat_sub, BitVec.toNat_ofNat]; omega)
    | (intro h; cases h; done)
    | (rintro h; congr 1; apply BitVec.eq_of_toNat_eq
       simp only [BitVec.toNat_add, BitVec.toNat_sub, BitVec.toNat_ofNat]; omega)
    | (rintro h; omega)

theorem hexval_of_isHexDigit {c : Byte} {v : Nat} (h : IsHexDigit c v) : hexval c = some (BitVec.ofNat 8 v) := by
  rw [hexval_eq_some, BitVec.toNat_ofNat, Nat.mod_eq_of_lt (by have := h.lt; omega)]
  exact h

/-- The digit of a value is a hex digit of that value. -/
theorem isHexDigit_hexDigit {n : Nat} (h : n < 16) : IsHexDigit (hexDigit (BitVec.ofNat 8 n)) n := by
  unfold IsHexDigit
  interval_cases n <;> decide

/-- `hexdec` one pair at a time. -/
theorem hexdec_cons_cons {a b : Byte} {t r : List Byte} : hexdec (a :: b :: t) = some r ↔
    ∃ (hi lo : Nat) (x : Byte) (r' : List Byte), hexdec t = some r' ∧ IsHexDigit a hi ∧ IsHexDigit b lo ∧
      x.toNat = 16 * hi + lo ∧ r = x :: r' := by
  unfold hexdec
  rw [show (a :: b :: t).length % 2 = t.length % 2 by simp only [List.length_cons]; omega]
  split_ifs with h
  · simp
  · constructor
    · intro hr
      obtain ⟨vs, hv, rfl⟩ := Option.map_eq_some_iff.mp hr
      unfold hexvals at hv
      cases ha : hexval a with
      | none => rw [ha] at hv; cases hv
      | some va =>
        rw [ha] at hv
        obtain ⟨us, hu, rfl⟩ := Option.map_eq_some_iff.mp hv
        unfold hexvals at hu
        cases hb : hexval b with
        | none => rw [hb] at hu; cases hu
        | some vb =>
          rw [hb] at hu
          obtain ⟨ws, hw, rfl⟩ := Option.map_eq_some_iff.mp hu
          rw [hexval_eq_some] at ha hb
          have h₁ := ha.lt
          have h₂ := hb.lt
          refine ⟨va.toNat, vb.toNat, 16#8 * va + vb, pairDigits ws, by rw [hw]; rfl, ha, hb, ?_, rfl⟩
          simp only [BitVec.toNat_add, BitVec.toNat_mul, BitVec.toNat_ofNat]
          omega
    · rintro ⟨hi, lo, x, r', hr', ha, hb, hx, rfl⟩
      obtain ⟨vs, hv, rfl⟩ := Option.map_eq_some_iff.mp hr'
      have h₁ := ha.lt
      have h₂ := hb.lt
      rw [hexvals, hexval_of_isHexDigit ha, hexvals, hexval_of_isHexDigit hb, hv]
      simp only [Option.map_some, pairDigits, Option.some.injEq, List.cons.injEq, and_true]
      apply BitVec.eq_of_toNat_eq
      simp only [BitVec.toNat_add, BitVec.toNat_mul, BitVec.toNat_ofNat]
      omega

@[simp] theorem hexdec_nil : hexdec [] = some [] := rfl
@[simp] theorem hexdec_singleton (a : Byte) : hexdec [a] = none := rfl

end Sys2Proof.Machine
end

