-- ==== Sys2Proof/Laws/PerInstr.lean ====
section
/-! SUPPORT. Statements made of every instruction, one lemma per constructor. -/

namespace Sys2Proof.Laws.TableRow

/-- The word of a well-formed command matches its own row of the opcode table, and no row before it
(opcode_table.json: "rows are matched in order; the first match wins"). -/
def Statement (i : Instr) : Prop := i.wellFormed = true → firstRow (encode i) = rowOf i

theorem nop : Statement .nop := by unfold Statement; decide
theorem pad : Statement .pad := by unfold Statement; decide
theorem unpad : Statement .unpad := by unfold Statement; decide
theorem xform : Statement .xform := by unfold Statement; decide
theorem ixform : Statement .ixform := by unfold Statement; decide
theorem hexenc : Statement .hexenc := by unfold Statement; decide
theorem hexdec : Statement .hexdec := by unfold Statement; decide
theorem keydec : Statement .keydec := by unfold Statement; decide
theorem encrypt : Statement .encrypt := by unfold Statement; decide
theorem decrypt : Statement .decrypt := by unfold Statement; decide
theorem illegalAB (lo : BitVec 1) : Statement (.illegalAB lo) := by unfold Statement; revert lo; decide
theorem illegalCF (lo : BitVec 2) : Statement (.illegalCF lo) := by unfold Statement; revert lo; decide

theorem illegalRsv (op : BitVec 4) (rsv : BitVec 28) : Statement (.illegalRsv op rsv) := by
  intro hwf
  have hne : rsv ≠ 0#28 := by simpa [Instr.wellFormed] using hwf
  have hno : ∀ mask m : Word, rsvField mask = BitVec.allOnes 28 → rsvField m = 0#28 →
      rowMatches (rsv ++ op) (mask, m) = false := by
    intro mask m hmask hm
    rw [rowMatches, beq_eq_false_iff_ne]
    intro h
    exact hne ((rsvField_append rsv op).symm.trans (rsvField_of_match hmask hm h))
  have hlast : rowMatches (rsv ++ op) (0#32, 0#32) = true := by simp [rowMatches]
  show firstRow (rsv ++ op) = 12
  unfold firstRow opcodeRows
  simp (disch := decide) only [List.findIdx_cons, hlast, hno, cond_false, cond_true]

end Sys2Proof.Laws.TableRow
end

