-- ==== Sys2Proof/Laws/Segments.lean ====
section
/-! SUPPORT. The parts of the two pipelines: splitting what was joined, decoding one segment, the UTF-8 scan past its
pending bytes, and the blocks of a text put together again. -/

namespace Sys2Proof.Machine

/-! ### Splitting and joining -/

theorem splitFrom_of_no_sep (cur : List Byte) {seg : List Byte} (h : ∀ c ∈ seg, c ≠ Config.sep) :
    splitFrom cur seg = [cur ++ seg] := by
  induction seg generalizing cur with
  | nil => simp [splitFrom]
  | cons c cs ih =>
    rw [splitFrom, if_neg (h c List.mem_cons_self), ih _ fun x hx => h x (List.mem_cons_of_mem _ hx)]
    simp

theorem splitFrom_append (cur a b : List Byte) :
    splitFrom cur (a ++ Config.sep :: b) = splitFrom cur a ++ splitFrom [] b := by
  induction a generalizing cur with
  | nil => simp [splitFrom]
  | cons c cs ih =>
    rw [List.cons_append, splitFrom, splitFrom]
    split_ifs <;> simp [ih]

theorem join_cons_cons (s r : List Byte) (rs : List (List Byte)) :
    join (s :: r :: rs) = s ++ Config.sep :: join (r :: rs) := rfl

/-- Splitting a joined list of non-empty segments without separators gives the list back (44_codec.md R480, R481). -/
theorem split_join {L : List (List Byte)} (hne : ∀ s ∈ L, s ≠ []) (hsep : ∀ s ∈ L, ∀ c ∈ s, c ≠ Config.sep) :
    split (join L) = L := by
  induction L with
  | nil => rfl
  | cons s rest ih =>
    have hs := splitFrom_of_no_sep [] (hsep s List.mem_cons_self)
    have hs' := hne s List.mem_cons_self
    cases rest with
    | nil => simp [split, join, hs, hs']
    | cons r rs =>
      have hrec := ih (fun x hx => hne x (List.mem_cons_of_mem _ hx)) fun x hx => hsep x (List.mem_cons_of_mem _ hx)
      rw [split] at hrec
      rw [join_cons_cons, split, splitFrom_append, List.filter_append, hrec, hs]
      simp [hs']

/-! ### Decoding -/

theorem eachInOrder_eq_ok {α : Type} {f : α → Body (List Byte)} {as : List α} {rs : List (List Byte)} :
    eachInOrder f as = .ok rs ↔ List.Forall₂ (fun a r => f a = .ok r) as rs := by
  refine ⟨eachInOrder_inv, fun h => ?_⟩
  induction h with
  | nil => rfl
  | cons h₁ _ ih =>
    rw [eachInOrder, h₁, ih]
    rfl

/-- Running a body over a list stops at the first element it stops at. -/
theorem eachInOrder_first_error {α : Type} {f : α → Body (List Byte)} {good rest : List α} {a : α} {e : Stop}
    (hg : ∀ g ∈ good, ∃ b, f g = .ok b) (ha : f a = .error e) : eachInOrder f (good ++ a :: rest) = .error e := by
  induction good with
  | nil =>
    rw [List.nil_append, eachInOrder, ha]
    rfl
  | cons g gs ih =>
    obtain ⟨b, hb⟩ := hg g List.mem_cons_self
    rw [List.cons_append, eachInOrder, hb, ih fun x hx => hg x (List.mem_cons_of_mem _ hx)]
    rfl

/-- A segment decodes exactly when it is hex of 16 bytes (44_codec.md R484 step 3). -/
theorem decodeSegment_eq_ok {seg b : List Byte} : decodeSegment seg = .ok b ↔ hexdec seg = some b ∧ b.length = 16 := by
  unfold decodeSegment hexdecOr
  cases hexdec seg with
  | none => simp [failWith]
  | some r =>
    simp only [body_pure_bind, Option.some.injEq]
    split_ifs with h
    · simp only [failWith, reduceCtorEq, false_iff, not_and]
      rintro rfl
      exact h
    · refine ⟨fun h₁ => ?_, fun h₁ => ?_⟩
      · obtain rfl := Except.ok.inj h₁
        exact ⟨rfl, not_not.mp h⟩
      · obtain ⟨rfl, -⟩ := h₁
        rfl

/-- Steps 4 to 6 of DECRYPT, once every segment has decoded. -/
theorem decryptWith_of_blocks {key t : List Byte} {blks : List (List Byte)} (hk : 16 ≤ key.length)
    (h : eachInOrder decodeSegment (split t) = .ok blks) :
    decryptWith key t = (unpad (blks.map fun b => List.zipWith inverseByte b key).flatten >>= checkUtf8) := by
  have hx : eachInOrder (fun b => inverseTransformBlock b key) blks =
      .ok (blks.map fun b => List.zipWith inverseByte b key) :=
    eachInOrder_ok fun b hm => keyedBlock_eq inverseByte (by rw [length_of_decoded h b hm]; exact hk)
  rw [decryptWith, h, body_pure_bind, hx]
  rfl

/-- The blocks of a text of whole blocks, put together again, are the text. -/
theorem flatten_blocks {n : Nat} {x : List Byte} (h : x.length = 16 * n) : (blocks x).flatten = x := by
  induction n generalizing x with
  | zero =>
    obtain rfl : x = [] := List.length_eq_zero_iff.mp (by omega)
    rfl
  | succ n ih =>
    have h₂ : (x.drop 16).length = 16 * n := by
      rw [List.length_drop]
      omega
    have hcons : blocks x = x.take 16 :: blocks (x.drop 16) := by
      unfold blocks Config.block
      rw [h₂, h, show 16 * (n + 1) / 16 = 16 * n / 16 + 1 by omega, List.range_succ_eq_map, List.map_cons, List.map_map]
      congr 1
      apply List.map_congr_left
      intro j _
      simp [List.drop_drop, Nat.mul_add, Nat.add_comm]
    rw [hcons, List.flatten_cons, ih h₂, List.take_append_drop]

/-! ### UTF-8 -/

/-- The first bytes of the table's rows do not overlap, so the first byte decides the row (44_codec.md R482). -/
theorem utf8Rows_find {b : Byte} {row : ByteRange × List ByteRange} (hrow : row ∈ utf8Rows)
    (hb : inRange row.1 b = true) : utf8Rows.find? (fun row => inRange row.1 b) = some row := by
  revert b row
  decide +kernel

/-- Past the bytes that are still pending, the scan starts a new sequence. -/
theorem utf8Scan_pending {pending : List ByteRange} {s : List Byte} : utf8Scan pending s = true ↔
    ∃ a b, s = a ++ b ∧ List.Forall₂ (fun r x => inRange r x = true) pending a ∧ utf8Scan [] b = true := by
  induction pending generalizing s with
  | nil =>
    constructor
    · intro h
      exact ⟨[], s, rfl, .nil, h⟩
    · rintro ⟨a, b, rfl, h₁, h₂⟩
      cases h₁
      exact h₂
  | cons r pending ih =>
    cases s with
    | nil => simp [utf8Scan]
    | cons x xs =>
      rw [utf8Scan, Bool.and_eq_true, ih]
      constructor
      · rintro ⟨hx, a, b, rfl, h₁, h₂⟩
        exact ⟨x :: a, b, rfl, .cons hx h₁, h₂⟩
      · rintro ⟨a, b, he, h₁, h₂⟩
        cases h₁ with
        | cons hx h₁ =>
          obtain ⟨rfl, rfl⟩ := List.cons.inj he
          exact ⟨hx, _, _, rfl, h₁, h₂⟩

end Sys2Proof.Machine
end

