-- ==== Sys2Proof/Laws/Step.lean ====
section
/-! SUPPORT. What a step can do: it is the step of one agent, whose turn is taken from the state; and no agent's step
looks at the turns to come. -/

namespace Sys2Proof.Machine

/-! ### Whose turn it is -/

theorem takeTurn_listed {s : State} {a : Agent} {rest : List Agent} (h : s.sched = a :: rest) :
    s.takeTurn = (a, { s with sched := rest }) := by rw [State.takeTurn, h]

theorem takeTurn_default {s : State} (h : s.sched = []) (hf : s.freeTurn = none) :
    s.takeTurn = (s.defaultAgent, s) := by rw [State.takeTurn, h, hf]

theorem takeTurn_free {s : State} {n : Nat} (h : s.sched = []) (hf : s.freeTurn = some n) :
    s.takeTurn = (freeAgent n, { s with freeTurn := some (n + 1) }) := by rw [State.takeTurn, h, hf]

/-- Taking a turn changes the turns to come alone. -/
theorem takeTurn_state (s : State) : ∃ l f, s.takeTurn.2 = s.withTurns l f := by
  rcases hs : s.sched with _ | ⟨a, rest⟩
  · rcases hf : s.freeTurn with _ | n
    · rw [takeTurn_default hs hf]
      exact ⟨s.sched, s.freeTurn, rfl⟩
    · rw [takeTurn_free hs hf]
      exact ⟨s.sched, some (n + 1), rfl⟩
  · rw [takeTurn_listed hs]
    exact ⟨rest, s.freeTurn, rfl⟩

/-! ### What a step can do -/

/-- Everything an agent's step can do: pass while IDLE, a host step, a completion, or a reset. -/
theorem agentStep_next {a : Agent} {s t : State} (h : agentStep a s = .next t) :
    (a = .engine ∧ t = s ∧ s.phase = .idle) ∨ (a = .host ∧ hostStep s = .next t) ∨
      (a = .engine ∧ ∃ snap, s.phase = .busy snap ∧ exec (decode snap.cmd) s = .next t) ∨
      (a = .environment ∧ t = s.deviceReset) := by
  cases a with
  | host => exact .inr (.inl ⟨rfl, h⟩)
  | engine =>
    cases hp : s.phase with
    | idle =>
      simp only [agentStep, State.runningWord, hp] at h
      exact .inl ⟨rfl, (Host.Outcome.next.inj h).symm, rfl⟩
    | busy snap =>
      simp only [agentStep, State.runningWord, hp] at h
      exact .inr (.inr (.inl ⟨rfl, snap, rfl, h⟩))
  | environment => exact .inr (.inr (.inr ⟨rfl, (Host.Outcome.next.inj h).symm⟩))

/-- Everything a step can do: what one agent's step can do, in the state without the turn it takes. -/
theorem step_next {s t : State} (h : step s = .next t) :
    ∃ l f, (t = s.withTurns l f ∧ s.phase = .idle) ∨ hostStep (s.withTurns l f) = .next t ∨
      (∃ snap, s.phase = .busy snap ∧ exec (decode snap.cmd) (s.withTurns l f) = .next t) ∨
      t = (s.withTurns l f).deviceReset := by
  obtain ⟨l, f, hs⟩ := takeTurn_state s
  rw [step, hs] at h
  refine ⟨l, f, ?_⟩
  rcases agentStep_next h with ⟨-, h⟩ | ⟨-, h⟩ | ⟨-, h⟩ | ⟨-, h⟩
  · exact .inl h
  · exact .inr (.inl h)
  · exact .inr (.inr (.inl h))
  · exact .inr (.inr (.inr h))

/-- A run of `k + 1` steps is a step and a run of `k`. -/
theorem core_run_next {k : Nat} {s t : State} (h : step s = .next t) :
    Sys2Proof.core.run (k + 1) s = Sys2Proof.core.run k t := by
  simp only [Host.Core.run, show Sys2Proof.core.step s = .next t from h]

/-! ### The turns to come are not looked at by an agent's step -/

section WithTurns

variable (s : State) (l : List Agent) (f : Option Nat)

theorem writeReg_withTurns (r : Reg) (v : Word) :
    (s.withTurns l f).writeReg r v = (s.writeReg r v).withTurns l f := by
  have hb : (s.withTurns l f).isBusy = s.isBusy := rfl
  cases r <;> simp only [State.writeReg, State.writeCtrl, hb] <;> first | rfl | (split_ifs <;> rfl)

theorem memRead_withTurns (n : Width) (off : Offset) : (s.withTurns l f).memRead n off = s.memRead n off := by
  have hr : ∀ r, (s.withTurns l f).readReg r = s.readReg r := fun r => by cases r <;> rfl
  have hp : (s.withTurns l f).params = s.params := rfl
  have hb : (s.withTurns l f).isBusy = s.isBusy := rfl
  simp only [State.memRead, hr, hp, hb, State.withTurns_kbuf, State.withTurns_ibuf, State.withTurns_obuf]

theorem memWrite_withTurns (n : Width) (off : Offset) (v : Word) :
    (s.withTurns l f).memWrite n off v = (s.memWrite n off v).map fun t => t.withTurns l f := by
  have hp : (s.withTurns l f).params = s.params := rfl
  have hb : (s.withTurns l f).isBusy = s.isBusy := rfl
  unfold State.memWrite
  rw [hp, hb]
  rcases locate s.params off.toNat n.bytes with _ | r | k | k | k
  · rfl
  · exact congrArg some (writeReg_withTurns s l f r v)
  · cases s.isBusy <;> rfl
  · cases s.isBusy <;> rfl
  · rfl

theorem hostWrite_withTurns (n : Width) (off : Offset) (v : Word) :
    hostWrite (s.withTurns l f) n off v = (hostWrite s n off v).withTurns l f := by
  unfold hostWrite
  rw [memWrite_withTurns]
  cases s.memWrite n off v <;> rfl

theorem hostRead_withTurns (n : Width) (off : Offset) (x : Nat) :
    hostRead (s.withTurns l f) n off x = (hostRead s n off x).withTurns l f := by
  unfold hostRead
  rw [memRead_withTurns]
  rcases s.memRead n off with _ | v | bs
  · rfl
  · rfl
  · simp only [State.withTurns_freeCtr]
    split_ifs <;> rfl

variable {s}

/-- What a host step does, it does whatever turns are to come. -/
theorem hostStep_withTurns {t : State} (h : hostStep s = .next t) :
    hostStep (s.withTurns l f) = .next (t.withTurns l f) := by
  have hl : (s.withTurns l f).hostLine = s.hostLine := rfl
  have hv : (s.withTurns l f).host = s.host := rfl
  unfold hostStep hostBranch at h ⊢
  rw [hl, hv]
  split at h
  · rw [Host.Outcome.next.inj h]
  · split at h
    · cases h
    · rw [hostWrite_withTurns, Host.Outcome.next.inj h]
  · rw [hostRead_withTurns, Host.Outcome.next.inj h]
  · obtain rfl := Host.Outcome.next.inj h
    rfl
  · split at h
    · cases h
    · split_ifs at h ⊢
      · obtain rfl := Host.Outcome.next.inj h
        rfl
      · split at h
        · cases h
        · obtain rfl := Host.Outcome.next.inj h
          rfl

/-- What a completion does, it does whatever turns are to come. -/
theorem exec_withTurns {i : Instr} {t : State} (h : exec i s = .next t) :
    exec i (s.withTurns l f) = .next (t.withTurns l f) := by
  obtain ⟨snap, hp, rfl⟩ := exec_next h
  rw [exec_busy (s := s.withTurns l f) hp]
  have hb : (s.withTurns l f).params = s.params := rfl
  rw [hb]
  rcases commandBody s.params i snap with (c | _) | (_ | out) <;> rfl

/-- What an agent's step does, it does whatever turns are to come. -/
theorem agentStep_withTurns {a : Agent} {t : State} (h : agentStep a s = .next t) :
    agentStep a (s.withTurns l f) = .next (t.withTurns l f) := by
  rcases agentStep_next h with ⟨rfl, rfl, hp⟩ | ⟨rfl, h⟩ | ⟨rfl, snap, hp, h⟩ | ⟨rfl, rfl⟩
  · simp only [agentStep, State.runningWord, State.withTurns_phase, hp]
  · exact hostStep_withTurns l f h
  · simp only [agentStep, State.runningWord, State.withTurns_phase, hp]
    exact exec_withTurns l f h
  · rfl

end WithTurns

end Sys2Proof.Machine
end

