-- ==== Sys2Proof/Laws/Undefined.lean ====
section
/-! SUPPORT. Undefined reads: for each reading of an operand, exactly when it meets a POISON byte; and that a command
completes with free values exactly when its body does. -/

namespace Sys2Proof.Machine

/-! ### Computations in a row -/

/-- Two computations in a row read a POISON byte exactly when the first does, or gives a result with which the second
does. -/
theorem body_bind_undef {α β : Type} {r : Body α} {f : α → Body β} :
    (r >>= f) = .error .undefRead ↔ r = .error .undefRead ∨ ∃ a, r = .ok a ∧ f a = .error .undefRead := by
  cases r <;> simp

theorem failWith_ne_undef {α : Type} (c : ErrCode) : (failWith c : Body α) ≠ .error .undefRead := by
  simp [failWith]

@[simp] theorem demand_eq_undef {c : Option Byte} : demand c = .error .undefRead ↔ c = none := by
  cases c <;> simp [demand]

@[simp] theorem demand_eq_ok {c : Option Byte} {b : Byte} : demand c = .ok b ↔ c = some b := by
  cases c <;> simp [demand]

/-! ### Reading an operand -/

theorem demandAll_eq_undef {cs : List (Option Byte)} : demandAll cs = .error .undefRead ↔ none ∈ cs := by
  refine ⟨fun h => ?_, demandAll_undef⟩
  induction cs with
  | nil => cases h
  | cons c cs ih =>
    rw [demandAll, body_bind_undef] at h
    rcases h with h | ⟨b, -, h⟩
    · simp [demand_eq_undef.mp h]
    · rcases body_bind_undef.mp h with h | ⟨_, -, h⟩
      · exact List.mem_cons_of_mem _ (ih h)
      · cases h

theorem demandEqual_eq_ok {p : Byte} {cs : List (Option Byte)} :
    demandEqual p cs = .ok () ↔ cs = List.replicate cs.length (some p) := by
  induction cs with
  | nil => exact ⟨fun _ => rfl, fun _ => rfl⟩
  | cons c cs ih =>
    rw [List.length_cons, List.replicate_succ, List.cons.injEq, ← ih, demandEqual]
    cases c with
    | none => simp
    | some b =>
      rw [demand_some, body_pure_bind]
      split_ifs with h
      · simp [h]
      · simp [failWith, h]

/-- Check 4 of `unpad` reads a POISON byte exactly where nothing but `p` comes before it. -/
theorem demandEqual_eq_undef {p : Byte} {cs : List (Option Byte)} :
    demandEqual p cs = .error .undefRead ↔ ∃ n rest, cs = List.replicate n (some p) ++ none :: rest := by
  induction cs with
  | nil => simp [demandEqual]
  | cons c cs ih =>
    cases c with
    | none => exact ⟨fun _ => ⟨0, cs, rfl⟩, fun _ => rfl⟩
    | some b =>
      rw [demandEqual, demand_some, body_pure_bind]
      split_ifs with h
      · subst h
        rw [ih]
        constructor
        · rintro ⟨n, rest, rfl⟩
          exact ⟨n + 1, rest, rfl⟩
        · rintro ⟨_ | n, rest, he⟩
          · cases he
          · exact ⟨n, rest, (List.cons.inj he).2⟩
      · refine ⟨fun he => absurd he (failWith_ne_undef _), ?_⟩
        rintro ⟨_ | n, rest, he⟩
        · cases he
        · exact absurd (Option.some.inj (List.cons.inj he).1) h

/-- UNPAD's reading meets a POISON byte exactly where `UnpadReadsPoison` says. -/
theorem unpadOperand_eq_undef {d : List (Option Byte)} :
    unpadOperand d = .error .undefRead ↔ UnpadReadsPoison d := by
  unfold unpadOperand UnpadReadsPoison
  rcases hd : d.getLast? with _ | _ | p
  · simp [failWith]
  · simp
  · have hr : padByteInRange p = true ↔ 1 ≤ p.toNat ∧ p.toNat ≤ 16 := by simp [padByteInRange]
    have hb : ∀ h : p.toNat ≤ d.length,
        ((demandEqual p (d.drop (d.length - p.toNat)) >>= fun _ => demandAll (d.take (d.length - p.toNat))) =
          .error .undefRead ↔
        (∃ n rest, d.drop (d.length - p.toNat) = List.replicate n (some p) ++ none :: rest) ∨
          (d.drop (d.length - p.toNat) = List.replicate p.toNat (some p) ∧ none ∈ d.take (d.length - p.toNat))) := by
      intro h
      have hl : (d.drop (d.length - p.toNat)).length = p.toNat := by rw [List.length_drop]; omega
      have hok := demandEqual_eq_ok (p := p) (cs := d.drop (d.length - p.toNat))
      rw [hl] at hok
      rw [body_bind_undef, demandEqual_eq_undef, ← hok]
      exact or_congr Iff.rfl ⟨fun ⟨_, h₁, h₂⟩ => ⟨h₁, demandAll_eq_undef.mp h₂⟩,
        fun ⟨h₁, h₂⟩ => ⟨(), h₁, demandAll_eq_undef.mpr h₂⟩⟩
    simp only [demand_some, body_pure_bind, Option.some.injEq, reduceCtorEq, false_or, exists_eq_left', hr]
    split_ifs with h₁ h₂
    · exact iff_of_false (failWith_ne_undef _) fun h => absurd h.2.2.1 (by omega)
    · rw [hb (by omega)]
      exact ⟨fun h => ⟨h₁.1, h₁.2, by omega, h⟩, fun h => h.2.2.2⟩
    · exact iff_of_false (failWith_ne_undef _) fun h => h₁ ⟨h.1, h.2.1⟩

theorem hexval_ne_none {c : Byte} {v : Byte} (h : hexval c = some v) : ∃ n, IsHexDigit c n :=
  ⟨v.toNat, hexval_eq_some.mp h⟩

/-- Reading a text's digits meets a POISON character exactly where nothing but digits comes before it. -/
theorem demandHexvals_eq_undef {e : ErrCode} {t : List (Option Byte)} :
    demandHexvals e t = .error .undefRead ↔ ∃ (digits : List Byte) (rest : List (Option Byte)),
      t = digits.map some ++ none :: rest ∧ ∀ c ∈ digits, ∃ v, IsHexDigit c v := by
  induction t with
  | nil => simp [demandHexvals]
  | cons x xs ih =>
    cases x with
    | none => exact ⟨fun _ => ⟨[], xs, rfl, by simp⟩, fun _ => rfl⟩
    | some b =>
      rw [demandHexvals, demand_some, body_pure_bind]
      cases hv : hexval b with
      | none =>
        refine ⟨fun h => absurd h (failWith_ne_undef _), ?_⟩
        rintro ⟨_ | ⟨c, cs⟩, rest, he, hc⟩
        · cases he
        · obtain rfl := Option.some.inj (List.cons.inj he).1
          obtain ⟨v, hd⟩ := hc b (by simp)
          rw [hexval_of_isHexDigit hd] at hv
          cases hv
      | some v =>
        have hstep : (demandHexvals e xs >>= fun vs => (Except.ok (v :: vs) : Body (List Byte))) = .error .undefRead ↔
            demandHexvals e xs = .error .undefRead := by rw [body_bind_undef]; simp
        refine hstep.trans (ih.trans ?_)
        constructor
        · rintro ⟨ds, rest, rfl, hc⟩
          refine ⟨b :: ds, rest, rfl, fun c h => ?_⟩
          rcases List.mem_cons.mp h with rfl | h
          · exact hexval_ne_none hv
          · exact hc c h
        · rintro ⟨_ | ⟨c, cs⟩, rest, he, hc⟩
          · cases he
          · exact ⟨cs, rest, (List.cons.inj he).2, fun c h => hc c (by simp [h])⟩

/-- The hex decoder's reading meets a POISON character exactly where `HexReadsPoison` says. -/
theorem hexdecOperand_eq_undef {e : ErrCode} {t : List (Option Byte)} :
    hexdecOperand e t = .error .undefRead ↔ HexReadsPoison t := by
  unfold hexdecOperand HexReadsPoison
  split_ifs with h
  · exact iff_of_false (failWith_ne_undef _) fun hu => h hu.1
  · rw [← demandHexvals_eq_undef (e := e), body_bind_undef]
    simp only [pure, Except.pure, reduceCtorEq, and_false, exists_false, or_false]
    exact ⟨fun hu => ⟨not_not.mp h, hu⟩, fun hu => hu.2⟩

/-- The key decoder reads no more than the hex decoder does. -/
theorem keydecOperand_eq_undef {t : List (Option Byte)} : keydecOperand t = .error .undefRead ↔ HexReadsPoison t := by
  rw [keydecOperand, body_bind_undef, hexdecOperand_eq_undef]
  refine or_iff_left ?_
  rintro ⟨r, -, h⟩
  unfold checkKeyLength at h
  split_ifs at h
  exact failWith_ne_undef _ h

theorem demandHexvals_eq_ok {e : ErrCode} {t : List (Option Byte)} {vs : List Byte} (h : demandHexvals e t = .ok vs) :
    ∃ d : List Byte, t = d.map some := by
  induction t generalizing vs with
  | nil => exact ⟨[], rfl⟩
  | cons x xs ih =>
    cases x with
    | none => cases h
    | some b =>
      rw [demandHexvals, demand_some, body_pure_bind] at h
      split at h
      · cases h
      · obtain ⟨us, hu, -⟩ := body_bind_ok h
        obtain ⟨d, rfl⟩ := ih hu
        exact ⟨b :: d, rfl⟩

/-- A key text is accepted only where every character is defined, and then as `keydec` accepts it. -/
theorem keydecOperand_eq_ok {t : List (Option Byte)} {key : List Byte} :
    keydecOperand t = .ok key ↔ ∃ kt : List Byte, t = kt.map some ∧ keydec kt = .ok key := by
  constructor
  · intro h
    obtain ⟨r, hr, -⟩ := body_bind_ok h
    have hd : ∃ d : List Byte, t = d.map some := by
      unfold hexdecOperand at hr
      split_ifs at hr
      · cases hr
      · obtain ⟨vs, hv, -⟩ := body_bind_ok hr
        exact demandHexvals_eq_ok hv
    obtain ⟨kt, rfl⟩ := hd
    exact ⟨kt, rfl, by rw [← keydecOperand_map_some, h]⟩
  · rintro ⟨kt, rfl, h⟩
    rw [keydecOperand_map_some, h]

/-- The lanes of a block read a POISON byte exactly where the block, or the key byte of one of its lanes, is one. -/
theorem keyedLanes_eq_undef {f : Byte → Byte → Byte} {k b : List (Option Byte)} {i : Nat}
    (hb : i + b.length ≤ k.length) :
    keyedLanes f k i b = .error .undefRead ↔ none ∈ b ∨ none ∈ (k.drop i).take b.length := by
  induction b generalizing i with
  | nil => simp [keyedLanes]
  | cons c cs ih =>
    rw [List.length_cons] at hb
    have hi : i < k.length := by omega
    have ih' := ih (i := i + 1) (by omega)
    rw [List.drop_eq_getElem_cons hi, List.length_cons, List.take_succ_cons, List.mem_cons, List.mem_cons, keyedLanes,
      Nat.mod_eq_of_lt hi, List.getD_eq_getElem?_getD, List.getElem?_eq_getElem hi, Option.getD_some]
    cases c with
    | none => simp
    | some x =>
      rw [demand_some, body_pure_bind]
      cases hk : k[i] with
      | none => simp
      | some y =>
        rw [demand_some, body_pure_bind, body_bind_undef, ih']
        simp [pure, Except.pure]

/-- The body of XFORM and IXFORM reads a POISON byte exactly where its checks pass and one of the bytes 0 to 15 of the
block or of the key is one. -/
theorem blockBody_eq_undef {f : Byte → Byte → Byte} {snap : Snapshot} :
    blockBody f snap = .error .undefRead ↔ snap.ilen.toNat = 16 ∧ 16 ≤ snap.klen.toNat ∧
      (none ∈ snap.ibuf.slice 16 ∨ none ∈ snap.kbuf.slice 16) := by
  unfold blockBody keyedBlockOperand
  rw [Snapshot.key_length, Snapshot.input_length]
  split_ifs with h₁ h₂
  · exact iff_of_false (failWith_ne_undef _) fun h => h₁ h.1
  · have h₁ : snap.ilen.toNat = 16 := not_not.mp h₁
    refine iff_of_false (fun h => ?_) fun h => absurd h.2.1 (by omega)
    rcases body_bind_undef.mp h with h | ⟨_, h, -⟩
    · exact failWith_ne_undef _ h
    · cases h
  · have h₁ : snap.ilen.toNat = 16 := not_not.mp h₁
    have h₃ : 16 ≤ snap.klen.toNat := by omega
    have hl := keyedLanes_eq_undef (f := f) (k := snap.key) (b := snap.input) (i := 0) (by simp; omega)
    rw [List.drop_zero, Snapshot.input_length, h₁, Snapshot.key, Memory.slice_take _ h₃, Snapshot.input, h₁] at hl
    rw [body_bind_undef, Snapshot.key, Snapshot.input, h₁, hl]
    simp [pure, Except.pure, h₃]

/-! ### Commands -/

/-- A command completes with free values exactly when its body reads a POISON byte. -/
theorem completesUndefined_iff {i : Instr} {s : State} {snap : Snapshot} (hp : s.phase = .busy snap) :
    CompletesUndefined i s ↔ commandBody s.params i snap = .error .undefRead := by
  refine ⟨?_, completesUndefined_of_body hp⟩
  rintro ⟨t, ht, -, -, -, -, -, -, -, -, hf⟩
  rw [exec_busy hp] at ht
  obtain rfl := Host.Outcome.next.inj ht
  rcases hb : commandBody s.params i snap with (c | _) | (_ | out)
  · rw [hb] at hf
    simp [State.complete] at hf
  · rfl
  · rw [hb] at hf
    simp [State.complete] at hf
  · rw [hb] at hf
    simp [State.complete] at hf

/-- A capacity check reads no byte. -/
theorem capacityCheck_bind_undef {α : Type} {p : Params} {i : Instr} {snap : Snapshot} {f : Unit → Body α} :
    (capacityCheck p i snap >>= f) = .error .undefRead ↔
      overCapacity p i snap.ilen.toNat snap.klen.toNat = false ∧ f () = .error .undefRead := by
  cases h : overCapacity p i snap.ilen.toNat snap.klen.toNat with
  | false => rw [capacityCheck_ok h, body_pure_bind]; simp
  | true => rw [capacityCheck_over h]; simp [failWith]

end Sys2Proof.Machine
end

