-- ==== Sys2Proof/Tests/Slice0.lean ====
section
/-! SUPPORT. Small tests. Expected values come from spec/95_test_vectors.md (the vector is named at each test) and
spec/30_encoding.md; then a witness for every statement that has hypotheses. -/

namespace Sys2Proof.Tests

open Sys2Proof.Machine

/-! ### Small states -/

/-- The characters of an ASCII text as bytes (00_scope.md R14). -/
def ascii (cs : List Char) : List Byte := cs.map fun c => BitVec.ofNat 8 c.toNat

/-- Key text `Z` of 95_test_vectors.md: 64 characters 0. -/
def zeroKey : List Byte := List.replicate 64 0x30#8

/-- The snapshot of command `w` with these lengths, IBUF and KBUF bytes. -/
def snapOf (w : Word) (ilen klen : Nat) (d k : List Byte) : Snapshot :=
  { cmd := w, ilen := BitVec.ofNat 32 ilen, klen := BitVec.ofNat 32 klen, ibuf := Memory.ofBytes d,
    kbuf := Memory.ofBytes k }

/-- The idle state with these lengths and bytes, from reset. -/
def loaded (ilen klen : Nat) (d k : List Byte) : State :=
  { State.reset with
    ilen := BitVec.ofNat 32 ilen
    klen := BitVec.ofNat 32 klen
    ibuf := Memory.ofBytes d
    kbuf := Memory.ofBytes k }

/-- The state in which command `w` runs on these lengths and bytes. -/
def running (w : Word) (ilen klen : Nat) (d k : List Byte) : State := (loaded ilen klen d k).startCommand w

/-- The state of an outcome that goes on. -/
def after : Host.Outcome State Fault Refusal → Option State
  | .next t => some t
  | .fault _ => none
  | .refused _ => none

/-- STATUS and OBUF[0..OLEN) after a command, on these lengths and bytes. -/
def outcome (i : Instr) (ilen klen : Nat) (d k : List Byte) : Option (Word × List (Option Byte)) :=
  (after (exec i (running (encode i) ilen klen d k))).map fun t => (t.statusWord, t.obuf.slice t.olen.toNat)

/-- `outcome` of a command that succeeds with `out`. -/
def success (out : List Byte) : Option (Word × List (Option Byte)) := some (0x00000002#32, out.map some)

/-- `outcome` of a command that fails: STATUS as given, nothing in OBUF[0..0). -/
def failure (status : Word) : Option (Word × List (Option Byte)) := some (status, [])

/-! ### Decoding: words written out bit by bit from 30_encoding.md R300 to R302 -/

theorem test_decode_nop : decode 0b00000000000000000000000000000000#32 = .nop := by decide
theorem test_decode_pad : decode 0b00000000000000000000000000000001#32 = .pad := by decide
theorem test_decode_unpad : decode 0b00000000000000000000000000000010#32 = .unpad := by decide
theorem test_decode_xform : decode 0b00000000000000000000000000000011#32 = .xform := by decide
theorem test_decode_ixform : decode 0b00000000000000000000000000000100#32 = .ixform := by decide
theorem test_decode_hexenc : decode 0b00000000000000000000000000000101#32 = .hexenc := by decide
theorem test_decode_hexdec : decode 0b00000000000000000000000000000110#32 = .hexdec := by decide
theorem test_decode_keydec : decode 0b00000000000000000000000000000111#32 = .keydec := by decide
theorem test_decode_encrypt : decode 0b00000000000000000000000000001000#32 = .encrypt := by decide
theorem test_decode_decrypt : decode 0b00000000000000000000000000001001#32 = .decrypt := by decide
theorem test_decode_illegalAB : decode 0b00000000000000000000000000001011#32 = .illegalAB 1#1 := by decide
theorem test_decode_illegalCF : decode 0b00000000000000000000000000001101#32 = .illegalCF 1#2 := by decide
theorem test_decode_illegalRsv : decode 0b00000000000000000000000100000001#32 = .illegalRsv 1#4 0x10#28 := by decide

theorem test_decodeTableWord : decodeTableWord 32 9 = some .decrypt ∧ decodeTableWord 40 (2 ^ 32) = none := by decide

/-! ### Well-formedness: the one check, and a term it refuses -/

theorem test_wellFormed_refuses_rsv_zero :
    (Instr.illegalRsv 0x8#4 0#28).wellFormed = false ∧ (Instr.illegalRsv 0x8#4 1#28).wellFormed = true := by decide

/-! ### One step of each command -/

/-- 40_lifecycle.md R409. -/
theorem test_nop : outcome .nop 8193 0 [] [] = success [] := by decide
/-- V-PD3. -/
theorem test_pad : outcome .pad 2 0 [0x48#8, 0x49#8] [] = success ([0x48#8, 0x49#8] ++ List.replicate 14 0x0E#8) := by
  decide
/-- V-PD8. -/
theorem test_pad_over : outcome .pad 8193 0 [] [] = failure 0x00000A06#32 := by decide
/-- V-UP9. -/
theorem test_unpad : outcome .unpad 3 0 [0x41#8, 0x02#8, 0x01#8] [] = success [0x41#8, 0x02#8] := by decide
/-- V-UP4. -/
theorem test_unpad_short : outcome .unpad 2 0 [0x05#8, 0x05#8] [] = failure 0x00000606#32 := by decide
/-- V-XF7: the addition wraps. -/
theorem test_xform : outcome .xform 16 16 (List.replicate 16 0xF9#8) (List.replicate 16 0#8) =
    success (List.replicate 16 0#8) := by decide
/-- V-XF5: the block size is checked before the key length. -/
theorem test_xform_order : outcome .xform 15 0 (List.replicate 15 0#8) [] = failure 0x00000506#32 := by decide
/-- V-XF12: the key byte is the one at the data byte's place. -/
theorem test_ixform : outcome .ixform 16 32 ((List.range 16).map (BitVec.ofNat 8)) ((List.range 32).map (BitVec.ofNat 8)) =
    success [0xF9#8, 0x38#8, 0x7B#8, 0xBA#8, 0xFE#8, 0x3F#8, 0x7C#8, 0xBD#8, 0xF3#8, 0x32#8, 0x71#8, 0xB0#8, 0xF0#8,
      0x31#8, 0x72#8, 0xB3#8] := by decide
/-- V-XF3 for IXFORM: 42_transform.md R447. -/
theorem test_ixform_key : outcome .ixform 16 15 (List.replicate 16 0#8) (List.replicate 15 0#8) =
    failure 0x00000306#32 := by decide
/-- V-HE1. -/
theorem test_hexenc : outcome .hexenc 5 0 [0x00#8, 0xFF#8, 0x3D#8, 0x41#8, 0xA0#8] [] =
    success (ascii ['0', '0', 'f', 'f', '3', 'd', '4', '1', 'a', '0']) := by decide
/-- V-HD2: capital digits are accepted. -/
theorem test_hexdec : outcome .hexdec 4 0 (ascii ['3', 'D', '4', '1']) [] = success [0x3D#8, 0x41#8] := by decide
/-- V-HD3. -/
theorem test_hexdec_odd : outcome .hexdec 3 0 (ascii ['3', 'd', '4']) [] = failure 0x00000406#32 := by decide

/-- V-KD2: the key text K1. -/
theorem test_keydec : outcome .keydec 0 64 [] (hexenc ((List.range 32).map (BitVec.ofNat 8))) =
    success ((List.range 32).map (BitVec.ofNat 8)) := by decide +kernel
/-- V-KD10: the format is checked before the length. -/
theorem test_keydec_order : outcome .keydec 0 67 [] (List.replicate 66 0x30#8 ++ [0x7A#8]) = failure 0x00000106#32 := by
  decide +kernel
/-- V-EN9: key K1. -/
theorem test_encrypt : outcome .encrypt 2 64 [0x48#8, 0x49#8] (hexenc ((List.range 32).map (BitVec.ofNat 8))) =
    success (ascii ['3', 'd', '3', 'd', '4', 'c', '5', '0', '4', '4', '4', '8', '3', 'c', '4', '0', '3', '4', '3', '8',
      '2', 'c', '3', '0', '2', '4', '2', '8', '1', 'c', '2', '0']) := by decide +kernel
/-- V-EN14: the key's error, with a plaintext that is not read. -/
theorem test_encrypt_key : outcome .encrypt 2 63 [] (List.replicate 63 0x30#8) = failure 0x00000106#32 := by
  decide +kernel

/-- FX of 95_test_vectors.md. -/
def fixture : List Byte :=
  ascii (['3', 'd', '4', '1'] ++ (List.replicate 14 ['5', '4']).flatten)

/-- V-DE4: a doubled separator, and only the last block's padding removed. -/
theorem test_decrypt : outcome .decrypt 66 64 (fixture ++ [0x2C#8, 0x2C#8] ++ fixture) zeroKey =
    success ([0x48#8, 0x49#8] ++ List.replicate 14 0x0E#8 ++ [0x48#8, 0x49#8]) := by decide +kernel
/-- V-DE13: segment 0 fails its size check before segment 1's hex check. -/
theorem test_decrypt_order : outcome .decrypt 33 64 (fixture.take 30 ++ [0x2C#8, 0x7A#8, 0x7A#8]) zeroKey =
    failure 0x00000506#32 := by decide +kernel
/-- V-LC7. -/
theorem test_illegalAB : outcome (.illegalAB 0#1) 0xFFFFFFFF 0 [] [] = failure 0x00000906#32 := by decide
/-- V-LC4. -/
theorem test_illegalCF : outcome (.illegalCF 3#2) 0 0 [] [] = failure 0x00000906#32 := by decide
/-- V-LC6. -/
theorem test_illegalRsv : outcome (.illegalRsv 8#4 0x8000000#28) 2 64 [0x48#8, 0x49#8] zeroKey = failure 0x00000906#32 := by
  decide +kernel

/-- 44_codec.md R482 at the edges of its rows: the shortest and longest of a row, a surrogate, a truncation. -/
theorem test_utf8 :
    utf8Valid [0xED#8, 0x9F#8, 0xBF#8] = true ∧ utf8Valid [0xF4#8, 0x8F#8, 0xBF#8, 0xBF#8] = true ∧
    utf8Valid [0xC1#8, 0xBF#8] = false ∧ utf8Valid [0xED#8, 0xA0#8, 0x80#8] = false ∧ utf8Valid [0xE2#8, 0x82#8] = false := by
  decide

/-! ### The bus and the step -/

/-- V-BU4 and V-BU5: little-endian writes of two widths over the same bytes. -/
theorem test_little_endian :
    ((State.reset.memWrite .w32 0x4000#16 0x44434241#32).bind fun t => t.memWrite .w16 0x4002#16 0xBEEF#32).map
      (fun t => t.memRead .w32 0x4000#16) = some (.bytes [some 0x41#8, some 0x42#8, some 0xEF#8, some 0xBE#8]) := by
  decide +kernel

/-- V-BU6, V-BU7, V-BU8 and V-BU9. -/
theorem test_bus_errors :
    State.reset.memRead .w16 0x4001#16 = .busError ∧ State.reset.memRead .w8 0x0004#16 = .busError ∧
    State.reset.memRead .w32 0x0028#16 = .busError ∧ State.reset.memRead .w8 0x0180#16 = .busError := by decide

/-- V-BU15: W1C clears DONE and BUSYWR and keeps ERRCODE. -/
theorem test_acknowledge :
    (({ State.reset with done := true, busywr := true, errcode := .illegalCommand } : State).memWrite .w32 0x0008#16
      0xFFFFFFFF#32).map State.statusWord = some 0x00000904#32 := by decide

/-- The first step after a command word is placed runs that command (V-LC3). -/
theorem test_step_runs_placed_word :
    (after (step (State.reset.withFetchWord 32 0x0000000A))).map (fun t => (t.statusWord, t.cmd)) =
      some (0x00000906#32, 0x0000000A#32) := by decide

/-- 70_reset_and_hazards.md R726: PAD of an IBUF that nothing has written. -/
theorem test_undefined_read :
    (after (exec .pad (running 1#32 1 0 [] []))).map (fun t => (t.faults.undefReadEngine, t.obuf.slice 2)) =
      some (true, [none, none]) := by decide

/-! ### Witnesses

One theorem for each statement of Certificates/Slice0/Obligations.lean that has hypotheses, under its name: a state and
operands that meet the hypotheses together, for each clause, at the boundary where clauses meet. -/

/-- "HI". -/
abbrev hi : List Byte := [0x48#8, 0x49#8]

/-- A state runs a snapshot, with sizes in range: the hypotheses every statement about a running command has. -/
def Runs (s : State) (snap : Snapshot) : Prop := s.params.Ok ∧ s.phase = .busy snap

theorem runs (w : Word) (ilen klen : Nat) (d k : List Byte) :
    Runs (running w ilen klen d k) (snapOf w ilen klen d k) :=
  ⟨show Params.default.Ok by decide, rfl⟩

theorem witness_DecodeOfEncodeIsTheCommand :
    (Instr.illegalRsv 0#4 1#28).wellFormed = true ∧ (Instr.illegalCF 3#2).wellFormed = true := by decide

theorem witness_EveryWordFromTenUpIsIllegal : (9#32).toNat ≤ 9 ∧ 10 ≤ (10#32).toNat := by decide

theorem witness_CmdWriteStartsACommandWhenIdle :
    State.reset.phase = .idle ∧ (running 8#32 2 64 hi zeroKey).phase = .busy (snapOf 8#32 2 64 hi zeroKey) ∧
    (loaded 2 64 hi zeroKey).memWrite .w32 0x000C#16 8#32 = some (running 8#32 2 64 hi zeroKey) := ⟨rfl, rfl, rfl⟩

theorem witness_NopCompletesWithoutData : Runs (running 0#32 8193 0 [] []) (snapOf 0#32 8193 0 [] []) := runs ..

/-- The least word of each form, and NOP's word with bit 4 set. -/
theorem witness_IllegalCommandsCompleteWithIllegalCommand :
    Runs (running 0xA#32 0 0 [] []) (snapOf 0xA#32 0 0 [] []) ∧ 10 ≤ (0xA#32).toNat % 16 ∧ (0x10#32).toNat / 16 ≠ 0 :=
  ⟨runs .., by decide, by decide⟩

theorem witness_PadCommandAppendsPadding :
    (Runs (running 1#32 2 0 hi []) (snapOf 1#32 2 0 hi []) ∧
      (snapOf 1#32 2 0 hi []).ilen.toNat ≤ Params.default.ibufBytes ∧ (snapOf 1#32 2 0 hi []).input = hi.map some) ∧
    (snapOf 1#32 8192 0 [] []).ilen.toNat ≤ Params.default.ibufBytes ∧
    (Runs (running 1#32 8193 0 [] []) (snapOf 1#32 8193 0 [] []) ∧
      Params.default.ibufBytes < (snapOf 1#32 8193 0 [] []).ilen.toNat) :=
  ⟨⟨runs .., by decide, rfl⟩, by decide, runs .., by decide⟩

theorem witness_UnpadCommandCompletesAsUnpad :
    (Runs (running 2#32 2 0 hi []) (snapOf 2#32 2 0 hi []) ∧
      (snapOf 2#32 2 0 hi []).ilen.toNat ≤ Params.default.ibufBytes ∧ (snapOf 2#32 2 0 hi []).input = hi.map some) ∧
    (Runs (running 2#32 8193 0 [] []) (snapOf 2#32 8193 0 [] []) ∧
      Params.default.ibufBytes < (snapOf 2#32 8193 0 [] []).ilen.toNat) :=
  ⟨⟨runs .., by decide, rfl⟩, runs .., by decide⟩

/-- A block of 16 bytes with a raw key of exactly 16. -/
theorem block_operands (w : Word) :
    Runs (running w 16 16 (List.replicate 16 1#8) (List.replicate 16 2#8))
      (snapOf w 16 16 (List.replicate 16 1#8) (List.replicate 16 2#8)) ∧
    (snapOf w 16 16 (List.replicate 16 1#8) (List.replicate 16 2#8)).ilen = 16#32 ∧
    16 ≤ (snapOf w 16 16 (List.replicate 16 1#8) (List.replicate 16 2#8)).klen.toNat ∧
    (snapOf w 16 16 (List.replicate 16 1#8) (List.replicate 16 2#8)).ibuf.slice 16 = (List.replicate 16 1#8).map some ∧
    (snapOf w 16 16 (List.replicate 16 1#8) (List.replicate 16 2#8)).kbuf.slice 16 = (List.replicate 16 2#8).map some :=
  ⟨runs .., rfl, show 16 ≤ (16#32).toNat by decide, rfl, rfl⟩

/-- A block that is too long, one that is too short, a key that is too short, and lengths past the buffers. -/
theorem block_errors (w : Word) :
    ((snapOf w 17 16 [] []).ilen ≠ 16#32 ∧ (snapOf w 17 16 [] []).ilen.toNat ≤ Params.default.ibufBytes) ∧
    (snapOf w 15 16 [] []).ilen ≠ 16#32 ∧
    ((snapOf w 16 15 [] []).ilen = 16#32 ∧ (snapOf w 16 15 [] []).klen.toNat < 16) ∧
    Params.default.kbufBytes < (snapOf w 16 129 [] []).klen.toNat ∧
    (snapOf w 16 128 [] []).klen.toNat ≤ Params.default.kbufBytes := by
  refine ⟨⟨?_, ?_⟩, ?_, ⟨rfl, ?_⟩, ?_, ?_⟩ <;> simp [snapOf, Params.default]

theorem witness_XformCommandTransformsTheBlock :
    Runs (running 3#32 16 15 [] []) (snapOf 3#32 16 15 [] []) ∧
    (snapOf 3#32 16 16 (List.replicate 16 1#8) (List.replicate 16 2#8)).ilen = 16#32 ∧
    (snapOf 3#32 16 15 [] []).klen.toNat < 16 :=
  ⟨runs .., (block_operands 3#32).2.1, (block_errors 3#32).2.2.1.2⟩

theorem witness_IxformCommandInvertsTheBlock :
    Runs (running 4#32 16 15 [] []) (snapOf 4#32 16 15 [] []) ∧
    (snapOf 4#32 16 16 (List.replicate 16 1#8) (List.replicate 16 2#8)).ilen = 16#32 ∧
    (snapOf 4#32 16 15 [] []).klen.toNat < 16 :=
  ⟨runs .., (block_operands 4#32).2.1, (block_errors 4#32).2.2.1.2⟩

theorem witness_HexencCommandEncodes :
    (Runs (running 5#32 2 0 hi []) (snapOf 5#32 2 0 hi []) ∧
      (snapOf 5#32 2 0 hi []).ilen.toNat ≤ Params.default.ibufBytes ∧ (snapOf 5#32 2 0 hi []).input = hi.map some) ∧
    Params.default.ibufBytes < (snapOf 5#32 8193 0 [] []).ilen.toNat :=
  ⟨⟨runs .., by decide, rfl⟩, by decide⟩

/-- A valid text and an invalid one. -/
theorem witness_HexdecCommandDecodes :
    (Runs (running 6#32 2 0 (ascii ['3', 'D']) []) (snapOf 6#32 2 0 (ascii ['3', 'D']) []) ∧
      (snapOf 6#32 2 0 (ascii ['3', 'D']) []).input = (ascii ['3', 'D']).map some) ∧
    hexdec (ascii ['3', 'D']) = some [0x3D#8] ∧ hexdec (ascii ['3', 'g']) = none ∧
    Params.default.ibufBytes < (snapOf 6#32 8193 0 [] []).ilen.toNat :=
  ⟨⟨runs .., rfl⟩, by decide, by decide, by decide⟩

theorem witness_KeydecCommandDecodesTheKey :
    (Runs (running 7#32 0 64 [] zeroKey) (snapOf 7#32 0 64 [] zeroKey) ∧
      (snapOf 7#32 0 64 [] zeroKey).klen.toNat ≤ Params.default.kbufBytes ∧
      (snapOf 7#32 0 64 [] zeroKey).key = zeroKey.map some) ∧
    Params.default.kbufBytes < (snapOf 7#32 0 129 [] []).klen.toNat := by
  refine ⟨⟨runs .., ?_, ?_⟩, ?_⟩ <;> decide +kernel

/-- The largest input whose output fits, and the next one; a good key and the two kinds of bad one. -/
theorem witness_EncryptCommandEncrypts :
    (Runs (running 8#32 2 64 hi zeroKey) (snapOf 8#32 2 64 hi zeroKey) ∧
      (snapOf 8#32 2 64 hi zeroKey).key = zeroKey.map some ∧ (snapOf 8#32 2 64 hi zeroKey).input = hi.map some) ∧
    33 * ((snapOf 8#32 7935 64 [] []).ilen.toNat / 16 + 1) - 1 ≤ Params.default.obufBytes ∧
    Params.default.obufBytes < 33 * ((snapOf 8#32 7936 64 [] []).ilen.toNat / 16 + 1) - 1 ∧
    keydec zeroKey = .ok (List.replicate 32 0#8) ∧ keydec [] = failWith .invalidKeyLength ∧
    keydec [0x30#8] = failWith .invalidKeyFormat := by
  refine ⟨⟨runs .., ?_, ?_⟩, by decide, by decide, ?_, ?_, ?_⟩ <;> rfl

theorem witness_DecryptCommandDecrypts :
    (Runs (running 9#32 32 64 fixture zeroKey) (snapOf 9#32 32 64 fixture zeroKey) ∧
      (snapOf 9#32 32 64 fixture zeroKey).key = zeroKey.map some ∧
      (snapOf 9#32 32 64 fixture zeroKey).input = fixture.map some) ∧
    keydec zeroKey = .ok (List.replicate 32 0#8) ∧ keydec [] = failWith .invalidKeyLength := by
  refine ⟨⟨runs .., ?_, ?_⟩, ?_, ?_⟩ <;> rfl

theorem witness_PadHasItsProperties : ([] : List Byte).length % 16 = 0 ∧ (List.replicate 16 0x41#8).length % 16 = 0 := by
  decide

theorem witness_UnpadAppliesExactlyItsFourChecks :
    (∀ r, unpad [] ≠ .ok r) ∧ unpad [0x02#8, 0x02#8] = .ok [] := ⟨by rintro r ⟨⟩, rfl⟩

/-- An earlier padding byte (V-UP15); the last with p = 14 (V-UP18); the last with p = 1 (V-UP19). -/
theorem witness_TamperedPaddingIsDetectedExactly :
    (14 = 16 - hi.length % 16 ∧ hi.length ≤ 2 ∧ 2 < hi.length + 14 - 1 ∧ 0x0D#8 ≠ BitVec.ofNat 8 14) ∧
    (15 = hi.length + 14 - 1 ∧ 2 ≤ 14 ∧ 0x01#8 ≠ BitVec.ofNat 8 14) ∧
    (1 = 16 - (List.replicate 15 0x02#8).length % 16 ∧ 15 = (List.replicate 15 0x02#8).length + 1 - 1 ∧
      0x02#8 ≠ BitVec.ofNat 8 1 ∧
      (List.replicate 15 0x02#8).drop ((List.replicate 15 0x02#8).length - ((0x02#8).toNat - 1)) =
        List.replicate ((0x02#8).toNat - 1) 0x02#8) := by decide

theorem witness_ByteTransformsAreInverse : (0 < 1 ∧ 1 < 8) ∧ 0 < 7 ∧ 7 < 8 := by decide

theorem witness_BlockTransformsAreInverse :
    (List.replicate 16 1#8).length = 16 ∧ 16 ≤ (List.replicate 16 2#8).length := by decide

/-- Two blocks, and two keys, that agree at byte 15 only. -/
theorem witness_BlockFunctionsWorkLaneByLane :
    (List.replicate 16 1#8).length = 16 ∧ (List.replicate 15 0#8 ++ [1#8]).length = 16 ∧
    (List.replicate 16 1#8)[15]? = (List.replicate 15 0#8 ++ [1#8])[15]? ∧
    ∃ r r', transformBlock (List.replicate 16 1#8) (List.replicate 16 1#8) = .ok r ∧
      transformBlock (List.replicate 15 0#8 ++ [1#8]) (List.replicate 15 0#8 ++ [1#8]) = .ok r' :=
  ⟨rfl, rfl, rfl, _, _, rfl, rfl⟩

theorem witness_HexencGivesTwoLowercaseDigits : [0x3D#8, 0x41#8][1]? = some 0x41#8 := by decide

theorem witness_HexRoundTrips : hexdec (ascii ['3', 'D']) = some [0x3D#8] := by decide

/-- 63 digits; 62; 64; a character that is no digit. -/
theorem witness_KeydecChecksFormatThenLength :
    (List.replicate 63 0x30#8).length % 2 = 1 ∧ (List.replicate 62 0x30#8).length % 2 = 0 ∧
    (List.replicate 62 0x30#8).length ≠ 64 ∧ zeroKey.length = 64 ∧ (∀ v, ¬ IsHexDigit 0x67#8 v) ∧
    ∀ c ∈ zeroKey, ∃ v, IsHexDigit c v := by
  refine ⟨by decide, by decide, by decide, by decide, ?_, ?_⟩
  · intro v h
    simp [IsHexDigit] at h
  · intro c hc
    rw [List.eq_of_mem_replicate hc]
    exact ⟨0, .inl (by decide)⟩

theorem witness_SplitCutsAtSeparatorsAndSkipsEmptyPieces : [0x61#8] ≠ [] ∧ ∀ c ∈ [0x61#8], c ≠ 0x2C#8 := by decide

/-- A text that decrypts; one block that unpads to a byte that is no UTF-8; one whose last byte is no padding; the
texts of separators only, the empty one among them. -/
theorem witness_DecryptSucceedsExactlyWhenEveryStepDoes :
    (List.replicate 32 0#8).length = 32 ∧ decryptWith (List.replicate 32 0#8) fixture = .ok hi ∧
    List.Forall₂ (fun seg b => hexdec seg = some b ∧ b.length = 16) (split fixture)
      [[0x3D#8, 0x41#8] ++ List.replicate 14 0x54#8] ∧
    (unpad (0xFF#8 :: List.replicate 15 0x0F#8) = .ok [0xFF#8] ∧ utf8Valid [0xFF#8] = false) ∧
    (∀ p, unpad (List.replicate 16 0#8) ≠ .ok p) ∧ (∀ c ∈ ([] : List Byte), c = 0x2C#8) ∧
    ∀ c ∈ [0x2C#8, 0x2C#8], c = 0x2C#8 := by
  refine ⟨rfl, rfl, ?_, ⟨rfl, rfl⟩, ?_, by decide, by decide⟩
  · rw [show split fixture = [fixture] from rfl]
    exact .cons ⟨rfl, rfl⟩ .nil
  · rintro p ⟨⟩

/-- No segment before a text that is no hex; one good segment before a short one. -/
theorem witness_DecryptReportsTheFirstFailingSegment :
    (split [0x7A#8] = [] ++ [0x7A#8] :: [] ∧ hexdec [0x7A#8] = none) ∧
    split (fixture ++ [0x2C#8, 0x30#8, 0x30#8]) = [fixture] ++ [0x30#8, 0x30#8] :: [] ∧
    hexdec fixture = some ([0x3D#8, 0x41#8] ++ List.replicate 14 0x54#8) ∧ hexdec [0x30#8, 0x30#8] = some [0#8] := by
  decide +kernel

/-- A digit, and the separator between two segments (V-EN3). -/
theorem witness_EncryptOutputHasTheWireForm :
    (List.replicate 32 0#8).length = 32 ∧
    (cipherText (List.replicate 32 0#8) (List.replicate 16 0x41#8))[31]? = some 0x31#8 ∧
    (cipherText (List.replicate 32 0#8) (List.replicate 16 0x41#8))[32]? = some 0x2C#8 := by decide +kernel

/-- "HI" encrypted, and its ciphertext to decrypt under the same key; and a plaintext that is no UTF-8. -/
theorem witness_DecryptGivesBackWhatEncryptWasGiven :
    Runs (running 8#32 2 64 hi zeroKey) (snapOf 8#32 2 64 hi zeroKey) ∧
    Runs (running 9#32 32 64 fixture zeroKey) (snapOf 9#32 32 64 fixture zeroKey) ∧
    (running 9#32 32 64 fixture zeroKey).params = (running 8#32 2 64 hi zeroKey).params ∧
    (snapOf 8#32 2 64 hi zeroKey).key = zeroKey.map some ∧ (snapOf 9#32 32 64 fixture zeroKey).key = zeroKey.map some ∧
    (snapOf 8#32 2 64 hi zeroKey).input = hi.map some ∧
    (snapOf 9#32 32 64 fixture zeroKey).input = fixture.map some ∧
    keydec zeroKey = .ok (List.replicate 32 0#8) ∧ cipherText (List.replicate 32 0#8) hi = fixture ∧
    utf8Valid hi = true ∧ utf8Valid [0xFF#8] = false :=
  ⟨runs .., runs .., rfl, rfl, rfl, rfl, rfl, rfl, rfl, rfl, rfl⟩

/-- The first two blocks of 32 equal bytes. -/
theorem witness_EqualBlocksGiveEqualSegments :
    (List.replicate 32 0#8).length = 32 ∧ 0 < (List.replicate 32 0x41#8).length / 16 + 1 ∧
    1 < (List.replicate 32 0x41#8).length / 16 + 1 ∧
    ((pad (List.replicate 32 0x41#8)).drop (16 * 0)).take 16 = ((pad (List.replicate 32 0x41#8)).drop (16 * 1)).take 16 := by
  decide +kernel

/-- V-EN12: keys that differ from byte 16 on. -/
theorem witness_OnlyTheFirstSixteenKeyBytesMatter :
    (List.replicate 32 0#8).length = 32 ∧ (List.replicate 16 0#8 ++ List.replicate 16 0xFF#8).length = 32 ∧
    (List.replicate 32 0#8).take 16 = (List.replicate 16 0#8 ++ List.replicate 16 0xFF#8).take 16 := by decide

theorem witness_CommandsReportOnlyTheirOwnCodes : ∃ t, exec .pad (running 1#32 1 0 [0x41#8] []) = .next t := ⟨_, rfl⟩

theorem witness_EveryCommandCompletesExactlyWhenBusy :
    Runs (running 9#32 0 0 [] []) (snapOf 9#32 0 0 [] []) ∧ State.reset.phase = .idle := ⟨runs .., rfl⟩

/-- A command that ends in CapacityError without an undefined read. -/
theorem witness_CommandsWriteOnlyObufOlenAndStatus :
    ∃ t, exec .pad (running 1#32 8193 0 [] []) = .next t ∧ t.freeCtr = 0 ∧ t.errcode = .capacityError := ⟨_, rfl, rfl, rfl⟩

theorem witness_CapacityErrorExactlyWhenACheckFails :
    Runs (running 8#32 7936 128 [] []) (snapOf 8#32 7936 128 [] []) ∧
    (running 8#32 7936 128 [] []).params = Params.default ∧ (snapOf 8#32 7936 128 [] []).klen.toNat ≤ 128 :=
  ⟨runs .., rfl, by decide⟩

/-- PAD of an unwritten byte; UNPAD's last byte, a byte of the padding before which all is padding, and a byte of the
result; a block without a key; an unwritten character after a digit in a text and in a key; a good key with an
unwritten plaintext; and, on the other side, an odd length and a character that is no digit before the unwritten one. -/
theorem witness_UndefinedReadsCompleteWithFreeValues :
    Runs (running 1#32 2 0 [0x48#8] []) (snapOf 1#32 2 0 [0x48#8] []) ∧
    none ∈ (snapOf 1#32 2 0 [0x48#8] []).input ∧
    (UnpadReadsPoison [some 0x48#8, none] ∧ UnpadReadsPoison [some 0x48#8, none, some 0x02#8] ∧
      UnpadReadsPoison [none, some 0x01#8] ∧ ¬ UnpadReadsPoison [none, some 0x00#8]) ∧
    none ∈ (snapOf 3#32 16 16 (List.replicate 16 0#8) []).kbuf.slice 16 ∧
    (HexReadsPoison (snapOf 6#32 2 0 [0x33#8] []).input ∧ HexReadsPoison (snapOf 7#32 0 64 [] [0x33#8]).key ∧
      ¬ HexReadsPoison [none] ∧ ¬ HexReadsPoison [some 0x67#8, none]) ∧
    (snapOf 8#32 2 64 [0x48#8] zeroKey).key = zeroKey.map some ∧ none ∈ (snapOf 8#32 2 64 [0x48#8] zeroKey).input := by
  refine ⟨runs .., by decide, ⟨.inl rfl, ?_, ?_, ?_⟩, by decide +kernel, ⟨?_, ?_, ?_, ?_⟩, rfl, by decide⟩
  · exact .inr ⟨0x02#8, rfl, by decide, by decide, by decide, .inl ⟨0, [some 0x02#8], rfl⟩⟩
  · exact .inr ⟨0x01#8, rfl, by decide, by decide, by decide, .inr ⟨rfl, by decide⟩⟩
  · simp [UnpadReadsPoison]
  · exact ⟨rfl, [0x33#8], [], rfl, by simpa using ⟨3, .inl (by decide)⟩⟩
  · exact ⟨rfl, [0x33#8], List.replicate 62 none, rfl, by simpa using ⟨3, .inl (by decide)⟩⟩
  · simp [HexReadsPoison]
  · rintro ⟨-, _ | ⟨c, ds⟩, rest, he, h⟩
    · cases he
    · obtain rfl := Option.some.inj (List.cons.inj he).1
      obtain ⟨v, hv⟩ := h 0x67#8 (by simp)
      simp [IsHexDigit] at hv

/-- Two states with one snapshot and different outputs left over. -/
theorem witness_ResultDependsOnTheSnapshotAlone :
    (running 0#32 0 0 [] []).phase = ({ running 0#32 0 0 [] [] with obuf := [(0, 1#8)] } : State).phase ∧
    ∃ t t', exec .nop (running 0#32 0 0 [] []) = .next t ∧
      exec .nop { running 0#32 0 0 [] [] with obuf := [(0, 1#8)] } = .next t' ∧ t.freeCtr = 0 :=
  ⟨rfl, _, _, rfl, rfl, rfl⟩

/-- Each agent first in a schedule, in either phase; no turn to come; and a free turn. -/
theorem witness_StepRunsTheDecodedCommand :
    ((State.reset.placeCommand 1#32).sched = .engine :: [] ∧ (State.reset.placeCommand 1#32).isBusy = true) ∧
    ((running 1#32 0 0 [] []).sched = [] ∧ (running 1#32 0 0 [] []).freeTurn = none) ∧
    (State.reset.sched = [] ∧ State.reset.freeTurn = none ∧ State.reset.phase = .idle) ∧
    ({ State.reset with sched := [.host, .environment] } : State).sched = .host :: [.environment] ∧
    ({ State.reset with sched := [.environment] } : State).sched = .environment :: [] ∧
    (State.reset.withTurns [] (some 0)).freeTurn = some 0 :=
  ⟨⟨rfl, rfl⟩, ⟨rfl, rfl⟩, ⟨rfl, rfl, rfl⟩, rfl, rfl, rfl⟩

/-- A host step that ends a command: the soft reset line. A fair endless run that starts BUSY: the completion, then
hardware resets. A finite run: a host line, then the completion. -/
theorem witness_BusyEndsByCompletionOrReset :
    (Runs { running 1#32 0 0 [] [] with host := { prog := [writeRegOp .ctrl 1#32], pc := 0, vars := [] } }
        (snapOf 1#32 0 0 [] []) ∧
      ∃ t, hostStep { running 1#32 0 0 [] [] with host := { prog := [writeRegOp .ctrl 1#32], pc := 0, vars := [] } } =
        .next t ∧ t.phase = .idle) ∧
    (∃ turn run, EndlessRun turn run ∧ Fair run ∧ (run 0).phase = .busy (snapOf 0#32 0 0 [] [])) ∧
    ∃ t, FiniteRun [.host, .engine]
      { running 0#32 0 0 [] [] with host := { prog := [.label 0], pc := 0, vars := [] } } t := by
  refine ⟨⟨runs 1#32 0 0 [] [], _, rfl, rfl⟩, ⟨fun n => if n = 0 then .engine else .environment, fun n =>
    match n with
    | 0 => running 0#32 0 0 [] []
    | 1 => (running 0#32 0 0 [] []).completeNoData
    | _ => (running 0#32 0 0 [] []).deviceReset, ?_, ?_, rfl⟩, _, _, ⟨rfl, rfl⟩, _, ⟨rfl, rfl⟩, rfl⟩
  · rintro (_ | _ | n) <;> exact ⟨rfl, rfl⟩
  · rintro (_ | _ | n) h
    · exact ⟨1, by decide, rfl⟩
    · cases h
    · cases h

/-- A host that polls for ever, while a command runs. -/
def polling (pc : Nat) : State :=
  { running 0#32 0 0 [] [] with host := { prog := [.label 0, .bnz 0 1#32 0], pc := pc, vars := [(0, 1#32)] } }

/-- 70_reset_and_hazards.md R727: the endless interleaving in which host steps delay the completion for ever is a run
of the agents; R720 is what rules it out: it is not fair. -/
theorem test_endless_delay :
    EndlessRun (fun _ => .host) (fun n => polling (n % 2)) ∧ ¬ Fair fun n => polling (n % 2) := by
  refine ⟨fun n => ?_, fun h => ?_⟩
  · rcases Nat.mod_two_eq_zero_or_one n with h | h
    · simp only [h, show (n + 1) % 2 = 1 by omega]
      exact ⟨rfl, rfl⟩
    · simp only [h, show (n + 1) % 2 = 0 by omega]
      exact ⟨rfl, rfl⟩
  · obtain ⟨m, -, hm⟩ := h 0 rfl
    cases hm

theorem witness_SoftAndHardwareResetRestoreTheResetValues :
    (3#32).getLsbD 0 = true ∧ ({ running 1#32 0 0 [] [] with sched := [.environment] } : State).sched = .environment :: [] :=
  ⟨by decide, rfl⟩

theorem witness_CtrlAndStatusWritesAreNeverDropped : (2#32).getLsbD 0 = false := by decide

theorem witness_IrqIsTheLevelOfDoneAndEnable :
    (∃ t, exec .nop (running 0#32 0 0 [] []) = .next t) ∧ (∃ t, State.reset.memWrite .w32 0x0004#16 2#32 = some t) ∧
    (∃ t, State.reset.memWrite .w32 0x0008#16 2#32 = some t) ∧ (2#32).getLsbD 1 = true ∧ State.reset.phase = .idle ∧
    ∃ t, State.reset.memWrite .w32 0x000C#16 0#32 = some t := ⟨⟨_, rfl⟩, ⟨_, rfl⟩, ⟨_, rfl⟩, by decide, rfl, _, rfl⟩

/-- The last byte of KBUF; a misaligned write; a write that sets BUSYWR and one that clears it. -/
theorem witness_WritesWhileBusyAreDropped :
    Runs (running 1#32 0 0 [] []) (snapOf 1#32 0 0 [] []) ∧ DroppedWhileBusy (running 1#32 0 0 [] []) .w8 0x017F#16 ∧
    (running 1#32 0 0 [] []).memRead .w16 0x0101#16 = .busError ∧
    (∃ t, (running 1#32 0 0 [] []).memWrite .w8 0x017F#16 0#32 = some t ∧ t.busywr = true) ∧
    ∃ t, ({ running 1#32 0 0 [] [] with busywr := true } : State).memWrite .w32 0x0008#16 8#32 = some t ∧
      t.busywr = false :=
  ⟨runs .., .inr (by decide), rfl, ⟨_, rfl, rfl⟩, _, rfl, rfl⟩

theorem witness_BusErrorExactlyWhenNotPermitted : State.reset.params.Ok := by decide

/-- The first byte past each region. -/
theorem witness_BusErrorIsRecordedAndChangesNothing :
    State.reset.memRead .w8 0x0028#16 = .busError ∧ State.reset.memRead .w8 0x6000#16 = .busError ∧
    State.reset.memRead .w8 0xC000#16 = .busError := by decide

/-- The first and the last word of KBUF and of IBUF. -/
theorem witness_BufferWritesStoreLittleEndianBytes :
    (State.reset.params.Ok ∧ State.reset.phase = .idle) ∧
    ((0x0100#16).toNat % Width.w32.bytes = 0 ∧ 0x100 ≤ (0x0100#16).toNat) ∧
    ((0x017C#16).toNat % Width.w32.bytes = 0 ∧ (0x017C#16).toNat + Width.w32.bytes ≤ 0x100 + Params.default.kbufBytes) ∧
    (0x4000 ≤ (0x4000#16).toNat ∧ (0x5FFC#16).toNat + Width.w32.bytes ≤ 0x4000 + Params.default.ibufBytes) := by decide

/-- A read of a register, and of two defined bytes. -/
theorem witness_HostReadsBindTheLittleEndianValue :
    (running 1#32 0 0 [] []).memRead .w32 0x0008#16 = .word 0x00000001#32 ∧
    (loaded 0 0 hi []).memRead .w16 0x4000#16 = .bytes (hi.map some) := by decide +kernel

/-- A read of OBUF while BUSY, at its last word; and a read of a POISON byte. -/
theorem witness_HostReadsChangeNothingInTheDevice :
    ((running 1#32 0 0 [] []).isBusy = true ∧ (0xBFFC#16).toNat % Width.w32.bytes = 0 ∧ 0x8000 ≤ (0xBFFC#16).toNat ∧
      (0xBFFC#16).toNat + Width.w32.bytes ≤ 0x8000 + Params.default.obufBytes) ∧
    (loaded 0 0 [0x48#8] []).memRead .w16 0x4000#16 = .bytes [some 0x48#8, none] := by decide +kernel

theorem witness_RegistersReadBackAndReadOnlyOnesIgnoreWrites :
    State.reset.phase = .idle ∧ State.reset.params.Ok ∧ 0x8000 ≤ (0xBFFC#16).toNat ∧
    (0xBFFC#16).toNat + Width.w32.bytes ≤ 0x8000 + State.reset.params.obufBytes := by decide

/-- The state at line `pc` of a host program, IDLE, with name 0 bound to 1. -/
def hostAt (prog : List HostOp) (pc : Nat) : State :=
  { State.reset with host := { prog := prog, pc := pc, vars := [(0, 1#32)] } }

/-- Each kind of line: a write of a constant, of a name, and one that gets BUSERR; a read; a label; a BNZ with its
mask's bit set and clear, and one without its label; a name without a value; past the last line, IDLE and BUSY. -/
theorem witness_HostProgramsRunInOrder :
    (∃ t, (hostAt [writeRegOp .ilen 2#32] 0).memWrite .w32 Reg.ilen.at 2#32 = some t) ∧
    (HostValue.name 0 = .name 0 ∧ Sparse.get 0 (hostAt [] 0).host.vars = some 1#32) ∧
    (hostAt [] 0).memWrite .w32 0x0028#16 0#32 = none ∧
    (hostAt [.read .w32 Reg.status.at 0] 0).host.prog[0]? = some (.read .w32 Reg.status.at 0) ∧
    ([HostOp.label 7, .bnz 0 1#32 7][1]? = some (.bnz 0 1#32 7) ∧ 1#32 &&& 1#32 ≠ 0#32 ∧ 1#32 &&& 2#32 = 0#32 ∧
      [HostOp.label 7, .bnz 0 1#32 7][0]? = some (.label 7) ∧ .label 8 ∉ [HostOp.label 7, .bnz 0 1#32 7]) ∧
    Sparse.get 1 (hostAt [] 0).host.vars = none ∧ (hostAt [.label 7] 1).host.prog[1]? = none ∧
    (hostAt [.label 7] 1).runOver = true ∧ (hostAt [.label 7] 0).runOver = false ∧
    (running 1#32 0 0 [] []).runOver = false ∧ ∃ t, Moves .environment (hostAt [.label 7] 1) t :=
  ⟨⟨_, rfl⟩, ⟨rfl, rfl⟩, rfl, rfl, ⟨rfl, by decide, by decide, rfl, by decide⟩, rfl, rfl, rfl, rfl, rfl, _, rfl, rfl⟩

/-- 30_encoding.md R308: WAIT's read of STATUS, while a command runs, binds its name to a word with bit 0 set. -/
theorem test_wait :
    (after (hostStep { running 1#32 0 0 [] [] with host := { prog := waitOp 7 0, pc := 1, vars := [] } })).map
      (fun t => t.host.vars) = some [(0, 0x00000001#32)] := by
  decide +kernel

/-- A legal state in which a command runs, and which steps. -/
theorem witness_EveryStepKeepsLegalStates :
    (running 1#32 2 0 hi []).Inv ∧ ∃ t, step (running 1#32 2 0 hi []) = .next t := by
  refine ⟨⟨by decide, by decide, by decide, by decide, by decide, by decide, by decide, by decide, by decide, by decide,
    fun snap h => ?_⟩, _, rfl⟩
  exact (Phase.busy.inj h).symm

/-- A step from a state in which every fault is recorded. -/
theorem witness_NoStepClearsARecordedFault :
    ∃ t, step { running 1#32 2 0 hi [] with
        faults := { busError := true, undefReadHost := true, undefReadEngine := true } } = .next t := ⟨_, rfl⟩

end Sys2Proof.Tests
end

/-! SUPPORT. Every operation of the machine keeps `State.Inv`; from that, the two statements about legal states
(00_scope.md R6, 10_state.md R105, R131, R140, 60_exceptions.md R601). -/

namespace Sys2Proof.Machine

variable {s t : State}

/-! ### Legality speaks of the device alone -/

/-- The host agent, the turns to come, the recorded faults and the free values' counter have no part in it. -/
theorem State.Inv.of_sameDevice (h : s.Inv) (hd : s.SameDevice t) : t.Inv := by
  cases s
  cases t
  obtain ⟨rfl, rfl, rfl, rfl, rfl, rfl, rfl, rfl, rfl, rfl, rfl, rfl, rfl⟩ := hd
  exact { h with }

theorem sameDevice_withTurns (s : State) (l : List Agent) (f : Option Nat) : s.SameDevice (s.withTurns l f) := by
  simp [State.SameDevice]

theorem sameDevice_hostJump (s : State) (line : Nat) : s.SameDevice (s.hostJump line) := by simp [State.SameDevice]

theorem sameDevice_hostAdvance (s : State) : s.SameDevice s.hostAdvance := by simp [State.SameDevice]

theorem sameDevice_recordBusError_hostAdvance (s : State) : s.SameDevice s.recordBusError.hostAdvance := by
  simp [State.SameDevice]

/-- No host read changes the device (20_memory.md R209). -/
theorem sameDevice_hostRead (s : State) (n : Width) (off : Offset) (x : Nat) : s.SameDevice (hostRead s n off x) := by
  rcases hostRead_cases s n off x with ⟨v, hr⟩ | ⟨v, hr⟩ | ⟨v, hr⟩ <;> simp [hr, State.SameDevice]

/-! ### Resets, and the writes of the host -/

theorem State.phase_ne_busy (hb : s.isBusy = false) (snap : Snapshot) : s.phase ≠ .busy snap := by
  intro hp
  simp [State.isBusy_of_busy hp] at hb

theorem State.Inv.deviceReset (h : s.Inv) : s.deviceReset.Inv where
  params := h.params
  kbufWf := Memory.nil_wf
  kbufFits := Memory.nil_fits _
  ibufWf := Memory.nil_wf
  ibufFits := Memory.nil_fits _
  obufWf := Memory.nil_wf
  obufFits := Memory.nil_fits _
  olen := by simp
  errcode := by simp
  busy := by simp [State.isBusy]
  snapshot := by simp

theorem State.Inv.dropWrite (h : s.Inv) : s.dropWrite.Inv := { h with }

theorem State.Inv.setIrqEn (h : s.Inv) (b : Bool) : ({ s with irqEn := b } : State).Inv := { h with }

/-- W1C of DONE can only clear it, so DONE stays 0 while a command runs. -/
theorem State.Inv.acknowledge (h : s.Inv) (v : Word) : (s.acknowledge v).Inv :=
  { h with
    busy := fun hb => by
      obtain ⟨hdone, herr, holen⟩ := h.busy hb
      simp [hdone, herr, holen] }

/-- A command starts with the STATUS and OLEN that BUSY asks for, and with the snapshot of the live inputs
(10_state.md R131, 40_lifecycle.md R401). -/
theorem State.Inv.startCommand (h : s.Inv) (v : Word) : (s.startCommand v).Inv :=
  { h with
    olen := by simp
    errcode := by simp
    busy := by simp
    snapshot := fun _ hp => (Phase.busy.inj hp).symm }

/-- While IDLE there is no snapshot to agree with, so the host may change any input of a command. -/
theorem State.Inv.setInputs (h : s.Inv) (hb : s.isBusy = false) (n k : Word) {mk mi : Memory} (hkw : mk.wf)
    (hkf : mk.fits s.params.kbufBytes) (hiw : mi.wf) (hif : mi.fits s.params.ibufBytes) :
    ({ s with ilen := n, klen := k, kbuf := mk, ibuf := mi } : State).Inv :=
  { h with
    kbufWf := hkw
    kbufFits := hkf
    ibufWf := hiw
    ibufFits := hif
    snapshot := fun snap hp => absurd hp (State.phase_ne_busy hb snap) }

theorem State.Inv.writeReg (h : s.Inv) (r : Reg) (v : Word) : (s.writeReg r v).Inv := by
  rcases writeReg_cases s r v with he | he | he | he | ⟨-, he⟩ | ⟨hb, he | he | he⟩ <;> rw [he]
  · exact h
  · exact h.deviceReset
  · exact h.setIrqEn _
  · exact h.acknowledge v
  · exact h.dropWrite
  · exact h.startCommand v
  · exact h.setInputs hb v s.klen h.kbufWf h.kbufFits h.ibufWf h.ibufFits
  · exact h.setInputs hb s.ilen v h.kbufWf h.kbufFits h.ibufWf h.ibufFits

theorem State.Inv.memWrite (h : s.Inv) {n : Width} {off : Offset} {v : Word} (hw : s.memWrite n off v = some t) :
    t.Inv := by
  rcases memWrite_cases hw with ⟨r, rfl⟩ | ⟨-, rfl⟩ | rfl | ⟨hb, k, hk, rfl⟩ | ⟨hb, k, hk, rfl⟩
  · exact h.writeReg r v
  · exact h.dropWrite
  · exact h
  · exact h.setInputs hb s.ilen s.klen (Memory.setBytes_wf _ h.kbufWf k)
      (Memory.setBytes_fits _ h.kbufFits (by simpa using hk)) h.ibufWf h.ibufFits
  · exact h.setInputs hb s.ilen s.klen h.kbufWf h.kbufFits (Memory.setBytes_wf _ h.ibufWf k)
      (Memory.setBytes_fits _ h.ibufFits (by simpa using hk))

theorem State.Inv.hostWrite (h : s.Inv) (n : Width) (off : Offset) (v : Word) :
    (Sys2Proof.Machine.hostWrite s n off v).Inv := by
  rcases hostWrite_cases s n off v with ⟨t, hw, he⟩ | ⟨-, he⟩ <;> rw [he]
  · exact (h.memWrite hw).of_sameDevice (sameDevice_hostAdvance t)
  · exact h.of_sameDevice (sameDevice_recordBusError_hostAdvance s)

/-! ### Completions -/

/-- Every completion goes through `completeWith`, which leaves the phase IDLE: nothing is asked of a snapshot. -/
theorem State.Inv.completeWith (h : s.Inv) {c : ErrCode} {n : Word} {m : Memory} (hc : c ≠ .emptyInputError)
    (hn : n.toNat ≤ s.params.obufBytes) (hw : m.wf) (hf : m.fits s.params.obufBytes) :
    (s.completeWith c n m).Inv :=
  { h with
    obufWf := hw
    obufFits := hf
    olen := hn
    errcode := hc
    busy := by simp [State.isBusy]
    snapshot := by simp }

theorem State.Inv.completeOk (h : s.Inv) {out : List Byte} (hl : out.length ≤ s.params.obufBytes) :
    (s.completeOk out).Inv := by
  have hn : (BitVec.ofNat 32 out.length).toNat ≤ out.length := by
    rw [BitVec.toNat_ofNat]
    exact Nat.mod_le _ _
  exact h.completeWith (by simp) (hn.trans hl) (Memory.ofBytes_wf out) (Memory.ofBytes_fits hl)

theorem State.Inv.completeFail (h : s.Inv) {c : ErrCode} (hc : c ≠ .emptyInputError) : (s.completeFail c).Inv := by
  refine h.completeWith hc (by simp) ?_ ?_ <;> split_ifs
  · exact h.obufWf
  · exact Memory.nil_wf
  · exact h.obufFits
  · exact Memory.nil_fits _

theorem State.Inv.completeUndef (h : s.Inv) {l : List ErrCode} (hc : pickCode l s.freeCtr ≠ .emptyInputError) :
    (s.completeUndef l).Inv := by
  have hn : (if pickCode l s.freeCtr = .ok then pickOlen s.params.obufBytes s.freeCtr else 0#32).toNat ≤
      s.params.obufBytes := by
    split_ifs
    · exact pickOlen_le _ _
    · simp
  exact (h.completeWith hc hn Memory.nil_wf (Memory.nil_fits _)).of_sameDevice (by simp [State.SameDevice])

/-- EmptyInputError is in no command's row of 60_exceptions.md R602 (R601). -/
theorem ne_emptyInputError_of_mem_allowedCodes {i : Instr} {c : ErrCode} (h : c ∈ allowedCodes i) :
    c ≠ .emptyInputError := by
  rintro rfl
  cases i <;> simp [allowedCodes] at h

/-- A completion keeps legality because a body's bytes fit OBUF and its errors are among its command's codes. -/
theorem State.Inv.exec (h : s.Inv) {i : Instr} (he : Sys2Proof.Machine.exec i s = .next t) : t.Inv := by
  obtain ⟨snap, -, rfl⟩ := exec_next he
  rcases hb : commandBody s.params i snap with (c | _) | (_ | out)
  · exact h.completeFail (ne_emptyInputError_of_mem_allowedCodes (commandBody_raises _ _ _ c hb))
  · exact h.completeUndef (ne_emptyInputError_of_mem_allowedCodes (pickCode_mem (allowedCodes_ne_nil i) _))
  · exact h.completeWith (by simp) (by simp) h.obufWf h.obufFits
  · exact h.completeOk (commandBody_fits h.params hb)

/-! ### Steps -/

theorem State.Inv.hostStep (h : s.Inv) (hs : Sys2Proof.Machine.hostStep s = .next t) : t.Inv := by
  rcases hostStep_next hs with rfl | ⟨line, rfl⟩ | rfl | ⟨n, off, v, rfl⟩ | ⟨n, off, x, rfl⟩
  · exact h
  · exact h.of_sameDevice (sameDevice_hostJump s line)
  · exact h.of_sameDevice (sameDevice_hostAdvance s)
  · exact h.hostWrite n off v
  · exact h.of_sameDevice (sameDevice_hostRead s n off x)

/-- Every agent's step keeps a legal state legal, whoever's turn it is (70_reset_and_hazards.md R727). -/
theorem State.Inv.agentStep (h : s.Inv) {a : Agent} (ha : Sys2Proof.Machine.agentStep a s = .next t) : t.Inv := by
  rcases agentStep_next ha with ⟨-, rfl, -⟩ | ⟨-, hs⟩ | ⟨-, snap, -, he⟩ | ⟨-, rfl⟩
  · exact h
  · exact h.hostStep hs
  · exact h.exec he
  · exact h.deviceReset

/-- Settles O59: a step is one agent's step in the state without the turn it takes, and each agent's step keeps the
invariant. -/
theorem everyStepKeepsLegalStates : Obligations.EveryStepKeepsLegalStates := by
  intro s t h hs
  obtain ⟨l, f, ht⟩ := takeTurn_state s
  rw [step, ht] at hs
  exact (h.of_sameDevice (sameDevice_withTurns s l f)).agentStep hs

/-- Settles O58: at reset the sizes are R6's defaults, every buffer is empty and the phase is IDLE. -/
theorem resetIsALegalState : Obligations.ResetIsALegalState where
  params := by decide
  kbufWf := Memory.nil_wf
  kbufFits := Memory.nil_fits _
  ibufWf := Memory.nil_wf
  ibufFits := Memory.nil_fits _
  obufWf := Memory.nil_wf
  obufFits := Memory.nil_fits _
  olen := by decide
  errcode := by decide
  busy := by decide
  snapshot := fun _ hp => by cases hp

end Sys2Proof.Machine

/-! SUPPORT. The register file as the host sees it: the bits of STATUS and CTRL, the reset values, the registers that
read back and those that ignore writes; and that no step takes back a recorded fault (10_state.md R102 to R111, R140,
70_reset_and_hazards.md R726). -/

namespace Sys2Proof.Machine

variable {s t : State}

/-! ### The bits of STATUS and CTRL -/

/-- ERR is 1 exactly for an error: code 0 is OK's alone (10_state.md R105). -/
theorem State.err_eq (s : State) : s.err = decide (s.errcode ≠ .ok) := by
  unfold State.err
  cases s.errcode <;> rfl

/-- STATUS, bit by bit: its twelve low bits are one field or zero each, and above them is only zero
(10_state.md R105). -/
theorem State.statusWord_getLsbD (s : State) (i : Nat) : s.statusWord.getLsbD i =
    if i = 0 then s.isBusy else if i = 1 then s.done else if i = 2 then decide (s.errcode ≠ .ok)
    else if i = 3 then s.busywr else if 8 ≤ i ∧ i < 12 then s.errcode.code.getLsbD (i - 8) else false := by
  rw [← s.err_eq]
  simp only [State.statusWord, BitVec.getLsbD_append, BitVec.getLsbD_ofBool, BitVec.getLsbD_zero]
  rcases Nat.lt_or_ge i 12 with hlow | hhigh
  · interval_cases i <;> simp
  · obtain ⟨j, rfl⟩ := Nat.exists_eq_add_of_le' hhigh
    simp

theorem State.ctrlWord_getLsbD (s : State) (i : Nat) : s.ctrlWord.getLsbD i = (decide (i = 1) && s.irqEn) := by
  simp only [State.ctrlWord, BitVec.getLsbD_append, BitVec.getLsbD_ofBool, BitVec.getLsbD_zero]
  rcases i with _ | _ | i <;> simp

/-- Settles O48: a 4-byte read of a register returns its value (`memRead_reg`), and the two words are concatenations of
their fields. -/
theorem statusAndCtrlReadTheirFields : Obligations.StatusAndCtrlReadTheirFields :=
  ⟨fun s => ⟨memRead_reg s .status, memRead_reg s .ctrl, fun i => ⟨s.statusWord_getLsbD i, s.ctrlWord_getLsbD i⟩⟩,
    fun _ => ⟨rfl, rfl⟩, by decide⟩

/-! ### Reset -/

@[simp] theorem State.deviceReset_ctrlWord (s : State) : s.deviceReset.ctrlWord = 0#32 := by simp [State.ctrlWord]

@[simp] theorem State.deviceReset_statusWord (s : State) : s.deviceReset.statusWord = 0#32 := by
  simp [State.statusWord, State.isBusy, State.err, ErrCode.code]

/-- A reset of the device, from any state, leaves the reset values (70_reset_and_hazards.md R701, R702). -/
theorem atResetValues_deviceReset (s : State) : AtResetValues s.deviceReset :=
  ⟨rfl, s.deviceReset_ctrlWord, s.deviceReset_statusWord, rfl, rfl, rfl, rfl, rfl, rfl, rfl, Memory.get_nil,
    Memory.get_nil, Memory.get_nil, rfl, rfl⟩

/-- Settles O45: the state after reset is what a device reset makes of itself. -/
theorem resetLeavesTheResetValues : Obligations.ResetLeavesTheResetValues :=
  ⟨atResetValues_deviceReset State.reset, rfl, rfl, rfl, rfl⟩

/-! ### Registers that read back, and writes without effect -/

theorem writeReg_ilen_of_idle (h : s.phase = .idle) (v : Word) : s.writeReg .ilen v = { s with ilen := v } := by
  simp [State.writeReg, isBusy_of_idle h]

theorem writeReg_klen_of_idle (h : s.phase = .idle) (v : Word) : s.writeReg .klen v = { s with klen := v } := by
  simp [State.writeReg, isBusy_of_idle h]

/-- A permitted write to OBUF changes nothing, whatever its width and in either phase (20_memory.md R204). -/
theorem memWrite_obuf (hp : s.params.Ok) {n : Width} {off : Offset} (ha : off.toNat % n.bytes = 0)
    (h₁ : 0x8000 ≤ off.toNat) (h₂ : off.toNat + n.bytes ≤ 0x8000 + s.params.obufBytes) (v : Word) :
    s.memWrite n off v = some s := by
  rw [State.memWrite, locate_obuf hp n.bytes_pos ha h₁ h₂]

/-- The offsets of the read-only registers are those of ID, OLEN and the three CAP registers (10_state.md R111). -/
theorem memWrite_readOnly {off : Offset} (h : off ∈ [0x0000#16, 0x0018#16, 0x001C#16, 0x0020#16, 0x0024#16])
    (s : State) (v : Word) : s.memWrite .w32 off v = some s := by
  simp only [List.mem_cons, List.not_mem_nil, or_false] at h
  rcases h with rfl | rfl | rfl | rfl | rfl
  · exact memWrite_reg s .id v
  · exact memWrite_reg s .olen v
  · exact memWrite_reg s .capKbuf v
  · exact memWrite_reg s .capIbuf v
  · exact memWrite_reg s .capObuf v

/-- Settles O56: each access at a register's offset is that register's read or write. -/
theorem registersReadBackAndReadOnlyOnesIgnoreWrites : Obligations.RegistersReadBackAndReadOnlyOnesIgnoreWrites := by
  intro s v
  refine ⟨fun hidle => ⟨?_, ?_⟩, memRead_reg s .id, memRead_reg s .cmd, memRead_reg s .ilen, memRead_reg s .klen,
    memRead_reg s .olen, memRead_reg s .capKbuf, memRead_reg s .capIbuf, memRead_reg s .capObuf,
    fun _ hoff => memWrite_readOnly hoff s v, fun _ _ hp ha h₁ h₂ => memWrite_obuf hp ha h₁ h₂ v⟩
  · rw [← writeReg_ilen_of_idle hidle]
    exact memWrite_reg s .ilen v
  · rw [← writeReg_klen_of_idle hidle]
    exact memWrite_reg s .klen v

/-! ### Recorded faults and the sizes -/

/-- `t` has the sizes of `s`, and every fault recorded in `s` is recorded in `t`. -/
def State.KeepsFaultsAndSizes (s t : State) : Prop :=
  t.params = s.params ∧
  (s.faults.busError = true → t.faults.busError = true) ∧
  (s.faults.undefReadHost = true → t.faults.undefReadHost = true) ∧
  (s.faults.undefReadEngine = true → t.faults.undefReadEngine = true)

theorem State.KeepsFaultsAndSizes.of_eq (hp : t.params = s.params) (hf : t.faults = s.faults) :
    s.KeepsFaultsAndSizes t := by
  simp [State.KeepsFaultsAndSizes, hp, hf]

/-- A register write records no fault and clears none, a soft reset included (70_reset_and_hazards.md R726). -/
theorem writeReg_params_faults (s : State) (r : Reg) (v : Word) :
    (s.writeReg r v).params = s.params ∧ (s.writeReg r v).faults = s.faults := by
  rcases writeReg_cases s r v with he | he | he | he | ⟨-, he⟩ | ⟨-, he | he | he⟩ <;> rw [he] <;> exact ⟨rfl, rfl⟩

/-- A permitted write leaves the recorded faults and the sizes alone. -/
theorem memWrite_params_faults {n : Width} {off : Offset} {v : Word} (h : s.memWrite n off v = some t) :
    t.params = s.params ∧ t.faults = s.faults := by
  rcases memWrite_cases h with ⟨r, rfl⟩ | ⟨-, rfl⟩ | rfl | ⟨-, k, -, rfl⟩ | ⟨-, k, -, rfl⟩
  · exact writeReg_params_faults s r v
  all_goals exact ⟨rfl, rfl⟩

theorem hostWrite_keepsFaultsAndSizes (s : State) (n : Width) (off : Offset) (v : Word) :
    s.KeepsFaultsAndSizes (hostWrite s n off v) := by
  rcases hostWrite_cases s n off v with ⟨t, hw, he⟩ | ⟨-, he⟩ <;> rw [he]
  · obtain ⟨hp, hf⟩ := memWrite_params_faults hw
    exact .of_eq hp hf
  · simp [State.KeepsFaultsAndSizes]

theorem hostRead_keepsFaultsAndSizes (s : State) (n : Width) (off : Offset) (x : Nat) :
    s.KeepsFaultsAndSizes (hostRead s n off x) := by
  rcases hostRead_cases s n off x with ⟨v, he⟩ | ⟨v, he⟩ | ⟨v, he⟩ <;> simp [he, State.KeepsFaultsAndSizes]

theorem hostStep_keepsFaultsAndSizes (h : hostStep s = .next t) : s.KeepsFaultsAndSizes t := by
  rcases hostStep_next h with rfl | ⟨l, rfl⟩ | rfl | ⟨n, off, v, rfl⟩ | ⟨n, off, x, rfl⟩
  · exact .of_eq rfl rfl
  · exact .of_eq rfl rfl
  · exact .of_eq rfl rfl
  · exact hostWrite_keepsFaultsAndSizes s n off v
  · exact hostRead_keepsFaultsAndSizes s n off x

/-- Of the four completions only the one after an undefined read touches the record, and it adds to it. -/
theorem State.complete_keepsFaultsAndSizes (s : State) (l : List ErrCode) (r : Body Result) :
    s.KeepsFaultsAndSizes (s.complete l r) := by
  rcases r with (c | _) | (_ | out)
  · exact .of_eq rfl rfl
  · simp [State.complete, State.KeepsFaultsAndSizes]
  · exact .of_eq rfl rfl
  · exact .of_eq rfl rfl

/-- Settles O60: whatever a step does (`step_next`), it does in `s` with other turns to come, which has the faults and
sizes of `s`. -/
theorem noStepClearsARecordedFault : Obligations.NoStepClearsARecordedFault := by
  intro s t h
  obtain ⟨l, f, hcases⟩ := step_next h
  suffices hkeeps : (s.withTurns l f).KeepsFaultsAndSizes t from hkeeps
  rcases hcases with ⟨rfl, -⟩ | hs | ⟨snap, -, he⟩ | rfl
  · exact .of_eq rfl rfl
  · exact hostStep_keepsFaultsAndSizes hs
  · obtain ⟨_, -, rfl⟩ := exec_next he
    exact State.complete_keepsFaultsAndSizes _ _ _
  · exact .of_eq rfl rfl

end Sys2Proof.Machine

/-! SUPPORT. The device window as the host uses it: which accesses are permitted, what a buffer write stores, and what a
host read binds and records (20_memory.md R201 to R209, 70_reset_and_hazards.md R721, R726). -/

namespace Sys2Proof.Machine

variable {s t : State} {n : Width} {off : Offset} {v : Word} {x : Nat}

/-! ### Permitted accesses -/

theorem regAt_isSome {off : Nat} (h : off < 0x28) (ha : off % 4 = 0) : (regAt off).isSome = true := by
  interval_cases off <;> revert ha <;> decide

/-- Regions end at multiples of 4 (00_scope.md R6), so an aligned access that starts before a region's end stays before
it. -/
theorem Width.add_bytes_le (n : Width) {off stop : Nat} (ha : off % n.bytes = 0) (h₄ : stop % 4 = 0)
    (h : off < stop) : off + n.bytes ≤ stop := by
  cases n <;> simp only [Width.bytes] at ha ⊢ <;> omega

/-- Of an aligned access outside the registers the first byte decides: the whole access is in the region its first byte
is in (20_memory.md R206). -/
theorem locate_eq_none_of_buffer {p : Params} (hp : p.Ok) {off : Nat} (ha : off % n.bytes = 0) (hr : 0x28 ≤ off) :
    locate p off n.bytes = none ↔ ∃ j, j < n.bytes ∧ ¬ Mapped p (off + j) := by
  have ⟨⟨hk, _⟩, ⟨hi, _⟩, ho, _⟩ := hp
  constructor
  · intro hl
    refine ⟨0, n.bytes_pos, ?_⟩
    rintro (h | ⟨h₁, h₂⟩ | ⟨h₁, h₂⟩ | ⟨h₁, h₂⟩)
    · omega
    · rw [locate_kbuf ha h₁ (n.add_bytes_le ha (by omega) h₂)] at hl
      cases hl
    · rw [locate_ibuf hp n.bytes_pos ha h₁ (n.add_bytes_le ha (by omega) h₂)] at hl
      cases hl
    · rw [locate_obuf hp n.bytes_pos ha h₁ (n.add_bytes_le ha (by omega) h₂)] at hl
      cases hl
  · rintro ⟨j, hj, hm⟩
    unfold Mapped at hm
    unfold locate regsEnd kbufStart ibufStart obufStart
    rw [if_neg (by omega), if_neg (by omega), if_neg (by omega), if_neg (by omega), if_neg (by omega)]

/-- An aligned access to the registers is permitted exactly at width 4 (20_memory.md R205). -/
theorem locate_eq_none_of_reg {p : Params} {off : Nat} (ha : off % n.bytes = 0) (hr : off < 0x28) :
    locate p off n.bytes = none ↔ n.bytes ≠ 4 := by
  unfold locate
  rw [if_neg (not_not.mpr ha), if_pos hr]
  split_ifs with h₄
  · rw [h₄] at ha
    obtain ⟨r, hreg⟩ := Option.isSome_iff_exists.mp (regAt_isSome hr ha)
    simp [hreg, h₄]
  · simp [h₄]

/-- BUSERR, by the three conditions of 20_memory.md R205, R206 and R207. -/
theorem locate_eq_none {p : Params} (hp : p.Ok) (n : Width) (off : Nat) : locate p off n.bytes = none ↔
    off % n.bytes ≠ 0 ∨ (off < 0x28 ∧ n.bytes ≠ 4) ∨ ∃ j, j < n.bytes ∧ ¬ Mapped p (off + j) := by
  by_cases ha : off % n.bytes = 0
  · by_cases hr : off < 0x28
    · rw [locate_eq_none_of_reg ha hr]
      refine ⟨fun h => .inr (.inl ⟨hr, h⟩), ?_⟩
      rintro (h | ⟨-, h⟩ | ⟨j, hj, hm⟩)
      · exact absurd ha h
      · exact h
      · intro h₄
        rw [h₄] at ha hj
        exact hm (.inl (by omega))
    · rw [locate_eq_none_of_buffer hp ha (not_lt.mp hr)]
      simp [ha, hr]
  · simp [locate, ha]

theorem memRead_eq_busError : s.memRead n off = .busError ↔ locate s.params off.toNat n.bytes = none := by
  unfold State.memRead
  rcases locate s.params off.toNat n.bytes with _ | r | k | k | k <;> simp

/-- Settles O51: reads and writes get BUSERR exactly where `locate` finds no target. -/
theorem busErrorExactlyWhenNotPermitted : Obligations.BusErrorExactlyWhenNotPermitted :=
  fun _ n off _ hp => ⟨memRead_eq_busError.trans (locate_eq_none hp n off.toNat), memWrite_eq_none⟩

/-! ### After BUSERR -/

theorem hostWrite_of_busError (h : s.memRead n off = .busError) (v : Word) :
    hostWrite s n off v = s.recordBusError.hostAdvance := by
  rw [hostWrite, memWrite_eq_none.mpr h]

theorem hostRead_of_busError (h : s.memRead n off = .busError) (x : Nat) :
    hostRead s n off x = s.recordBusError.nextFree.hostBind x (Config.freeWord s.freeCtr) := by
  rw [hostRead, h]

/-- Settles O52: after BUSERR both accesses record BUS_ERROR and move the host on, which is no part of the device. -/
theorem busErrorIsRecordedAndChangesNothing : Obligations.BusErrorIsRecordedAndChangesNothing := by
  intro s n off v x h
  rw [hostWrite_of_busError h]
  refine ⟨⟨sameDevice_recordBusError_hostAdvance s, rfl⟩, sameDevice_hostRead s n off x, ?_⟩
  rw [hostRead_of_busError h]
  rfl

/-! ### Bytes of a data word -/

theorem byteOf_eq_extractLsb' (v : Word) (j : Nat) : byteOf v j = v.extractLsb' (8 * j) 8 := rfl

theorem wordBytes_getElem? {n j : Nat} (h : j < n) (v : Word) :
    (wordBytes v n)[j]? = some (v.extractLsb' (8 * j) 8) := by
  simp [wordBytes, h, byteOf_eq_extractLsb']

/-- Bit `i` of the word read from some bytes is bit `i % 8` of byte `i / 8`: little-endian, zero-extended
(20_memory.md R202, R203). -/
theorem bytesWord_getLsbD (bs : List Byte) {i : Nat} (h : i < 32) :
    (bytesWord bs).getLsbD i = (bs.getD (i / 8) 0#8).getLsbD (i % 8) := by
  induction bs generalizing i with
  | nil => simp [bytesWord]
  | cons b bs ih =>
    rw [bytesWord, BitVec.getLsbD_or, BitVec.getLsbD_shiftLeft, BitVec.getLsbD_setWidth]
    rcases Nat.lt_or_ge i 8 with hlow | hhigh
    · simp [h, hlow, Nat.div_eq_of_lt hlow, Nat.mod_eq_of_lt hlow]
    · obtain ⟨k, rfl⟩ := Nat.exists_eq_add_of_le' hhigh
      simp [h, ih (i := k) (by omega)]

/-! ### Buffer writes -/

theorem Memory.range_setBytes (m : Memory) (k : Nat) (bs : List Byte) :
    (m.setBytes k bs).range k bs.length = bs.map some := by
  apply List.ext_getElem?
  intro j
  rcases Nat.lt_or_ge j bs.length with h | h <;> simp [Memory.range, Memory.get_setBytes, h]

theorem memWrite_kbuf_of_idle (hs : s.phase = .idle) (ha : off.toNat % n.bytes = 0) (h₁ : 0x100 ≤ off.toNat)
    (h₂ : off.toNat + n.bytes ≤ 0x100 + s.params.kbufBytes) (v : Word) : s.memWrite n off v =
      some { s with kbuf := s.kbuf.setBytes (off.toNat - 0x100) (wordBytes v n.bytes) } := by
  simp [State.memWrite, locate_kbuf ha h₁ h₂, isBusy_of_idle hs]

theorem memWrite_ibuf_of_idle (hp : s.params.Ok) (hs : s.phase = .idle) (ha : off.toNat % n.bytes = 0)
    (h₁ : 0x4000 ≤ off.toNat) (h₂ : off.toNat + n.bytes ≤ 0x4000 + s.params.ibufBytes) (v : Word) :
    s.memWrite n off v = some { s with ibuf := s.ibuf.setBytes (off.toNat - 0x4000) (wordBytes v n.bytes) } := by
  simp [State.memWrite, locate_ibuf hp n.bytes_pos ha h₁ h₂, isBusy_of_idle hs]

theorem memRead_kbuf (ha : off.toNat % n.bytes = 0) (h₁ : 0x100 ≤ off.toNat)
    (h₂ : off.toNat + n.bytes ≤ 0x100 + s.params.kbufBytes) :
    s.memRead n off = .bytes (s.kbuf.range (off.toNat - 0x100) n.bytes) := by
  rw [State.memRead, locate_kbuf ha h₁ h₂]

theorem memRead_ibuf (hp : s.params.Ok) (ha : off.toNat % n.bytes = 0) (h₁ : 0x4000 ≤ off.toNat)
    (h₂ : off.toNat + n.bytes ≤ 0x4000 + s.params.ibufBytes) :
    s.memRead n off = .bytes (s.ibuf.range (off.toNat - 0x4000) n.bytes) := by
  rw [State.memRead, locate_ibuf hp n.bytes_pos ha h₁ h₂]

theorem windowByte_kbuf {a : Nat} (h₁ : 0x100 ≤ a) (h₂ : a < 0x100 + s.params.kbufBytes) :
    s.windowByte a = s.kbuf.get (a - 0x100) := by
  rw [State.windowByte, if_pos ⟨h₁, h₂⟩]

theorem windowByte_ibuf {a : Nat} (h₁ : 0x4000 ≤ a) (h₂ : a < 0x4000 + s.params.ibufBytes) (hp : s.params.Ok) :
    s.windowByte a = s.ibuf.get (a - 0x4000) := by
  obtain ⟨⟨-, -, hk⟩, -⟩ := hp
  unfold State.windowByte kbufStart ibufStart
  rw [if_neg (by omega), if_pos ⟨h₁, h₂⟩]

theorem range_setBytes_wordBytes (m : Memory) (k n : Nat) (v : Word) :
    (m.setBytes k (wordBytes v n)).range k n = (List.range n).map fun j => some (v.extractLsb' (8 * j) 8) := by
  have h := m.range_setBytes k (wordBytes v n)
  rw [wordBytes_length] at h
  rw [h, wordBytes, List.map_map]
  rfl

/-- From `s` to `t` the access's bytes of the window become the low bytes of `v`, lowest offset first, which a read of
them gives back; every other byte of the window stays (20_memory.md R202, R204). -/
def State.StoresLittleEndian (s t : State) (n : Width) (off : Offset) (v : Word) : Prop :=
  (∀ j, j < n.bytes → t.windowByte (off.toNat + j) = some (v.extractLsb' (8 * j) 8)) ∧
  (∀ a, ¬ (off.toNat ≤ a ∧ a < off.toNat + n.bytes) → t.windowByte a = s.windowByte a) ∧
  t.memRead n off = .bytes ((List.range n.bytes).map fun j => some (v.extractLsb' (8 * j) 8))

/-- One argument for both buffers: the window from `start` to `stop` shows `m` in `s`, and in `t` what `setBytes` makes
of `m`. -/
theorem storesLittleEndian_of_region {m : Memory} {start stop : Nat} (h₁ : start ≤ off.toNat)
    (h₂ : off.toNat + n.bytes ≤ stop) (hs : ∀ a, start ≤ a → a < stop → s.windowByte a = m.get (a - start))
    (ht : ∀ a, start ≤ a → a < stop →
      t.windowByte a = (m.setBytes (off.toNat - start) (wordBytes v n.bytes)).get (a - start))
    (hout : ∀ a, ¬ (start ≤ a ∧ a < stop) → t.windowByte a = s.windowByte a)
    (hread : t.memRead n off =
      .bytes ((m.setBytes (off.toNat - start) (wordBytes v n.bytes)).range (off.toNat - start) n.bytes)) :
    s.StoresLittleEndian t n off v := by
  refine ⟨fun j hj => ?_, fun a ha => ?_, by rw [hread, range_setBytes_wordBytes]⟩
  · rw [ht _ (by omega) (by omega), Memory.get_setBytes, wordBytes_length, if_pos (by omega),
      show off.toNat + j - start - (off.toNat - start) = j by omega, wordBytes_getElem? hj]
  · by_cases hreg : start ≤ a ∧ a < stop
    · rw [ht a hreg.1 hreg.2, hs a hreg.1 hreg.2, Memory.get_setBytes, wordBytes_length, if_neg (by omega)]
    · exact hout a hreg

theorem storesLittleEndian_kbuf (ha : off.toNat % n.bytes = 0) (h₁ : 0x100 ≤ off.toNat)
    (h₂ : off.toNat + n.bytes ≤ 0x100 + s.params.kbufBytes) (v : Word) : s.StoresLittleEndian
      { s with kbuf := s.kbuf.setBytes (off.toNat - 0x100) (wordBytes v n.bytes) } n off v :=
  storesLittleEndian_of_region h₁ h₂ (fun _ hge hlt => windowByte_kbuf hge hlt)
    (fun _ hge hlt => windowByte_kbuf hge hlt)
    (fun a hout => by simp only [State.windowByte, if_neg hout]) (memRead_kbuf ha h₁ h₂)

theorem storesLittleEndian_ibuf (hp : s.params.Ok) (ha : off.toNat % n.bytes = 0) (h₁ : 0x4000 ≤ off.toNat)
    (h₂ : off.toNat + n.bytes ≤ 0x4000 + s.params.ibufBytes) (v : Word) : s.StoresLittleEndian
      { s with ibuf := s.ibuf.setBytes (off.toNat - 0x4000) (wordBytes v n.bytes) } n off v :=
  storesLittleEndian_of_region h₁ h₂ (fun _ hge hlt => windowByte_ibuf hge hlt hp)
    (fun _ hge hlt => windowByte_ibuf hge hlt hp)
    (fun a hout => by simp only [State.windowByte, if_neg hout]) (memRead_ibuf hp ha h₁ h₂)

/-- Settles O53: the access is in KBUF or in IBUF, and not in both, as KBUF ends below IBUF's start. -/
theorem bufferWritesStoreLittleEndianBytes : Obligations.BufferWritesStoreLittleEndianBytes := by
  rintro s n off v hp hidle ha (⟨h₁, h₂⟩ | ⟨h₁, h₂⟩)
  · obtain ⟨hsame, hother, hread⟩ := storesLittleEndian_kbuf ha h₁ h₂ v
    have ⟨⟨_, _, hk⟩, _⟩ := hp
    have := n.bytes_pos
    exact ⟨_, memWrite_kbuf_of_idle hidle ha h₁ h₂ v, hsame, hother, hread, rfl, fun _ => rfl,
      fun hge => absurd hge (by omega)⟩
  · obtain ⟨hsame, hother, hread⟩ := storesLittleEndian_ibuf hp ha h₁ h₂ v
    exact ⟨_, memWrite_ibuf_of_idle hp hidle ha h₁ h₂ v, hsame, hother, hread, rfl,
      fun hlt => absurd hlt (not_lt.mpr h₁), fun _ => rfl⟩

/-! ### Host reads -/

theorem hostRead_word {w : Word} (h : s.memRead n off = .word w) (x : Nat) : hostRead s n off x = s.hostBind x w := by
  rw [hostRead, h]

@[simp] theorem fillPoison_map_some (ctr lane : Nat) (bs : List Byte) : fillPoison ctr lane (bs.map some) = bs := by
  induction bs generalizing lane with
  | nil => rfl
  | cons b bs ih => simp [fillPoison, ih]

theorem hostRead_defined {bs : List Byte} (h : s.memRead n off = .bytes (bs.map some)) (x : Nat) :
    hostRead s n off x = s.hostBind x (bytesWord bs) := by
  simp [hostRead, h]

theorem hostRead_poison {bs : List (Option Byte)} (h : s.memRead n off = .bytes bs) (hn : none ∈ bs) (x : Nat) :
    hostRead s n off x = s.recordUndefRead.nextFree.hostBind x (bytesWord (fillPoison s.freeCtr 0 bs)) := by
  have hall : ¬ bs.all Option.isSome = true := fun hall => by simpa using List.all_eq_true.mp hall none hn
  simp only [hostRead, h, if_neg hall]

theorem bindsName_hostBind (s : State) (x : Nat) (v : Word) : BindsName s (s.hostBind x v) x v :=
  ⟨Sparse.get_insert_same x v _, fun _ hy => Sparse.get_insert_other hy v _, rfl⟩

/-- Settles O54: both kinds of read end in `hostBind`, of the register's value or of `bytesWord`. -/
theorem hostReadsBindTheLittleEndianValue : Obligations.HostReadsBindTheLittleEndianValue := by
  refine fun s n off x => ⟨fun v h => ?_, fun bs h => ⟨bytesWord bs, ?_, fun i hi => bytesWord_getLsbD bs hi⟩⟩
  · rw [hostRead_word h]
    exact bindsName_hostBind s x v
  · rw [hostRead_defined h]
    exact bindsName_hostBind s x _

/-- While BUSY every byte of OBUF reads as POISON, whatever it holds (70_reset_and_hazards.md R721). -/
theorem memRead_obuf_of_busy (hp : s.params.Ok) (hb : s.isBusy = true) (ha : off.toNat % n.bytes = 0)
    (h₁ : 0x8000 ≤ off.toNat) (h₂ : off.toNat + n.bytes ≤ 0x8000 + s.params.obufBytes) :
    s.memRead n off = .bytes (List.replicate n.bytes none) := by
  simp [State.memRead, locate_obuf hp n.bytes_pos ha h₁ h₂, hb]

/-- Settles O55: a read leaves the device (`sameDevice_hostRead`), and a POISON byte among those it returns takes the
recording branch. -/
theorem hostReadsChangeNothingInTheDevice : Obligations.HostReadsChangeNothingInTheDevice := by
  refine fun s n off x => ⟨sameDevice_hostRead s n off x, fun hb ha h₁ h₂ hp => memRead_obuf_of_busy hp hb ha h₁ h₂,
    fun bs h hn => ?_⟩
  rw [hostRead_poison h hn]
  rfl

end Sys2Proof.Machine

/-! SUPPORT. The host's program line by line: what each kind of line does, where a branch goes, and when a run is over
(30_encoding.md R307, 70_reset_and_hazards.md R727, R728). -/

namespace Sys2Proof.Machine

variable {s t : State} {n : Width} {off : Offset} {v : Word} {x : Nat}

/-! ### Labels -/

/-- A label's line is the first of the program's lines that is that label. -/
theorem labelIndex_eq_idxOf? (l : Nat) (prog : List HostOp) : labelIndex l prog = prog.idxOf? (.label l) := by
  induction prog with
  | nil => rfl
  | cons op rest ih => simp [labelIndex, List.idxOf?_cons, ih]

theorem labelIndex_eq_none {l : Nat} {prog : List HostOp} : labelIndex l prog = none ↔ .label l ∉ prog := by
  rw [labelIndex_eq_idxOf?, List.idxOf?_eq_none_iff]

theorem labelIndex_eq_some {l k : Nat} {prog : List HostOp} (h : prog[k]? = some (.label l))
    (hfirst : ∀ j, j < k → prog[j]? ≠ some (.label l)) : labelIndex l prog = some k := by
  obtain ⟨hk, hl⟩ := List.getElem?_eq_some_iff.mp h
  rw [labelIndex_eq_idxOf?, List.idxOf?_eq_some_iff]
  exact ⟨hk, hl, fun j hj he => hfirst j hj (List.getElem?_eq_some_iff.mpr ⟨hj.trans hk, he⟩)⟩

/-! ### The host's own part -/

/-- No write to the device touches the host, not even one that makes a soft reset (log 16). -/
theorem memWrite_host (h : s.memWrite n off v = some t) : t.host = s.host := by
  rcases memWrite_cases h with ⟨r, rfl⟩ | ⟨-, rfl⟩ | rfl | ⟨-, k, -, rfl⟩ | ⟨-, k, -, rfl⟩
  · rcases writeReg_cases s r v with he | he | he | he | ⟨-, he⟩ | ⟨-, he | he | he⟩ <;> rw [he] <;> rfl
  all_goals rfl

theorem hostWrite_host (s : State) (n : Width) (off : Offset) (v : Word) :
    (hostWrite s n off v).host = s.host.advance := by
  rcases hostWrite_cases s n off v with ⟨t, hw, he⟩ | ⟨-, he⟩ <;> rw [he]
  · rw [State.hostAdvance_host, memWrite_host hw]
  · rfl

theorem hostRead_host (s : State) (n : Width) (off : Offset) (x : Nat) :
    ∃ v, (hostRead s n off x).host = (s.host.bind x v).advance := by
  rcases hostRead_cases s n off x with ⟨v, he⟩ | ⟨v, he⟩ | ⟨v, he⟩ <;> exact ⟨v, by rw [he]; rfl⟩

/-- The program is a parameter of the run (70_reset_and_hazards.md R727). -/
theorem hostStep_prog (h : hostStep s = .next t) : t.host.prog = s.host.prog := by
  rcases hostStep_next h with rfl | ⟨l, rfl⟩ | rfl | ⟨n, off, v, rfl⟩ | ⟨n, off, x, rfl⟩
  · rfl
  · rfl
  · rfl
  · rw [hostWrite_host]
    rfl
  · obtain ⟨w, hw⟩ := hostRead_host s n off x
    rw [hw]
    rfl

/-! ### One lemma per kind of line -/

theorem hostStep_write {val : HostValue} (h : s.hostLine = some (.write n off val)) (hv : s.host.eval val = some v) :
    hostStep s = .next (hostWrite s n off v) := by
  simp only [hostStep, h, hv]

theorem hostStep_write_unbound {val : HostValue} (h : s.hostLine = some (.write n off val))
    (hv : s.host.eval val = none) : hostStep s = .fault .unboundHostName := by
  simp only [hostStep, h, hv]

theorem hostStep_read (h : s.hostLine = some (.read n off x)) : hostStep s = .next (hostRead s n off x) := by
  rw [hostStep, h]

theorem hostStep_label {l : Nat} (h : s.hostLine = some (.label l)) : hostStep s = .next s.hostAdvance := by
  rw [hostStep, h]

theorem hostStep_bnz {m : Word} {l : Nat} (h : s.hostLine = some (.bnz x m l)) :
    hostStep s = hostBranch s x m l := by
  rw [hostStep, h]

theorem hostStep_none (h : s.hostLine = none) : hostStep s = .next s := by
  rw [hostStep, h]

section Branch

variable {m : Word} {l : Nat}

theorem hostBranch_unbound (h : Sparse.get x s.host.vars = none) (m : Word) (l : Nat) :
    hostBranch s x m l = .fault .unboundHostName := by
  rw [hostBranch, h]

theorem hostBranch_not_taken (h : Sparse.get x s.host.vars = some v) (hm : v &&& m = 0#32) (l : Nat) :
    hostBranch s x m l = .next s.hostAdvance := by
  simp only [hostBranch, h, if_pos hm]

theorem hostBranch_taken {k : Nat} (h : Sparse.get x s.host.vars = some v) (hm : v &&& m ≠ 0#32)
    (hl : labelIndex l s.host.prog = some k) : hostBranch s x m l = .next (s.hostJump k) := by
  simp only [hostBranch, h, if_neg hm, hl]

theorem hostBranch_no_label (h : Sparse.get x s.host.vars = some v) (hm : v &&& m ≠ 0#32)
    (hl : labelIndex l s.host.prog = none) : hostBranch s x m l = .fault .unknownHostLabel := by
  simp only [hostBranch, h, if_neg hm, hl]

end Branch

/-! ### The end of a run -/

theorem State.runOver_iff (s : State) : s.runOver = true ↔ s.hostLine = none ∧ s.phase = .idle := by
  rcases s.isBusy_cases with ⟨hb, hp⟩ | ⟨snap, hb, hp⟩ <;> simp [State.runOver, hb, hp]

/-- When a run is over only ENVIRONMENT is enabled (70_reset_and_hazards.md R728). -/
theorem Moves.eq_environment {a : Agent} (h : Moves a s t) (hover : s.runOver = true) : a = .environment := by
  obtain ⟨hline, hidle⟩ := s.runOver_iff.mp hover
  obtain ⟨henabled, -⟩ := h
  cases a with
  | host => simp [State.enabled, hline] at henabled
  | engine => simp [State.enabled, isBusy_of_idle hidle] at henabled
  | environment => rfl

theorem exists_moves_engine {snap : Snapshot} (h : s.phase = .busy snap) : ∃ t, Moves .engine s t := by
  have hrun : agentStep .engine s = exec (decode snap.cmd) s := by simp only [agentStep, State.runningWord, h]
  exact ⟨_, State.isBusy_of_busy h, hrun.trans (exec_busy h _)⟩

/-- Settles O57: each clause is the lemma of its kind of line. -/
theorem hostProgramsRunInOrder : Obligations.HostProgramsRunInOrder := by
  refine fun s => ⟨fun t => hostStep_prog, ?write, ?read, fun l => hostStep_label, ?bnz, ?unbound, hostStep_none,
    s.runOver_iff, fun hover a t hm => hm.eq_environment hover, fun snap => exists_moves_engine⟩
  case write =>
    intro n off val v hline hval
    have heval : s.host.eval val = some v := by
      rcases hval with rfl | ⟨x, rfl, hx⟩
      · rfl
      · exact hx
    rw [hostStep_write hline heval, hostWrite]
    refine ⟨fun t hw => ?_, fun hw => ?_⟩
    · rw [hw, ← memWrite_host hw]
      rfl
    · rw [hw]
      rfl
  case read =>
    intro n off x hline
    obtain ⟨v, hhost⟩ := hostRead_host s n off x
    exact ⟨hostStep_read hline, by rw [hhost]; rfl⟩
  case bnz =>
    intro x m l v hline hx
    rw [hostStep_bnz hline]
    exact ⟨fun hm => hostBranch_not_taken hx hm l,
      fun k hm hk hfirst => hostBranch_taken hx hm (labelIndex_eq_some hk hfirst),
      fun hm hl => hostBranch_no_label hx hm (labelIndex_eq_none.mpr hl)⟩
  case unbound =>
    rintro x hx (⟨n, off, hline⟩ | ⟨m, l, hline⟩)
    · exact hostStep_write_unbound hline hx
    · rw [hostStep_bnz hline]
      exact hostBranch_unbound hx m l

end Sys2Proof.Machine

/-! SUPPORT. Command words by their fields: the sixteen words with RSV = 0 and the words with any other RSV; from that,
the two round trips between commands and words, and where a word stands in the opcode table (30_encoding.md R300 to R302,
R305, R306). -/

namespace Sys2Proof

/-! ### Decoding by the two fields -/

/-- The cases of `decode`: a word with RSV = 0, which is its OP alone, and a word with RSV other than 0 (R301). -/
theorem word_cases {P : Word → Prop} (low : ∀ op : BitVec 4, P (0#28 ++ op))
    (high : ∀ (rsv : BitVec 28) (op : BitVec 4), rsv ≠ 0#28 → P (rsv ++ op)) (w : Word) : P w := by
  rw [← append_fields w]
  by_cases h : rsvField w = 0#28
  · rw [h]
    exact low _
  · exact high _ _ h

theorem decode_append_of_ne_zero {rsv : BitVec 28} (h : rsv ≠ 0#28) (op : BitVec 4) :
    decode (rsv ++ op) = .illegalRsv op rsv := by
  simp only [decode, rsvField_append, opField_append, if_neg h]

theorem toNat_append_fields (rsv : BitVec 28) (op : BitVec 4) :
    (rsv ++ op : Word).toNat = 16 * rsv.toNat + op.toNat := by
  rw [BitVec.toNat_append, ← Nat.shiftLeft_add_eq_or_of_lt op.isLt, Nat.shiftLeft_eq, Nat.mul_comm]

theorem toNat_low_word (op : BitVec 4) : (0#28 ++ op : Word).toNat = op.toNat := by
  simp [toNat_append_fields]

/-! ### The two round trips -/

theorem decode_encode {i : Instr} (h : i.wellFormed = true) : decode (encode i) = i := by
  cases i with
  | illegalAB lo => revert lo; decide
  | illegalCF lo => revert lo; decide
  | illegalRsv op rsv => exact decode_append_of_ne_zero (by simpa [Instr.wellFormed] using h) op
  | _ => rfl

theorem wellFormed_decode (w : Word) : (decode w).wellFormed = true := by
  cases w using word_cases with
  | low op => revert op; decide
  | high rsv op h => simp [decode_append_of_ne_zero h, Instr.wellFormed, h]

theorem encode_decode (w : Word) : encode (decode w) = w := by
  cases w using word_cases with
  | low op => revert op; decide
  | high rsv op h => rw [decode_append_of_ne_zero h, encode]

/-! ### The opcode table and the ILLEGAL words -/

theorem firstRow_encode (i : Instr) : Laws.TableRow.Statement i := by
  cases i with
  | nop => exact Laws.TableRow.nop
  | pad => exact Laws.TableRow.pad
  | unpad => exact Laws.TableRow.unpad
  | xform => exact Laws.TableRow.xform
  | ixform => exact Laws.TableRow.ixform
  | hexenc => exact Laws.TableRow.hexenc
  | hexdec => exact Laws.TableRow.hexdec
  | keydec => exact Laws.TableRow.keydec
  | encrypt => exact Laws.TableRow.encrypt
  | decrypt => exact Laws.TableRow.decrypt
  | illegalAB lo => exact Laws.TableRow.illegalAB lo
  | illegalCF lo => exact Laws.TableRow.illegalCF lo
  | illegalRsv op rsv => exact Laws.TableRow.illegalRsv op rsv

/-- The legal commands in the order of their words (30_encoding.md R302). -/
theorem decode_of_toNat_le_nine {w : Word} (h : w.toNat ≤ 9) :
    decode w = [Instr.nop, .pad, .unpad, .xform, .ixform, .hexenc, .hexdec, .keydec, .encrypt, .decrypt].getD
      w.toNat .nop := by
  cases w using word_cases with
  | low op =>
    rw [toNat_low_word] at h ⊢
    revert op
    decide
  | high rsv op hne =>
    have hpos : rsv.toNat ≠ 0 := by bv_omega
    rw [toNat_append_fields] at h
    omega

/-- The ILLEGAL words by value (30_encoding.md R305): RSV is not 0, or OP is 0xA to 0xF. -/
theorem decode_illegal {w : Word} (h : w.toNat / 16 ≠ 0 ∨ 10 ≤ w.toNat % 16) :
    (∃ lo, decode w = .illegalAB lo) ∨ (∃ lo, decode w = .illegalCF lo) ∨ ∃ op rsv, decode w = .illegalRsv op rsv := by
  cases w using word_cases with
  | low op =>
    have hop : 10 ≤ op.toNat := by
      have hlt : op.toNat < 16 := op.isLt
      rw [toNat_low_word] at h
      omega
    have hlow : ∀ op : BitVec 4, 10 ≤ op.toNat →
        (∃ lo, decode (0#28 ++ op) = .illegalAB lo) ∨ ∃ lo, decode (0#28 ++ op) = .illegalCF lo := by decide
    exact (hlow op hop).imp_right .inl
  | high rsv op hne => exact .inr (.inr ⟨op, rsv, decode_append_of_ne_zero hne op⟩)

/-! ### The statements -/

/-- Settles O1: the round trip from a command, constructor by constructor. -/
theorem decodeOfEncodeIsTheCommand : Obligations.DecodeOfEncodeIsTheCommand := fun _ => decode_encode

/-- Settles O2: the round trip from a word, by its RSV field. -/
theorem encodeOfDecodeIsTheWord : Obligations.EncodeOfDecodeIsTheWord :=
  fun w => ⟨wellFormed_decode w, encode_decode w⟩

/-- Settles O4: the word is its command's, and a well-formed command's word first matches the command's own row. -/
theorem decodeFollowsTheFirstMatchingRow : Obligations.DecodeFollowsTheFirstMatchingRow := fun w =>
  calc rowOf (decode w) = firstRow (encode (decode w)) := (firstRow_encode _ (wellFormed_decode w)).symm
    _ = firstRow w := by rw [encode_decode]

/-- Settles O5: from word 10 up, RSV is not 0 or OP is above 9. -/
theorem everyWordFromTenUpIsIllegal : Obligations.EveryWordFromTenUpIsIllegal :=
  fun _ => ⟨decode_of_toNat_le_nine, fun h => decode_illegal (by omega)⟩

/-- Settles O3: each word is evaluated. -/
theorem wordsOfTheOpcodeMapDecode : Obligations.WordsOfTheOpcodeMapDecode := by
  unfold Obligations.WordsOfTheOpcodeMapDecode
  decide

end Sys2Proof

/-! SUPPORT. The lifecycle of a command on the machine: its start by a CMD write, what each of the four completions
leaves, the frame of a completion, and what its result depends on (40_lifecycle.md R400 to R411). -/

namespace Sys2Proof.Machine

variable {s t : State} {i : Instr} {snap : Snapshot}

/-! ### Starting a command -/

theorem writeReg_cmd_of_idle (h : s.phase = .idle) (v : Word) : s.writeReg .cmd v = s.startCommand v := by
  simp [State.writeReg, isBusy_of_idle h]

theorem writeReg_cmd_of_busy (h : s.phase = .busy snap) (v : Word) : s.writeReg .cmd v = s.dropWrite := by
  simp [State.writeReg, State.isBusy_of_busy h]

/-- Settles O6: 0x000C is CMD's offset, and a write there is `startCommand` while IDLE and `dropWrite` while BUSY. -/
theorem cmdWriteStartsACommandWhenIdle : Obligations.CmdWriteStartsACommandWhenIdle := by
  intro s v
  have hwrite : s.memWrite .w32 0x000C#16 v = some (s.writeReg .cmd v) := memWrite_reg s .cmd v
  refine ⟨fun hidle => ⟨s.startCommand v, ?_, ?_⟩, fun snap hbusy => ?_⟩
  · rw [hwrite, writeReg_cmd_of_idle hidle]
  · simp [State.snapshotWith, State.irq]
  · rw [hwrite, writeReg_cmd_of_busy hbusy]
    rfl

/-! ### What a completion leaves -/

/-- OLEN is 0 after every completion that is not OK, the one after an undefined read included (40_lifecycle.md R405,
70_reset_and_hazards.md R726). -/
theorem State.complete_olen {l : List ErrCode} {r : Body Result} (h : (s.complete l r).errcode ≠ .ok) :
    (s.complete l r).olen = 0#32 := by
  rcases r with (c | _) | (_ | out)
  · rfl
  · exact if_neg h
  · rfl
  · exact absurd rfl h

/-- Settles O38: a completion is enabled exactly while BUSY (`exec_busy`, `exec_idle`). -/
theorem everyCommandCompletesExactlyWhenBusy : Obligations.EveryCommandCompletesExactlyWhenBusy :=
  fun i _ => ⟨fun _ hbusy => ⟨_, exec_busy hbusy i, State.complete_done _ _ _, State.complete_phase _ _ _,
    State.complete_olen⟩, fun hidle => exec_idle hidle i⟩

/-- STATUS after a completion: BUSY is 0, DONE is 1, and BUSYWR is as it was (10_state.md R105). -/
theorem State.completeWith_statusWord (s : State) (c : ErrCode) (n : Word) (m : Memory) :
    (s.completeWith c n m).statusWord =
      0#20 ++ c.code ++ 0#4 ++ BitVec.ofBool s.busywr ++ BitVec.ofBool (c.code != 0#4) ++ 1#1 ++ 0#1 := rfl

/-- Settles O7: NOP's body is NoData, which leaves OBUF and takes no length. -/
theorem nopCompletesWithoutData : Obligations.NopCompletesWithoutData := by
  refine ⟨by decide, fun s snap hbusy => ⟨s.completeNoData, exec_busy hbusy .nop, rfl, rfl, rfl, rfl, rfl,
    fun _ => rfl, State.complete_keepsInputs s (allowedCodes .nop) (.ok .noData), rfl, rfl, ?_, rfl⟩⟩
  exact (s.completeWith_statusWord .ok 0#32 s.obuf).trans (by cases s.busywr <;> rfl)

/-- The body of each ILLEGAL form raises IllegalCommand, with nothing read (40_lifecycle.md R406, R408). -/
theorem commandBody_illegal
    (h : (∃ lo, i = .illegalAB lo) ∨ (∃ lo, i = .illegalCF lo) ∨ ∃ op rsv, i = .illegalRsv op rsv)
    (p : Params) (snap : Snapshot) : commandBody p i snap = failWith .illegalCommand := by
  rcases h with ⟨lo, rfl⟩ | ⟨lo, rfl⟩ | ⟨op, rsv, rfl⟩ <;> rfl

/-- Settles O8: the three bodies raise IllegalCommand, and `decode_illegal` is the clause on words. -/
theorem illegalCommandsCompleteWithIllegalCommand : Obligations.IllegalCommandsCompleteWithIllegalCommand := by
  refine ⟨fun s snap i hbusy hi => ?_, fun w => decode_illegal⟩
  have hbody := commandBody_illegal hi s.params snap
  have hexec := exec_busy hbusy i
  rw [hbody] at hexec
  refine ⟨failsWith_of_body hbusy hbody, _, hexec, rfl, rfl, ?_⟩
  exact (s.completeWith_statusWord .illegalCommand 0#32 s.obuf).trans (by cases s.busywr <;> rfl)

/-! ### The frame of a completion -/

/-- A byte of the window is a byte of one of the three buffers, and outside OBUF's region no byte of OBUF. -/
theorem windowByte_congr {off : Nat} (hp : t.params = s.params) (hk : t.kbuf = s.kbuf) (hi : t.ibuf = s.ibuf)
    (ho : (0x8000 ≤ off ∧ off < 0x8000 + s.params.obufBytes) → t.obuf = s.obuf) :
    t.windowByte off = s.windowByte off := by
  unfold State.windowByte
  rw [hp, hk, hi]
  by_cases h : obufStart ≤ off ∧ off < obufStart + s.params.obufBytes
  · rw [ho h]
  · rw [if_neg h, if_neg h]

/-- OBUF stays as it was at NoData, IllegalCommand and CapacityError, unless the completion is that of an
undefined read, which alone steps the free values' counter (40_lifecycle.md R403, R405). -/
theorem State.complete_obuf {l : List ErrCode} {r : Body Result} (hctr : (s.complete l r).freeCtr = s.freeCtr)
    (h : r = .ok .noData ∨ (s.complete l r).errcode = .illegalCommand ∨ (s.complete l r).errcode = .capacityError) :
    (s.complete l r).obuf = s.obuf := by
  rcases r with (c | _) | (_ | out)
  · have hkeeps : c.keepsObuf = true := by
      rcases h with h | rfl | rfl
      · cases h
      · rfl
      · rfl
    exact if_pos hkeeps
  · simp [State.complete] at hctr
  · rfl
  · simp [State.complete] at h

/-- Settles O39: a completion touches OBUF alone among the buffers, and OBUF only with a result or another error. -/
theorem commandsWriteOnlyObufOlenAndStatus : Obligations.CommandsWriteOnlyObufOlenAndStatus := by
  intro i s t h
  obtain ⟨snap, -, rfl⟩ := exec_next h
  have hkeeps := s.complete_keepsInputs (allowedCodes i) (commandBody s.params i snap)
  have ⟨_, _, _, _, _, hk, hi, hp, _⟩ := hkeeps
  refine ⟨hkeeps, fun off hoff => windowByte_congr hp hk hi fun h => absurd h hoff,
    fun hcase off => windowByte_congr hp hk hi fun _ => ?_⟩
  rcases hcase with rfl | ⟨hctr, herr⟩
  · exact State.complete_obuf rfl (.inl rfl)
  · exact State.complete_obuf hctr (.inr herr)

/-- Two states complete alike by one body result that is no undefined read; OBUF is the result's own, or as it was in
each. -/
theorem State.complete_congr (s' : State) {l : List ErrCode} {r : Body Result}
    (h : (s.complete l r).freeCtr = s.freeCtr) :
    (s'.complete l r).freeCtr = s'.freeCtr ∧ (s'.complete l r).errcode = (s.complete l r).errcode ∧
      (s'.complete l r).olen = (s.complete l r).olen ∧
      ((s'.complete l r).obuf = (s.complete l r).obuf ∨
        ((s.complete l r).obuf = s.obuf ∧ (s'.complete l r).obuf = s'.obuf)) := by
  rcases r with (c | _) | (_ | out)
  · refine ⟨rfl, rfl, rfl, ?_⟩
    cases hc : c.keepsObuf with
    | true => exact .inr (by simp [State.complete, hc])
    | false => exact .inl (by simp [State.complete, hc])
  · simp [State.complete] at h
  · exact ⟨rfl, rfl, rfl, .inr ⟨rfl, rfl⟩⟩
  · exact ⟨rfl, rfl, rfl, .inl rfl⟩

/-- Settles O42: with one snapshot and one set of sizes the body, a function of these, is the same. -/
theorem resultDependsOnTheSnapshotAlone : Obligations.ResultDependsOnTheSnapshotAlone := by
  intro i s s' t t' hparams hphase h h' hctr
  obtain ⟨snap, hbusy, rfl⟩ := exec_next h
  rw [exec_busy (hphase ▸ hbusy), ← hparams] at h'
  obtain rfl := Host.Outcome.next.inj h'
  exact State.complete_congr s' hctr

end Sys2Proof.Machine

/-! SUPPORT. CapacityError: the three checks written out per command, and that no body raises it once they have passed
(30_encoding.md R303, 40_lifecycle.md R407). -/

namespace Sys2Proof.Machine

variable {s : State} {p : Params} {i : Instr} {snap : Snapshot}

/-! ### The three checks -/

theorem readsIlen_iff : readsIlen i = true ↔
    i ∈ [Instr.pad, .unpad, .xform, .ixform, .hexenc, .hexdec, .encrypt, .decrypt] := by
  cases i <;> simp [readsIlen]

theorem readsKlen_iff : readsKlen i = true ↔ i ∈ [Instr.xform, .ixform, .keydec, .encrypt, .decrypt] := by
  cases i <;> simp [readsKlen]

/-- Only three commands have an output that can be too long (40_lifecycle.md R407). -/
theorem lt_outlen_iff {m n : Nat} : m < outlen i n ↔
    (i = .pad ∧ m < n + (16 - n % 16)) ∨ (i = .hexenc ∧ m < 2 * n) ∨ (i = .encrypt ∧ m < 33 * (n / 16 + 1) - 1) := by
  cases i <;> simp [outlen]

theorem overCapacity_eq_true {a b : Nat} : overCapacity p i a b = true ↔
    (readsIlen i = true ∧ p.ibufBytes < a) ∨ (readsKlen i = true ∧ p.kbufBytes < b) ∨ p.obufBytes < outlen i a := by
  simp [overCapacity, or_assoc]

/-! ### Past the checks -/

/-- The second of two computations in a row runs only with what the first gave. -/
theorem raisesIn_bind_ok {α β : Type} {r : Body α} {f : α → Body β} {l : List ErrCode} (hr : Body.RaisesIn r l)
    (hf : ∀ a, r = .ok a → Body.RaisesIn (f a) l) : Body.RaisesIn (r >>= f) l := by
  rcases r with e | a
  · exact fun c hc => hr c (congrArg Except.error (Except.error.inj hc))
  · exact hf a rfl

/-- Both pipelines end in a step that runs with a key of 32 bytes (43_hex.md R462). -/
theorem pipeline_raises {l : List ErrCode} {f : List Byte → List Byte → Body (List Byte)} (snap : Snapshot)
    (hkey : [ErrCode.invalidKeyFormat, .invalidKeyLength] ⊆ l)
    (hf : ∀ key d, 16 ≤ key.length → Body.RaisesIn (f key d) l) :
    Body.RaisesIn (do
      let key ← keydecOperand snap.key
      let d ← demandAll snap.input
      let out ← f key d
      return Result.data out) l := by
  refine raisesIn_bind_ok (raisesIn_mono (keydecOperand_raises _) hkey) fun key hk => ?_
  have hlen := keydecOperand_length hk
  exact raisesIn_bind (raisesIn_mono (demandAll_raises _) (by simp)) fun d =>
    raisesIn_bind (hf key d (by omega)) fun _ => raisesIn_ok _ _

theorem allowedCodes_nodup (i : Instr) : (allowedCodes i).Nodup := by cases i <;> simp [allowedCodes]

/-- Once the checks have passed, a command raises the other errors of its row alone (60_exceptions.md R602). -/
theorem commandBody_raises_of_fits (h : overCapacity p i snap.ilen.toNat snap.klen.toNat = false) :
    Body.RaisesIn (commandBody p i snap) ((allowedCodes i).erase .capacityError) := by
  cases i <;> simp only [commandBody, capacityCheck_ok h, body_pure_bind]
  case nop => exact raisesIn_ok _ _
  case pad => exact raisesIn_bind (raisesIn_mono (demandAll_raises _) (by simp)) fun _ => raisesIn_ok _ _
  case unpad => exact raisesIn_bind (raisesIn_mono (unpadOperand_raises _) (by decide)) fun _ => raisesIn_ok _ _
  case xform => exact raisesIn_mono (blockBody_raises _ _) (by decide)
  case ixform => exact raisesIn_mono (blockBody_raises _ _) (by decide)
  case hexenc => exact raisesIn_bind (raisesIn_mono (demandAll_raises _) (by simp)) fun _ => raisesIn_ok _ _
  case hexdec => exact raisesIn_bind (raisesIn_mono (hexdecOperand_raises _ _) (by decide)) fun _ => raisesIn_ok _ _
  case keydec => exact raisesIn_bind (raisesIn_mono (keydecOperand_raises _) (by decide)) fun _ => raisesIn_ok _ _
  case encrypt =>
    exact pipeline_raises snap (by decide) fun _ d hk => raisesIn_mono (encryptWith_raises hk d) (by decide)
  case decrypt =>
    exact pipeline_raises snap (by decide) fun _ d hk => raisesIn_mono (decryptWith_raises hk d) (by decide)
  case illegalAB => exact raisesIn_fail (by simp [allowedCodes])
  case illegalCF => exact raisesIn_fail (by simp [allowedCodes])
  case illegalRsv => exact raisesIn_fail (by simp [allowedCodes])

/-! ### Failing with an error -/

/-- A command fails with an error exactly when its body raises it: the completion after an undefined read steps the
free values' counter, and every other is OK. -/
theorem failsWith_iff {c : ErrCode} (hbusy : s.phase = .busy snap) (hc : c ≠ .ok) :
    FailsWith i s c ↔ commandBody s.params i snap = failWith c := by
  refine ⟨?_, failsWith_of_body hbusy⟩
  rintro ⟨t, ht, herr, -, -, -, -, -, -, hctr⟩
  rw [exec_busy hbusy] at ht
  obtain rfl := Host.Outcome.next.inj ht
  rcases hbody : commandBody s.params i snap with (c' | _) | (_ | out) <;> rw [hbody] at herr hctr
  · exact congrArg failWith herr
  · simp [State.complete] at hctr
  · exact absurd herr.symm hc
  · exact absurd herr.symm hc

theorem failsWith_capacityError_iff (hbusy : s.phase = .busy snap) :
    FailsWith i s .capacityError ↔ overCapacity s.params i snap.ilen.toNat snap.klen.toNat = true := by
  rw [failsWith_iff hbusy (by decide)]
  refine ⟨fun hbody => ?_, commandBody_over⟩
  by_contra hfits
  exact (allowedCodes_nodup i).not_mem_erase (commandBody_raises_of_fits (Bool.eq_false_iff.mpr hfits) _ hbody)

/-- Settles O40: the error is the checks' alone; with the default sizes 33 * 497 - 1 is the first output length above
16384, so ENCRYPT's third check fails from 496 blocks on. -/
theorem capacityErrorExactlyWhenACheckFails : Obligations.CapacityErrorExactlyWhenACheckFails := by
  intro i s snap hbusy
  refine ⟨?_, fun hdefault hkey => ?_⟩
  · rw [failsWith_capacityError_iff hbusy, overCapacity_eq_true, readsIlen_iff, readsKlen_iff, lt_outlen_iff]
  · rw [failsWith_capacityError_iff hbusy, overCapacity_eq_true, hdefault]
    simp only [readsIlen, readsKlen, outlen, Params.default, true_and]
    omega

end Sys2Proof.Machine

/-! SUPPORT. Where each command's body reads a POISON byte, from the lemmas about the reading of its operands
(40_lifecycle.md R407, 70_reset_and_hazards.md R726, log 9). -/

namespace Sys2Proof.Machine

variable {s : State} {p : Params} {i : Instr} {snap : Snapshot}

/-- What is computed from a reading's result reads nothing more. -/
theorem reading_eq_undef {r : Body (List Byte)} {g : List Byte → Result} :
    (do let d ← r; return g d) = (.error .undefRead : Body Result) ↔ r = .error .undefRead := by
  cases r <;> simp [pure, Except.pure]

/-- Each pipeline reads the key text, then, with a good key, the input; what follows works on defined bytes. -/
theorem pipeline_eq_undef {f : List Byte → List Byte → Body (List Byte)}
    (hf : ∀ key d, 16 ≤ key.length → f key d ≠ .error .undefRead) :
    (do
      let key ← keydecOperand snap.key
      let d ← demandAll snap.input
      let out ← f key d
      return Result.data out) = (.error .undefRead : Body Result) ↔
    HexReadsPoison snap.key ∨ ∃ kt key, snap.KeyIs kt ∧ keydec kt = .ok key ∧ none ∈ snap.input := by
  rw [body_bind_undef, keydecOperand_eq_undef]
  refine or_congr Iff.rfl ⟨?_, ?_⟩
  · rintro ⟨key, hkey, h⟩
    obtain ⟨kt, hkt, hdec⟩ := keydecOperand_eq_ok.mp hkey
    refine ⟨kt, key, hkt, hdec, ?_⟩
    rcases body_bind_undef.mp h with h | ⟨d, -, h⟩
    · exact demandAll_eq_undef.mp h
    · have hlen := keydecOperand_length hkey
      exact absurd (reading_eq_undef.mp h) (hf key d (by omega))
  · rintro ⟨kt, key, hkt, hdec, hnone⟩
    exact ⟨key, keydecOperand_eq_ok.mpr ⟨kt, hkt, hdec⟩, body_bind_undef.mpr (.inl (demandAll_undef hnone))⟩

theorem encryptWith_ne_undef {key : List Byte} (h : 16 ≤ key.length) (d : List Byte) :
    encryptWith key d ≠ .error .undefRead := by
  rw [encryptWith_eq h]
  simp

/-- A command that reads one operand: its checks read nothing, and after the reading nothing more is read. -/
theorem checked_reading_eq_undef {r : Body (List Byte)} {g : List Byte → Result} :
    (do
      capacityCheck p i snap
      let d ← r
      return g d) = (.error .undefRead : Body Result) ↔
    ((readsIlen i = true → snap.ilen.toNat ≤ p.ibufBytes) ∧ (readsKlen i = true → snap.klen.toNat ≤ p.kbufBytes) ∧
      outlen i snap.ilen.toNat ≤ p.obufBytes) ∧ r = .error .undefRead := by
  rw [capacityCheck_bind_undef, overCapacity_eq_false, reading_eq_undef]

/-! ### One lemma per reading -/

/-- With OBUF twice as long as IBUF, the output of PAD and HEXENC fits where their input does (40_lifecycle.md R407). -/
theorem outlen_le (hp : p.Ok) (hi : i ∈ [Instr.pad, .hexenc]) {n : Nat} (hn : n ≤ p.ibufBytes) :
    outlen i n ≤ p.obufBytes := by
  obtain ⟨-, ⟨-, h64, -⟩, -, h2, -⟩ := hp
  simp only [List.mem_cons, List.not_mem_nil, or_false] at hi
  rcases hi with rfl | rfl <;> simp only [outlen, Config.block] <;> omega

theorem commandBody_pad_hexenc_eq_undef (hp : p.Ok) (hi : i ∈ [Instr.pad, .hexenc]) :
    commandBody p i snap = .error .undefRead ↔ snap.ilen.toNat ≤ p.ibufBytes ∧ none ∈ snap.input := by
  have hout := outlen_le hp hi (n := snap.ilen.toNat)
  simp only [List.mem_cons, List.not_mem_nil, or_false] at hi
  rcases hi with rfl | rfl <;> rw [commandBody, checked_reading_eq_undef, demandAll_eq_undef] <;>
    simpa [readsIlen, readsKlen] using fun _ => hout

theorem commandBody_unpad_eq_undef : commandBody p .unpad snap = .error .undefRead ↔
    snap.ilen.toNat ≤ p.ibufBytes ∧ UnpadReadsPoison snap.input := by
  rw [commandBody, checked_reading_eq_undef, unpadOperand_eq_undef]
  simp [readsIlen, readsKlen, outlen]

theorem commandBody_hexdec_eq_undef : commandBody p .hexdec snap = .error .undefRead ↔
    snap.ilen.toNat ≤ p.ibufBytes ∧ HexReadsPoison snap.input := by
  rw [commandBody, checked_reading_eq_undef, hexdecOperand_eq_undef]
  simp [readsIlen, readsKlen, outlen]

theorem commandBody_keydec_eq_undef : commandBody p .keydec snap = .error .undefRead ↔
    snap.klen.toNat ≤ p.kbufBytes ∧ HexReadsPoison snap.key := by
  rw [commandBody, checked_reading_eq_undef, keydecOperand_eq_undef]
  simp [readsIlen, readsKlen, outlen]

/-- A block of 16 bytes always fits IBUF, so of the checks only the key's is left (00_scope.md R6). -/
theorem commandBody_xform_ixform_eq_undef (hp : p.Ok) (hi : i ∈ [Instr.xform, .ixform]) :
    commandBody p i snap = .error .undefRead ↔ snap.ilen = 16#32 ∧ 16 ≤ snap.klen.toNat ∧
      snap.klen.toNat ≤ p.kbufBytes ∧ (none ∈ snap.ibuf.slice 16 ∨ none ∈ snap.kbuf.slice 16) := by
  obtain ⟨-, ⟨-, h64, -⟩, -⟩ := hp
  have hilen : snap.ilen = 16#32 ↔ snap.ilen.toNat = 16 := BitVec.toNat_inj.symm
  have hbody : commandBody p i snap = .error .undefRead ↔
      (snap.ilen.toNat ≤ p.ibufBytes ∧ snap.klen.toNat ≤ p.kbufBytes) ∧ snap.ilen.toNat = 16 ∧
        16 ≤ snap.klen.toNat ∧ (none ∈ snap.ibuf.slice 16 ∨ none ∈ snap.kbuf.slice 16) := by
    simp only [List.mem_cons, List.not_mem_nil, or_false] at hi
    rcases hi with rfl | rfl <;>
      rw [commandBody, capacityCheck_bind_undef, overCapacity_eq_false, blockBody_eq_undef] <;>
      simp only [readsIlen, readsKlen, outlen, true_implies, Nat.zero_le, and_true]
  rw [hbody, hilen]
  constructor
  · rintro ⟨⟨-, hfits⟩, h16, hlong, hpoison⟩
    exact ⟨h16, hlong, hfits, hpoison⟩
  · rintro ⟨h16, hlong, hfits, hpoison⟩
    exact ⟨⟨by omega, hfits⟩, h16, hlong, hpoison⟩

theorem commandBody_encrypt_eq_undef : commandBody p .encrypt snap = .error .undefRead ↔
    snap.ilen.toNat ≤ p.ibufBytes ∧ snap.klen.toNat ≤ p.kbufBytes ∧
    33 * (snap.ilen.toNat / 16 + 1) - 1 ≤ p.obufBytes ∧
    (HexReadsPoison snap.key ∨ ∃ kt key, snap.KeyIs kt ∧ keydec kt = .ok key ∧ none ∈ snap.input) := by
  rw [commandBody, capacityCheck_bind_undef, overCapacity_eq_false,
    pipeline_eq_undef fun _ d hk => encryptWith_ne_undef hk d]
  simp only [readsIlen, readsKlen, outlen, true_implies, and_assoc]

theorem commandBody_decrypt_eq_undef : commandBody p .decrypt snap = .error .undefRead ↔
    snap.ilen.toNat ≤ p.ibufBytes ∧ snap.klen.toNat ≤ p.kbufBytes ∧
    (HexReadsPoison snap.key ∨ ∃ kt key, snap.KeyIs kt ∧ keydec kt = .ok key ∧ none ∈ snap.input) := by
  rw [commandBody, capacityCheck_bind_undef, overCapacity_eq_false,
    pipeline_eq_undef fun key d _ => decryptWith_ne_undef key d]
  simp [readsIlen, readsKlen, outlen, and_assoc]

/-- NOP and the ILLEGAL forms have no operand (30_encoding.md R303). -/
theorem commandBody_noOperand_ne_undef
    (hi : i = .nop ∨ (∃ lo, i = .illegalAB lo) ∨ (∃ lo, i = .illegalCF lo) ∨ ∃ op rsv, i = .illegalRsv op rsv) :
    commandBody p i snap ≠ .error .undefRead := by
  rcases hi with rfl | ⟨lo, rfl⟩ | ⟨lo, rfl⟩ | ⟨op, rsv, rfl⟩ <;> simp [commandBody, failWith]

/-- Settles O41: a command completes with free values exactly when its body reads a POISON byte. -/
theorem undefinedReadsCompleteWithFreeValues : Obligations.UndefinedReadsCompleteWithFreeValues := by
  intro s snap hp hbusy
  simp only [completesUndefined_iff hbusy]
  exact ⟨fun _ => commandBody_pad_hexenc_eq_undef hp, commandBody_unpad_eq_undef,
    fun _ => commandBody_xform_ixform_eq_undef hp, commandBody_hexdec_eq_undef, commandBody_keydec_eq_undef,
    commandBody_encrypt_eq_undef, commandBody_decrypt_eq_undef, fun _ => commandBody_noOperand_ne_undef⟩

end Sys2Proof.Machine

/-! SUPPORT. The machine's step by whose turn it is; how a BUSY phase ends; and runs by any turns as runs of `step`
(40_lifecycle.md R402, 70_reset_and_hazards.md R720, R727). -/

namespace Sys2Proof.Machine

variable {s t : State} {a : Agent} {snap : Snapshot}

/-! ### The agent whose turn it is -/

theorem agentStep_engine_of_busy (h : s.phase = .busy snap) : agentStep .engine s = exec (decode snap.cmd) s := by
  simp only [agentStep, State.runningWord, h]

theorem agentStep_engine_of_idle (h : s.phase = .idle) : agentStep .engine s = .next s := by
  simp only [agentStep, State.runningWord, h]

theorem step_listed {rest : List Agent} (h : s.sched = a :: rest) :
    step s = agentStep a { s with sched := rest } := by
  rw [step, takeTurn_listed h]

theorem step_default (h : s.sched = []) (hf : s.freeTurn = none) : step s = agentStep s.defaultAgent s := by
  rw [step, takeTurn_default h hf]

theorem step_free {n : Nat} (h : s.sched = []) (hf : s.freeTurn = some n) :
    step s = agentStep (freeAgent n) { s with freeTurn := some (n + 1) } := by
  rw [step, takeTurn_free h hf]

theorem step_default_of_busy (h : s.sched = []) (hf : s.freeTurn = none) (hbusy : s.phase = .busy snap) :
    step s = exec (decode snap.cmd) s := by
  rw [step_default h hf, State.defaultAgent, if_pos (State.isBusy_of_busy hbusy), agentStep_engine_of_busy hbusy]

theorem step_default_of_idle (h : s.sched = []) (hf : s.freeTurn = none) (hidle : s.phase = .idle) :
    step s = hostStep s := by
  rw [step_default h hf, State.defaultAgent, isBusy_of_idle hidle]
  rfl

/-- Settles O43: each clause is the lemma of its kind of turn. -/
theorem stepRunsTheDecodedCommand : Obligations.StepRunsTheDecodedCommand := fun _ _ =>
  ⟨fun _ hbusy => ⟨fun h hf => step_default_of_busy h hf hbusy,
      fun h => (step_listed h).trans (agentStep_engine_of_busy hbusy)⟩,
    fun hidle => ⟨fun h hf => step_default_of_idle h hf hidle,
      fun h => (step_listed h).trans (agentStep_engine_of_idle hidle)⟩,
    step_listed, step_listed, fun _ => step_free⟩

/-! ### How a BUSY phase ends -/

/-- Of the writes the host can make while BUSY, only a soft reset touches the phase (70_reset_and_hazards.md R704,
R722). -/
theorem memWrite_of_busy {n : Width} {off : Offset} {v : Word} (hbusy : s.phase = .busy snap)
    (h : s.memWrite n off v = some t) : t.phase = .busy snap ∨ t = s.deviceReset := by
  have hb := State.isBusy_of_busy hbusy
  rcases memWrite_cases h with ⟨r, rfl⟩ | ⟨-, rfl⟩ | rfl | ⟨hidle, -⟩ | ⟨hidle, -⟩
  · rcases writeReg_cases s r v with he | he | he | he | ⟨-, he⟩ | ⟨hidle, -⟩
    · exact .inl ((congrArg State.phase he).trans hbusy)
    · exact .inr he
    · exact .inl ((congrArg State.phase he).trans hbusy)
    · exact .inl ((congrArg State.phase he).trans hbusy)
    · exact .inl ((congrArg State.phase he).trans hbusy)
    · simp [hb] at hidle
  · exact .inl hbusy
  · exact .inl hbusy
  · simp [hb] at hidle
  · simp [hb] at hidle

/-- A host step keeps the running command and its snapshot, or is a soft reset. -/
theorem hostStep_of_busy (hbusy : s.phase = .busy snap) (h : hostStep s = .next t) :
    t.phase = .busy snap ∨ t = s.deviceReset.hostAdvance := by
  rcases hostStep_next h with rfl | ⟨line, rfl⟩ | rfl | ⟨n, off, v, rfl⟩ | ⟨n, off, x, rfl⟩
  · exact .inl hbusy
  · exact .inl hbusy
  · exact .inl hbusy
  · rcases hostWrite_cases s n off v with ⟨u, hw, he⟩ | ⟨-, he⟩
    · rw [he]
      exact (memWrite_of_busy hbusy hw).imp id (congrArg State.hostAdvance)
    · exact .inl (he ▸ hbusy)
  · obtain ⟨-, -, -, -, -, -, -, -, -, -, -, hphase, -⟩ := sameDevice_hostRead s n off x
    exact .inl (hphase.trans hbusy)

/-- A BUSY phase ends, whoever moves, by the completion of the snapshot's command or by a reset. -/
def EndsBusy (a : Agent) (snap : Snapshot) (s t : State) : Prop :=
  t.phase = .idle ∧ ((a = .engine ∧ exec (decode snap.cmd) s = .next t) ∨ AtResetValues t)

theorem agentStep_of_busy (hbusy : s.phase = .busy snap) (h : agentStep a s = .next t) :
    t.phase = .busy snap ∨ EndsBusy a snap s t := by
  cases a with
  | host =>
    rcases hostStep_of_busy hbusy h with hp | rfl
    · exact .inl hp
    · exact .inr ⟨rfl, .inr (atResetValues_deviceReset s.hostAdvance)⟩
  | engine =>
    rw [agentStep_engine_of_busy hbusy] at h
    obtain ⟨_, -, ht⟩ := exec_next h
    exact .inr ⟨ht ▸ State.complete_phase _ _ _, .inl ⟨rfl, h⟩⟩
  | environment =>
    obtain rfl := Host.Outcome.next.inj h
    exact .inr ⟨rfl, .inr (atResetValues_deviceReset s)⟩

theorem step_of_busy (hbusy : s.phase = .busy snap) (h : step s = .next t) :
    t.phase = .busy snap ∨ t.phase = .idle := by
  obtain ⟨l, f, hs⟩ := takeTurn_state s
  rw [step, hs] at h
  exact (agentStep_of_busy (s := s.withTurns l f) hbusy h).imp id And.left

/-- In an endless run a BUSY phase keeps its snapshot for as long as no state is IDLE. -/
theorem EndlessRun.keeps_snapshot {turn : Nat → Agent} {run : Nat → State} (hrun : EndlessRun turn run) {n m k : Nat}
    (hbusy : (run n).phase = .busy snap) (hm : ∀ j, n < j → j < m → (run j).isBusy = true) (hn : n ≤ k) (hk : k < m) :
    (run k).phase = .busy snap := by
  induction k, hn using Nat.le_induction with
  | base => exact hbusy
  | succ k hn ih =>
    rcases agentStep_of_busy (ih (by omega)) (hrun k).2 with hp | ⟨hidle, -⟩
    · exact hp
    · have hb := hm (k + 1) (by omega) hk
      simp [isBusy_of_idle hidle] at hb

/-- Fairness gives a first IDLE state; the step before it is the one that ends the BUSY phase. -/
theorem EndlessRun.busy_ends {turn : Nat → Agent} {run : Nat → State} {n : Nat} (hrun : EndlessRun turn run)
    (hfair : Fair run) (hbusy : (run n).phase = .busy snap) :
    ∃ m, n ≤ m ∧ (∀ k, n ≤ k → k ≤ m → (run k).phase = .busy snap) ∧
      EndsBusy (turn m) snap (run m) (run (m + 1)) := by
  have hex := hfair n (State.isBusy_of_busy hbusy)
  obtain ⟨hlt, hidle⟩ := Nat.find_spec hex
  obtain ⟨m, hm⟩ := Nat.exists_eq_add_of_lt (Nat.zero_lt_of_lt hlt)
  have hkeeps : ∀ k, n ≤ k → k < Nat.find hex → (run k).phase = .busy snap := fun k =>
    hrun.keeps_snapshot hbusy fun j hnj hj => by simpa [hnj] using Nat.find_min hex hj
  rw [zero_add] at hm
  rw [hm] at hlt hidle hkeeps
  refine ⟨m, by omega, fun k hn hk => hkeeps k hn (by omega), ?_⟩
  rcases agentStep_of_busy (hkeeps m (by omega) (by omega)) (hrun m).2 with hp | hends
  · simp [State.isBusy_of_busy hp] at hidle
  · exact hends

/-! ### Runs by listed turns -/

/-- As an agent's step looks at no turns to come (`agentStep_withTurns`), it changes none. -/
theorem agentStep_freeTurn (h : agentStep a s = .next t) : t.freeTurn = s.freeTurn := by
  have h' : agentStep a s = .next (t.withTurns s.sched s.freeTurn) := agentStep_withTurns s.sched s.freeTurn h
  rw [Host.Outcome.next.inj (h.symm.trans h')]
  rfl

theorem FiniteRun.core_run {turns : List Agent} (h : FiniteRun turns s t) :
    core.run turns.length { s with sched := turns } = .next { t with sched := [] } := by
  induction turns generalizing s with
  | nil =>
    obtain rfl : t = s := h
    rfl
  | cons a turns ih =>
    obtain ⟨u, ⟨-, hstep⟩, hrest⟩ := h
    have hnext : step { s with sched := a :: turns } = .next { u with sched := turns } := by
      have hturns : u.withTurns turns s.freeTurn = { u with sched := turns } := by
        rw [← agentStep_freeTurn hstep]
        rfl
      have hu := agentStep_withTurns turns s.freeTurn hstep
      rw [step_listed rfl, ← hturns]
      exact hu
    exact (core_run_next hnext).trans (ih hrest)

/-- Settles O44: what an agent's step does to a BUSY phase, along the runs of `step` and of the agents. -/
theorem busyEndsByCompletionOrReset : Obligations.BusyEndsByCompletionOrReset := by
  refine ⟨fun s snap hbusy => ⟨fun t => step_of_busy hbusy, fun t h hidle => ?_, fun h hf => ?_⟩,
    fun turn run n snap hrun hfair hbusy => hrun.busy_ends hfair hbusy, fun turns s t h => h.core_run⟩
  · rcases hostStep_of_busy hbusy h with hp | rfl
    · rw [hp] at hidle
      cases hidle
    · exact ⟨rfl, rfl, rfl⟩
  · rw [step_default_of_busy h hf hbusy]
    exact ⟨_, exec_busy hbusy _, State.complete_phase _ _ _, State.complete_done _ _ _⟩

end Sys2Proof.Machine

/-! SUPPORT. The padder: what `unpad` accepts, as one equation on byte strings; from that, the round trip, the four
checks and the three cases of a changed padding byte; and the commands PAD and UNPAD (41_padding.md). -/

namespace Sys2Proof.Machine

variable {d r x : List Byte} {v : Byte} {s : State} {i : Instr} {snap : Snapshot}

/-! ### Padding -/

/-- A padding length is its own byte's value, as it is at most 16. -/
theorem padByte_toNat (n : Nat) : (BitVec.ofNat 8 (padLength n)).toNat = padLength n := by
  have h := padLength_le n
  rw [BitVec.toNat_ofNat]
  omega

theorem getLast?_append_replicate (r : List Byte) {n : Nat} (hn : 1 ≤ n) (v : Byte) :
    (r ++ List.replicate n v).getLast? = some v := by
  have hne : n ≠ 0 := by omega
  simp [List.getLast?_append, List.getLast?_replicate, hne]

theorem replicate_eq_concat {n : Nat} (hn : 1 ≤ n) (v : Byte) :
    List.replicate n v = List.replicate (n - 1) v ++ [v] := by
  rw [← List.replicate_succ', Nat.sub_add_cancel hn]

/-- Settles O18: with p = `padLength d.length`, which is from 1 to 16, `pad d` is `d` and p bytes of value p. -/
theorem padHasItsProperties : Obligations.PadHasItsProperties := by
  intro d
  have hpos := padLength_pos d.length
  refine ⟨pad_length d, fun h => ?_, List.take_left, BitVec.ofNat 8 (padLength d.length), ?_⟩
  · have h16 : padLength d.length = 16 := by simp [padLength, Config.block, h]
    rw [pad, h16]
  · rw [padByte_toNat]
    exact ⟨hpos, padLength_le _, getLast?_append_replicate d hpos _, by simp [pad]⟩

/-! ### What unpad accepts -/

/-- `unpad` gives `r` exactly for `r` followed by p bytes of value p, p from 1 to 16 (R422). -/
theorem unpad_eq_ok : unpad d = .ok r ↔
    ∃ p : Byte, 1 ≤ p.toNat ∧ p.toNat ≤ 16 ∧ d = r ++ List.replicate p.toNat p := by
  constructor
  · intro h
    unfold unpad at h
    split at h
    case h_1 => cases h
    case h_2 p _ =>
      split_ifs at h with hrange hshort hall
      · cases h
      · obtain ⟨hpos, hle⟩ : 1 ≤ p.toNat ∧ p.toNat ≤ 16 := by simpa [padByteInRange, Config.block] using hrange
        obtain rfl := Except.ok.inj h
        have hdrop : d.drop (d.length - p.toNat) = List.replicate p.toNat p :=
          List.eq_replicate_iff.mpr ⟨by rw [List.length_drop]; omega, by simpa using hall⟩
        exact ⟨p, hpos, hle, by rw [← hdrop, List.take_append_drop]⟩
      · cases h
      · cases h
  · rintro ⟨p, hpos, hle, rfl⟩
    simp [unpad, getLast?_append_replicate r hpos p, padByteInRange, Config.block, hpos, hle]

/-- Every check of `unpad` raises the same error. -/
theorem unpad_eq_paddingError (h : ∀ r, unpad d ≠ .ok r) : unpad d = failWith .paddingError := by
  rcases hu : unpad d with (c | _) | r
  · obtain rfl : c = .paddingError := by simpa using unpad_raises d c hu
    rfl
  · exact absurd hu (unpad_ne_undef d)
  · exact absurd hu (h r)

/-- Settles O20: `pad d` has the form `unpad` accepts. -/
theorem unpadUndoesPad : Obligations.UnpadUndoesPad := fun d =>
  unpad_eq_ok.mpr ⟨BitVec.ofNat 8 (padLength d.length), by
    rw [padByte_toNat]
    exact ⟨padLength_pos _, padLength_le _, rfl⟩⟩

/-- A byte string ends in `n` bytes `v` exactly when its last `n` places hold `v`. -/
theorem eq_append_replicate_iff {n : Nat} : d = r ++ List.replicate n v ↔
    n ≤ d.length ∧ (∀ j, d.length - n ≤ j → j < d.length → d[j]? = some v) ∧ r = d.take (d.length - n) := by
  constructor
  · rintro rfl
    simp only [List.length_append, List.length_replicate, Nat.add_sub_cancel]
    refine ⟨Nat.le_add_left _ _, fun j hj hlt => ?_, List.take_left.symm⟩
    rw [List.getElem?_append_right hj, List.getElem?_replicate, if_pos (by omega)]
  · rintro ⟨hn, hplaces, rfl⟩
    have hdrop : d.drop (d.length - n) = List.replicate n v := by
      refine List.eq_replicate_iff.mpr ⟨by rw [List.length_drop]; omega, fun b hb => ?_⟩
      obtain ⟨k, hk, rfl⟩ := List.mem_drop_iff_getElem.mp hb
      obtain ⟨_, hplace⟩ := List.getElem?_eq_some_iff.mp (hplaces (d.length - n + k) (by omega) (by omega))
      exact hplace
    rw [← hdrop, List.take_append_drop]

/-- Settles O19: the four checks on `d` say that `d` has the form `unpad` accepts. -/
theorem unpadAppliesExactlyItsFourChecks : Obligations.UnpadAppliesExactlyItsFourChecks := by
  refine fun d => ⟨fun r => unpad_eq_ok.trans (exists_congr fun p => ?_), unpad_eq_paddingError⟩
  constructor
  · rintro ⟨hpos, hle, h⟩
    exact ⟨h ▸ getLast?_append_replicate r hpos p, hpos, hle, eq_append_replicate_iff.mp h⟩
  · rintro ⟨-, hpos, hle, h⟩
    exact ⟨hpos, hle, eq_append_replicate_iff.mpr h⟩

/-! ### A changed padding byte -/

/-- Of the p bytes `unpad` accepts, the last one settles p. -/
theorem unpad_concat_eq_ok : unpad (x ++ [v]) = .ok r ↔
    1 ≤ v.toNat ∧ v.toNat ≤ 16 ∧ x = r ++ List.replicate (v.toNat - 1) v := by
  rw [unpad_eq_ok]
  constructor
  · rintro ⟨p, hpos, hle, h⟩
    rw [replicate_eq_concat hpos, ← List.append_assoc] at h
    obtain ⟨hx, hv⟩ := List.append_inj' h rfl
    obtain rfl := List.singleton_inj.mp hv
    exact ⟨hpos, hle, hx⟩
  · rintro ⟨hpos, hle, rfl⟩
    exact ⟨v, hpos, hle, by rw [List.append_assoc, ← replicate_eq_concat hpos]⟩

/-- Below the last padding byte, no byte but p is accepted. -/
theorem unpad_set_replicate_ne_ok {k n : Nat} {p : Byte} (hp : p.toNat = n) (hk : k < n - 1) (hv : v ≠ p) :
    unpad (d ++ (List.replicate (n - 1) p).set k v ++ [p]) ≠ .ok r := by
  intro h
  subst hp
  obtain ⟨-, -, h⟩ := unpad_concat_eq_ok.mp h
  have hset := List.append_inj_right' h (by simp)
  have hmem : v ∈ (List.replicate (p.toNat - 1) p).set k v := List.mem_set (by simpa using hk) v
  rw [hset] at hmem
  exact hv (List.eq_of_mem_replicate hmem)

/-- With a byte p before it, a last byte other than p is accepted only as the one byte of its padding. -/
theorem unpad_append_replicate_concat {n : Nat} {p : Byte} (hn : 1 ≤ n) (hv : v ≠ p) :
    unpad (d ++ List.replicate n p ++ [v]) =
      if v = 1#8 then .ok (d ++ List.replicate n p) else failWith .paddingError := by
  split_ifs with h1
  · subst h1
    exact unpad_concat_eq_ok.mpr (by simp)
  · refine unpad_eq_paddingError fun r h => ?_
    obtain ⟨hpos, -, h⟩ := unpad_concat_eq_ok.mp h
    have h2 : 1 ≤ v.toNat - 1 := by
      have : v.toNat ≠ 1 := fun h => h1 (BitVec.eq_of_toNat_eq h)
      omega
    have hlast := congrArg List.getLast? h
    rw [getLast?_append_replicate d hn, getLast?_append_replicate r h2] at hlast
    exact hv (Option.some.inj hlast).symm

/-- After data alone, a last byte v other than 1 is accepted exactly when the data ends in v - 1 bytes v. -/
theorem unpad_concat (hv : v ≠ 1#8) : unpad (d ++ [v]) =
    if 2 ≤ v.toNat ∧ v.toNat ≤ 16 ∧ d.drop (d.length - (v.toNat - 1)) = List.replicate (v.toNat - 1) v
    then .ok (d.take (d.length - (v.toNat - 1))) else failWith .paddingError := by
  split_ifs with h
  · obtain ⟨h2, h16, hdrop⟩ := h
    exact unpad_concat_eq_ok.mpr ⟨by omega, h16, by rw [← hdrop, List.take_append_drop]⟩
  · refine unpad_eq_paddingError fun r hr => h ?_
    obtain ⟨hpos, h16, rfl⟩ := unpad_concat_eq_ok.mp hr
    have h1 : v.toNat ≠ 1 := fun h => hv (BitVec.eq_of_toNat_eq h)
    exact ⟨by omega, h16, by simp⟩

/-- Settles O21: in each case the changed buffer ends in the byte the case's lemma names. -/
theorem tamperedPaddingIsDetectedExactly : Obligations.TamperedPaddingIsDetectedExactly := by
  intro d j v p hp hj hlt hv
  obtain rfl : p = padLength d.length := hp
  have hpos := padLength_pos d.length
  have hset : (pad d).set j v = d ++ (List.replicate (padLength d.length - 1) (BitVec.ofNat 8 (padLength d.length)) ++
      [BitVec.ofNat 8 (padLength d.length)]).set (j - d.length) v := by
    rw [pad, List.set_append_right _ _ hj, ← replicate_eq_concat hpos]
  rw [hset]
  refine ⟨fun hlow => ?_, fun hlast h2 => ?_, fun hlast h1 => ?_⟩
  · rw [List.set_append_left _ _ (by simp; omega), ← List.append_assoc]
    exact unpad_eq_paddingError fun r => unpad_set_replicate_ne_ok (padByte_toNat _) (by omega) hv
  · rw [show j - d.length = padLength d.length - 1 by omega]
    simpa using unpad_append_replicate_concat (by omega) hv
  · simp only [h1] at hv ⊢
    simpa [show j - d.length = 0 by omega] using unpad_concat hv

/-! ### The commands -/

/-- A command that reads its input fails where that is longer than IBUF (40_lifecycle.md R407). -/
theorem failsWith_capacityError_of_long_input (hbusy : s.phase = .busy snap) (hi : readsIlen i = true)
    (h : s.params.ibufBytes < snap.ilen.toNat) : FailsWith i s .capacityError :=
  (failsWith_capacityError_iff hbusy).mpr (overCapacity_eq_true.mpr (.inl ⟨hi, h⟩))

/-- Settles O9: the output fits OBUF where the input fits IBUF (`outlen_le`), so the body is `pad` of the input. -/
theorem padCommandAppendsPadding : Obligations.PadCommandAppendsPadding := by
  refine ⟨by decide, fun s snap hp hbusy => ⟨fun d hfits hd => ?_, failsWith_capacityError_of_long_input hbusy rfl⟩⟩
  have hcap : capacityCheck s.params .pad snap = .ok () :=
    capacityCheck_ok (overCapacity_eq_false.mpr ⟨fun _ => hfits, by simp [readsKlen], outlen_le hp (by simp) hfits⟩)
  have hbody : commandBody s.params .pad snap = .ok (.data (pad d)) := by
    rw [commandBody, hcap, show snap.input = _ from hd, demandAll_map_some]
    rfl
  have hlen := commandBody_fits hp hbody
  obtain ⟨-, -, -, -, hobuf⟩ := hp
  exact succeeds_of_body (out := pad d) hbusy (by omega) hbody

/-- Settles O10: on defined bytes the operand's reading is `unpad` (`unpadOperand_map_some`). -/
theorem unpadCommandCompletesAsUnpad : Obligations.UnpadCommandCompletesAsUnpad := by
  refine ⟨by decide, fun s snap _ hbusy => ⟨fun d hfits hd => ?_, failsWith_capacityError_of_long_input hbusy rfl⟩⟩
  have hcap : capacityCheck s.params .unpad snap = .ok () :=
    capacityCheck_ok (overCapacity_eq_false.mpr ⟨fun _ => hfits, by simp [readsKlen], Nat.zero_le _⟩)
  have hbody : commandBody s.params .unpad snap = (do let out ← unpad d; return .data out) := by
    rw [commandBody, hcap, show snap.input = _ from hd, unpadOperand_map_some]
    rfl
  refine completesAs_of_body hbusy (fun out hout => ?_) (unpad_ne_undef d) hbody
  have hlen := unpad_length hout
  have hilen := snap.ilen.isLt
  rw [inputIs_length hd] at hlen
  omega

end Sys2Proof.Machine

/-! SUPPORT. The transform engine: the byte functions and their inverse, the block functions as what they do at each
place, the key bytes the pipelines use, and the commands XFORM and IXFORM (42_transform.md). -/

namespace Sys2Proof.Machine

variable {f g : Byte → Byte → Byte} {b k key : List Byte} {s : State} {p : Params} {i : Instr} {snap : Snapshot}

/-! ### The byte functions -/

/-- Bits that leave on the left come back on the right (00_scope.md R11, R12). -/
theorem rotr8_rotl8 (v : Byte) {n : Nat} (h₀ : 0 < n) (h₈ : n < 8) : rotr8 (rotl8 v n) n = v := by
  refine BitVec.eq_of_getLsbD_eq fun j hj => ?_
  have hout : v.getLsbD (8 - n + (n + j)) = false := BitVec.getLsbD_of_ge v _ (by omega)
  simp only [rotr8, rotl8, BitVec.getLsbD_or, BitVec.getLsbD_ushiftRight, BitVec.getLsbD_shiftLeft, hout]
  by_cases hlow : j < 8 - n
  · simp [hlow, show n + j < 8 by omega]
  · simp [hlow, hj, show ¬ n + j < 8 by omega, show j - (8 - n) < n by omega, show 8 - n + (j - (8 - n)) = j by omega]

/-- A rotation by n bits is one by 8 - n the other way, so this is the same law. -/
theorem rotl8_rotr8 (v : Byte) {n : Nat} (h₀ : 0 < n) (h₈ : n < 8) : rotl8 (rotr8 v n) n = v := by
  have hflip := rotr8_rotl8 v (n := 8 - n) (by omega) (by omega)
  rwa [rotr8, rotl8, Nat.sub_sub_self h₈.le, BitVec.or_comm, BitVec.or_comm (v <<< (8 - n))] at hflip

theorem inverseByte_forwardByte (x y : Byte) : inverseByte (forwardByte x y) y = x := by
  rw [inverseByte, forwardByte, rotr8_rotl8 _ (by decide) (by decide), BitVec.add_sub_cancel, BitVec.xor_assoc,
    BitVec.xor_self, BitVec.xor_zero]

theorem forwardByte_inverseByte (x y : Byte) : forwardByte (inverseByte x y) y = x := by
  rw [forwardByte, inverseByte, BitVec.xor_assoc, BitVec.xor_self, BitVec.xor_zero, BitVec.sub_add_cancel,
    rotl8_rotr8 _ (by decide) (by decide)]

/-- Settles O22: the rotations are inverse, and so are adding 7 and subtracting it, and xor with the key byte. -/
theorem byteTransformsAreInverse : Obligations.ByteTransformsAreInverse :=
  ⟨fun v _ => rotr8_rotl8 v, inverseByte_forwardByte, forwardByte_inverseByte⟩

/-! ### The block functions -/

theorem zipWith_zipWith_cancel (hgf : ∀ x y, g (f x y) y = x) (h : b.length ≤ k.length) :
    List.zipWith g (List.zipWith f b k) k = b := by
  induction b generalizing k with
  | nil => rfl
  | cons x xs ih =>
    cases k with
    | nil => simp at h
    | cons y ys => simp [hgf, ih (Nat.le_of_succ_le_succ h)]

/-- If one byte function undoes another, its block function undoes the other's (42_transform.md R449). -/
theorem keyedBlock_cancel (hgf : ∀ x y, g (f x y) y = x) (h : b.length ≤ k.length) :
    (keyedBlock f b k >>= fun c => keyedBlock g c k) = .ok b := by
  have hlen : (List.zipWith f b k).length ≤ k.length := by simp
  rw [keyedBlock_eq f h, body_pure_bind, keyedBlock_eq g hlen, zipWith_zipWith_cancel hgf h]

/-- Settles O23: `keyedBlock_cancel` with the two byte laws of R442. -/
theorem blockTransformsAreInverse : Obligations.BlockTransformsAreInverse := by
  intro b k hb hk
  have hguard : b.length ≤ k.length := by omega
  exact ⟨keyedBlock_cancel inverseByte_forwardByte hguard, keyedBlock_cancel forwardByte_inverseByte hguard⟩

/-- At each place a block function is its byte function of the two bytes there (42_transform.md R448). -/
theorem keyedBlock_getElem? {r : List Byte} (h : b.length ≤ k.length) (hr : keyedBlock f b k = .ok r) (j : Nat) :
    r[j]? = Option.map₂ f b[j]? k[j]? := by
  rw [keyedBlock_eq f h] at hr
  obtain rfl := Except.ok.inj hr
  rw [List.getElem?_zipWith]
  cases b[j]? <;> cases k[j]? <;> rfl

/-- Settles O24: `keyedBlock_getElem?` names no byte but the two at the place. -/
theorem blockFunctionsWorkLaneByLane : Obligations.BlockFunctionsWorkLaneByLane := by
  intro b b' k k' r r' i hb hb' hk hk' hbi hki
  have hlane (f : Byte → Byte → Byte) (hr : keyedBlock f b k = .ok r) (hr' : keyedBlock f b' k' = .ok r') :
      r[i]? = r'[i]? := by
    rw [keyedBlock_getElem? (by omega) hr, keyedBlock_getElem? (by omega) hr', hbi, hki]
  exact ⟨hlane forwardByte, hlane inverseByte⟩

/-! ### The key bytes the pipelines use -/

/-- A block meets the key's first 16 bytes alone (42_transform.md R445). -/
theorem zipWith_key_congr {key' : List Byte} (hb : b.length = 16) (hkeys : key.take 16 = key'.take 16) :
    List.zipWith f b key = List.zipWith f b key' := by
  have htake (k : List Byte) : List.zipWith f b k = List.zipWith f b (k.take 16) := by
    rw [← List.take_of_length_le (l := List.zipWith f b k) (i := 16) (by simp [hb]), List.take_zipWith,
      List.take_of_length_le hb.le]
  rw [htake key, hkeys, ← htake]

/-- Settles O36: every block of a padded text, and every decoded segment, has 16 bytes. -/
theorem onlyTheFirstSixteenKeyBytesMatter : Obligations.OnlyTheFirstSixteenKeyBytesMatter := by
  intro key key' hlen hlen' hkeys
  have hk : 16 ≤ key.length := by omega
  have hk' : 16 ≤ key'.length := by omega
  refine ⟨fun d => ?_, fun t => ?_⟩
  · have hblocks : (blocks (pad d)).map (fun b => hexenc (List.zipWith forwardByte b key)) =
        (blocks (pad d)).map fun b => hexenc (List.zipWith forwardByte b key') :=
      List.map_congr_left fun b hb => by rw [zipWith_key_congr (length_of_mem_blocks hb) hkeys]
    rw [encryptWith_eq hk, encryptWith_eq hk', cipherText, cipherText, hblocks]
  · cases hsegs : eachInOrder decodeSegment (split t) with
    | error e => rw [decryptWith, decryptWith, hsegs, body_error_bind, body_error_bind]
    | ok blks =>
      have hblocks : blks.map (fun b => List.zipWith inverseByte b key) =
          blks.map fun b => List.zipWith inverseByte b key' :=
        List.map_congr_left fun b hb => zipWith_key_congr (length_of_decoded hsegs b hb) hkeys
      rw [decryptWith_of_blocks hk hsegs, decryptWith_of_blocks hk' hsegs, hblocks]

/-! ### The commands -/

/-- Of a longer key that may hold POISON bytes, the lanes read those beside the block (42_transform.md R445, log 9). -/
theorem keyedLanes_eq_ok {k : List (Option Byte)} (hlen : key.length = b.length)
    (hk : k.take b.length = key.map some) : keyedLanes f k 0 (b.map some) = .ok (List.zipWith f b key) := by
  have hkey (j : Nat) (hj : j < b.length) : k[j]? = some (some (key.getD j 0#8)) := by
    rw [← List.getElem?_take_of_lt hj, hk, List.getElem?_map]
    simp [hlen, hj]
  have hread (j : Nat) (hj : j < b.length) : k.getD (j % k.length) none = some (key.getD j 0#8) := by
    obtain ⟨hlt, -⟩ := List.getElem?_eq_some_iff.mp (hkey j hj)
    rw [Nat.mod_eq_of_lt hlt, List.getD_eq_getElem?_getD, hkey j hj, Option.getD_some]
  rw [keyedLanes_map_some f b k key 0 fun j _ hj => hread j (by omega)]
  congr 1
  refine List.ext_getElem (by simp [hlen]) fun j hj _ => ?_
  have hj' : j < b.length := by simpa using hj
  simp [hlen, hj']

theorem blockBody_eq_ok (hilen : snap.ilen = 16#32) (hklen : 16 ≤ snap.klen.toNat)
    (hb : snap.ibuf.slice 16 = b.map some) (hk : snap.kbuf.slice 16 = k.map some) :
    blockBody f snap = .ok (.data (List.zipWith f b k)) := by
  have h16 : snap.ilen.toNat = 16 := by simp [hilen]
  have hblen : b.length = 16 := by simpa using (congrArg List.length hb).symm
  have hlen : k.length = 16 := by simpa using (congrArg List.length hk).symm
  have hinput : snap.input = b.map some := by rw [Snapshot.input, h16, hb]
  have hkey : snap.key.take b.length = k.map some := by rw [Snapshot.key, hblen, Memory.slice_take _ hklen, hk]
  have hguard : ¬ snap.key.length < snap.input.length := by simp [h16, hklen]
  rw [blockBody, if_neg (not_not.mpr h16), keyedBlockOperand, if_neg hguard, hinput,
    keyedLanes_eq_ok (hlen.trans hblen.symm) hkey]
  rfl

theorem blockBody_eq_invalidBlockSize (hilen : snap.ilen ≠ 16#32) : blockBody f snap = failWith .invalidBlockSize :=
  if_pos fun h16 => hilen (BitVec.eq_of_toNat_eq h16)

theorem blockBody_eq_keyTooShortError (hilen : snap.ilen = 16#32) (hklen : snap.klen.toNat < 16) :
    blockBody f snap = failWith .keyTooShortError := by
  have h16 : snap.ilen.toNat = 16 := by simp [hilen]
  have hguard : snap.key.length < snap.input.length := by simpa [h16] using hklen
  rw [blockBody, if_neg (not_not.mpr h16), keyedBlockOperand, if_pos hguard]
  rfl

/-- What R446 and R447 say of a block command with byte function `f`: its errors in order, else the block. -/
def CompletesBlockwise (i : Instr) (f : Byte → Byte → Byte) (s : State) (snap : Snapshot) : Prop :=
  (s.params.ibufBytes < snap.ilen.toNat ∨ s.params.kbufBytes < snap.klen.toNat → FailsWith i s .capacityError) ∧
  (snap.ilen.toNat ≤ s.params.ibufBytes → snap.klen.toNat ≤ s.params.kbufBytes →
    (snap.ilen ≠ 16#32 → FailsWith i s .invalidBlockSize) ∧
    (snap.ilen = 16#32 → snap.klen.toNat < 16 → FailsWith i s .keyTooShortError) ∧
    (∀ b k : List Byte, snap.ilen = 16#32 → 16 ≤ snap.klen.toNat → snap.ibuf.slice 16 = b.map some →
      snap.kbuf.slice 16 = k.map some → Succeeds i s (List.zipWith f b k)))

/-- Both commands read both lengths and have no output check, and past the checks run `blockBody`. -/
theorem completesBlockwise (hbusy : s.phase = .busy snap) (hilen : readsIlen i = true) (hklen : readsKlen i = true)
    (hout : outlen i snap.ilen.toNat = 0)
    (hbody : commandBody s.params i snap = (capacityCheck s.params i snap >>= fun _ => blockBody f snap)) :
    CompletesBlockwise i f s snap := by
  refine ⟨fun hover => failsWith_of_body hbusy (commandBody_over (overCapacity_eq_true.mpr ?_)), fun hi hk => ?_⟩
  · exact hover.imp (⟨hilen, ·⟩) fun hk => .inl ⟨hklen, hk⟩
  · rw [capacityCheck_ok (overCapacity_eq_false.mpr ⟨fun _ => hi, fun _ => hk, hout ▸ Nat.zero_le _⟩),
      body_pure_bind] at hbody
    refine ⟨fun h16 => ?_, fun h16 hshort => ?_, fun b k h16 hlong hb hk => ?_⟩
    · exact failsWith_of_body hbusy (hbody.trans (blockBody_eq_invalidBlockSize h16))
    · exact failsWith_of_body hbusy (hbody.trans (blockBody_eq_keyTooShortError h16 hshort))
    · have hlen : b.length = 16 := by simpa using (congrArg List.length hb).symm
      exact succeeds_of_body hbusy (by simp [hlen]) (hbody.trans (blockBody_eq_ok h16 hlong hb hk))

/-- Settles O11: XFORM is the block command of `forwardByte`, which is the expression of R440. -/
theorem xformCommandTransformsTheBlock : Obligations.XformCommandTransformsTheBlock :=
  ⟨by decide, fun _ _ hbusy => completesBlockwise (f := forwardByte) hbusy rfl rfl rfl rfl⟩

/-- Settles O12: IXFORM is the block command of `inverseByte`, which is the expression of R441. -/
theorem ixformCommandInvertsTheBlock : Obligations.IxformCommandInvertsTheBlock :=
  ⟨by decide, fun _ _ hbusy => completesBlockwise (f := inverseByte) hbusy rfl rfl rfl rfl⟩

end Sys2Proof.Machine

/-! SUPPORT. Hex: the text of a byte string at each place and its case, the texts `hexdec` accepts, by their byte
strings and by their characters, the round trips, `keydec`, and the commands HEXENC, HEXDEC and KEYDEC (43_hex.md). -/

namespace Sys2Proof.Machine

variable {b c : Byte} {t r : List Byte} {s : State} {snap : Snapshot}

/-! ### The encoder -/

/-- The digit table and the digit's arithmetic agree on every nibble (43_hex.md R460). -/
theorem hexDigits_getElem? {n : Nat} (h : n < 16) : hexDigits[n]? = some (hexDigit (BitVec.ofNat 8 n)) := by
  interval_cases n <;> rfl

/-- The two digits of a byte, as its quotient and remainder by 16. -/
theorem hexenc_cons_ofNat (b : Byte) (bs : List Byte) : hexenc (b :: bs) =
    hexDigit (BitVec.ofNat 8 (b.toNat / 16)) :: hexDigit (BitVec.ofNat 8 (b.toNat % 16)) :: hexenc bs := by
  rw [hexenc_cons, highNibble_eq, lowNibble_eq]

theorem nibbles_lt (b : Byte) : b.toNat / 16 < 16 ∧ b.toNat % 16 < 16 := by
  have hb := b.isLt
  omega

theorem hexenc_getElem? {bs : List Byte} {i : Nat} (h : bs[i]? = some b) :
    (hexenc bs)[2 * i]? = hexDigits[b.toNat / 16]? ∧ (hexenc bs)[2 * i + 1]? = hexDigits[b.toNat % 16]? := by
  induction bs generalizing i with
  | nil => cases h
  | cons x xs ih =>
    rw [hexenc_cons_ofNat]
    cases i with
    | zero =>
      obtain rfl : x = b := Option.some.inj h
      obtain ⟨hhi, hlo⟩ := nibbles_lt x
      exact ⟨(hexDigits_getElem? hhi).symm, (hexDigits_getElem? hlo).symm⟩
    | succ j => exact ih h

/-- Settles O25: each byte's digits are two entries of the table (`hexenc_getElem?`). -/
theorem hexencGivesTwoLowercaseDigits : Obligations.HexencGivesTwoLowercaseDigits :=
  fun s => ⟨hexenc_length s, fun _ _ => hexenc_getElem?⟩

/-! ### The decoder -/

theorem hexdec_eq_some_nil : hexdec t = some [] ↔ t = [] := by
  refine ⟨fun h => ?_, fun h => h ▸ hexdec_nil⟩
  simpa using hexdec_length h

/-- A text decodes to a byte and further bytes if it is two hex digits of that byte and text of the others. -/
theorem hexdec_eq_some_cons : hexdec t = some (b :: r) ↔ ∃ (h l : Byte) (t' : List Byte) (hi lo : Nat),
    t = h :: l :: t' ∧ IsHexDigit h hi ∧ IsHexDigit l lo ∧ b.toNat = 16 * hi + lo ∧ hexdec t' = some r := by
  constructor
  · intro ht
    match t with
    | [] => cases ht
    | [_] => cases ht
    | h :: l :: t' =>
      obtain ⟨hi, lo, x, r', ht', hh, hl, hx, hr⟩ := hexdec_cons_cons.mp ht
      obtain ⟨rfl, rfl⟩ := List.cons.inj hr
      exact ⟨h, l, t', hi, lo, rfl, hh, hl, hx, ht'⟩
  · rintro ⟨h, l, t', hi, lo, rfl, hh, hl, hx, ht'⟩
    exact hexdec_cons_cons.mpr ⟨hi, lo, b, r, ht', hh, hl, hx, rfl⟩

/-- The characters of `t` at places 2i and 2i + 1 are hex digits of the byte `b` (43_hex.md R461). -/
def HexPairAt (t : List Byte) (i : Nat) (b : Byte) : Prop :=
  ∃ (hi lo : Nat) (h l : Byte), t[2 * i]? = some h ∧ t[2 * i + 1]? = some l ∧
    IsHexDigit h hi ∧ IsHexDigit l lo ∧ b.toNat = 16 * hi + lo

theorem hexPairAt_cons_cons_succ {x y : Byte} {i : Nat} : HexPairAt (x :: y :: t) (i + 1) b ↔ HexPairAt t i b := Iff.rfl

theorem hexdec_eq_some_iff : hexdec t = some r ↔
    t.length = 2 * r.length ∧ ∀ (i : Nat) (b : Byte), r[i]? = some b → HexPairAt t i b := by
  induction r generalizing t with
  | nil => simp [hexdec_eq_some_nil]
  | cons b r ih =>
    rw [hexdec_eq_some_cons]
    constructor
    · rintro ⟨h, l, t', hi, lo, rfl, hh, hl, hb, ht'⟩
      obtain ⟨hlen, hpairs⟩ := ih.mp ht'
      refine ⟨by simp only [List.length_cons, hlen]; omega, fun i x hx => ?_⟩
      cases i with
      | zero =>
        obtain rfl : b = x := Option.some.inj hx
        exact ⟨hi, lo, h, l, rfl, rfl, hh, hl, hb⟩
      | succ j => exact hexPairAt_cons_cons_succ.mpr (hpairs j x hx)
    · rintro ⟨hlen, hpairs⟩
      match t with
      | [] => cases hlen
      | [_] =>
        simp only [List.length_cons, List.length_nil] at hlen
        omega
      | x :: y :: t' =>
        obtain ⟨hi, lo, h, l, hx, hy, hh, hl, hb⟩ := hpairs 0 b rfl
        obtain rfl : x = h := Option.some.inj hx
        obtain rfl : y = l := Option.some.inj hy
        refine ⟨x, y, t', hi, lo, rfl, hh, hl, hb, ih.mpr ⟨?_, fun i z hz => ?_⟩⟩
        · simp only [List.length_cons] at hlen
          omega
        · exact hexPairAt_cons_cons_succ.mp (hpairs (i + 1) z hz)

/-- Settles O26: the decoder takes the text pair by pair (`hexdec_eq_some_cons`), and so does the list of places. -/
theorem hexdecAcceptsExactlyPairsOfHexDigits : Obligations.HexdecAcceptsExactlyPairsOfHexDigits :=
  fun _ _ => hexdec_eq_some_iff

/-! ### The round trips -/

theorem hexdec_hexenc (bs : List Byte) : hexdec (hexenc bs) = some bs := by
  induction bs with
  | nil => rfl
  | cons b bs ih =>
    obtain ⟨hhi, hlo⟩ := nibbles_lt b
    rw [hexenc_cons_ofNat]
    exact hexdec_eq_some_cons.mpr
      ⟨_, _, _, _, _, rfl, isHexDigit_hexDigit hhi, isHexDigit_hexDigit hlo, (Nat.div_add_mod _ 16).symm, ih⟩

theorem lowerHex_cons (c : Byte) (t : List Byte) :
    lowerHex (c :: t) = (if 0x41 ≤ c.toNat ∧ c.toNat ≤ 0x46 then c + 0x20#8 else c) :: lowerHex t := rfl

/-- The digit of a hex character's value is that character in lowercase. -/
theorem hexDigit_of_isHexDigit {v : Nat} (h : IsHexDigit c v) :
    hexDigit (BitVec.ofNat 8 v) = if 0x41 ≤ c.toNat ∧ c.toNat ≤ 0x46 then c + 0x20#8 else c := by
  have hval : (BitVec.ofNat 8 v).toNat = v := by
    rw [BitVec.toNat_ofNat, Nat.mod_eq_of_lt (h.lt.trans (by decide))]
  rw [hexDigit, hval]
  apply BitVec.eq_of_toNat_eq
  rcases h with ⟨hlow, hhigh, hv⟩ | ⟨hlow, hhigh, hv⟩ | ⟨hlow, hhigh, hv⟩
  · rw [if_pos (by omega), if_neg (by omega), BitVec.toNat_add, hval, BitVec.toNat_ofNat]
    omega
  · rw [if_neg (by omega), if_neg (by omega), BitVec.toNat_add, BitVec.toNat_sub, hval]
    simp only [BitVec.toNat_ofNat]
    omega
  · rw [if_neg (by omega), if_pos ⟨hlow, hhigh⟩, BitVec.toNat_add, BitVec.toNat_sub, hval]
    simp only [BitVec.toNat_add, BitVec.toNat_ofNat]
    omega

theorem hexenc_of_hexdec (h : hexdec t = some r) : hexenc r = lowerHex t := by
  induction r generalizing t with
  | nil =>
    obtain rfl := hexdec_eq_some_nil.mp h
    rfl
  | cons b r ih =>
    obtain ⟨x, y, t', hi, lo, rfl, hx, hy, hb, ht'⟩ := hexdec_eq_some_cons.mp h
    have hlo := hy.lt
    rw [hexenc_cons_ofNat, show b.toNat / 16 = hi by omega, show b.toNat % 16 = lo by omega,
      hexDigit_of_isHexDigit hx, hexDigit_of_isHexDigit hy, ih ht', lowerHex_cons, lowerHex_cons]

/-- Settles O27: a byte is 16 times its high nibble and its low one, and a digit's character is its lowercase one. -/
theorem hexRoundTrips : Obligations.HexRoundTrips :=
  ⟨hexdec_hexenc, fun _ _ => hexenc_of_hexdec⟩

/-! ### The key decoder -/

theorem hexval_eq_none : hexval c = none ↔ ∀ v, ¬ IsHexDigit c v := by
  refine ⟨fun h v hv => ?_, fun h => Option.eq_none_iff_forall_ne_some.mpr fun v hv => h _ (hexval_eq_some.mp hv)⟩
  rw [hexval_of_isHexDigit hv] at h
  cases h

theorem hexvals_eq_none : hexvals t = none ↔ ∃ c ∈ t, ∀ v, ¬ IsHexDigit c v := by
  induction t with
  | nil => simp [hexvals]
  | cons c t ih =>
    rw [List.exists_mem_cons_iff, ← ih, ← hexval_eq_none, hexvals]
    cases hexval c <;> simp

/-- `hexdec` answers INVALID for an odd length or a character that is no hex digit, and only then (43_hex.md R461). -/
theorem hexdec_eq_none : hexdec t = none ↔ t.length % 2 = 1 ∨ ∃ c ∈ t, ∀ v, ¬ IsHexDigit c v := by
  rw [← hexvals_eq_none, hexdec]
  split_ifs with hodd
  · exact iff_of_true rfl (.inl (by omega))
  · rw [Option.map_eq_none_iff, or_iff_right (by omega)]

theorem exists_hexdec_eq_some (heven : t.length % 2 = 0) (hdigits : ∀ c ∈ t, ∃ v, IsHexDigit c v) :
    ∃ r, hexdec t = some r := by
  refine Option.ne_none_iff_exists'.mp fun hnone => ?_
  rcases hexdec_eq_none.mp hnone with hodd | ⟨c, hc, hbad⟩
  · omega
  · obtain ⟨v, hv⟩ := hdigits c hc
    exact hbad v hv

theorem hexdecOr_of_some {e : ErrCode} (h : hexdec t = some r) : hexdecOr e t = .ok r := by rw [hexdecOr, h]

theorem hexdecOr_of_none {e : ErrCode} (h : hexdec t = none) : hexdecOr e t = failWith e := by rw [hexdecOr, h]

theorem keydec_of_none (h : hexdec t = none) : keydec t = failWith .invalidKeyFormat := by
  rw [keydec, hexdecOr_of_none h]
  rfl

theorem keydec_of_some (h : hexdec t = some r) : keydec t = checkKeyLength r := by
  rw [keydec, hexdecOr_of_some h, body_pure_bind]

/-- Settles O28: the format check is `hexdec`, and the bytes it gives are half as many as the characters. -/
theorem keydecChecksFormatThenLength : Obligations.KeydecChecksFormatThenLength := by
  refine fun t => ⟨fun hbad => keydec_of_none (hexdec_eq_none.mpr hbad), fun heven hdigits hlen => ?_,
    fun hlen hdigits => ?_⟩
  · obtain ⟨r, hr⟩ := exists_hexdec_eq_some heven hdigits
    have hlen' := hexdec_length hr
    rw [keydec_of_some hr, checkKeyLength, if_pos (by rw [Config.keyBytes]; omega)]
  · obtain ⟨r, hr⟩ := exists_hexdec_eq_some (by omega) hdigits
    have hlen' := hexdec_length hr
    have h32 : r.length = 32 := by omega
    exact ⟨r, by rw [keydec_of_some hr, checkKeyLength, if_neg (not_not.mpr h32)], h32, hr⟩

/-! ### The commands -/

/-- Past its checks, a command that gives the bytes of `r` completes as `r`, if `r` reads no POISON byte; what its body
gives always fits OBUF (`commandBody_fits`). -/
theorem completesAs_of_checked {i : Instr} {out : Body (List Byte)} (hp : s.params.Ok) (hbusy : s.phase = .busy snap)
    (hcap : overCapacity s.params i snap.ilen.toNat snap.klen.toNat = false) (hdef : out ≠ .error .undefRead)
    (hbody : commandBody s.params i snap = (do
      capacityCheck s.params i snap
      let bs ← out
      return .data bs)) : CompletesAs i s out := by
  rw [capacityCheck_ok hcap, body_pure_bind] at hbody
  refine completesAs_of_body hbusy (fun bs hbs => ?_) hdef hbody
  have hfits := commandBody_fits hp (out := bs) (by rw [hbody, hbs]; rfl)
  obtain ⟨-, -, -, -, hobuf⟩ := hp
  omega

theorem hexdecOr_ne_undef (e : ErrCode) (t : List Byte) : hexdecOr e t ≠ .error .undefRead := by
  cases h : hexdec t with
  | none => simp [hexdecOr_of_none h, failWith]
  | some r => simp [hexdecOr_of_some h]

/-- Settles O13: the output fits OBUF where the input fits IBUF (`outlen_le`), so the command completes with it. -/
theorem hexencCommandEncodes : Obligations.HexencCommandEncodes := by
  refine ⟨by decide, fun s snap hp hbusy => ⟨fun d hfits hd => ?_, failsWith_capacityError_of_long_input hbusy rfl⟩⟩
  refine completesAs_of_checked (i := .hexenc) (out := .ok (hexenc d)) hp hbusy ?_ (by simp) ?_
  · exact overCapacity_eq_false.mpr ⟨fun _ => hfits, by simp [readsKlen], outlen_le hp (by simp) hfits⟩
  · rw [commandBody, show snap.input = _ from hd, demandAll_map_some]
    rfl

/-- Settles O14: on defined bytes the operand's reading is `hexdec` (`hexdecOperand_map_some`). -/
theorem hexdecCommandDecodes : Obligations.HexdecCommandDecodes := by
  refine ⟨by decide, fun s snap hp hbusy => ⟨fun t hfits ht => ?_, failsWith_capacityError_of_long_input hbusy rfl⟩⟩
  have hdone : CompletesAs .hexdec s (hexdecOr .invalidCiphertextEncoding t) := by
    refine completesAs_of_checked hp hbusy ?_ (hexdecOr_ne_undef _ t) ?_
    · exact overCapacity_eq_false.mpr ⟨fun _ => hfits, by simp [readsKlen], Nat.zero_le _⟩
    · rw [commandBody, show snap.input = _ from ht, hexdecOperand_map_some]
  refine ⟨fun r hr => ?_, fun hnone => ?_⟩
  · rwa [hexdecOr_of_some hr] at hdone
  · rwa [hexdecOr_of_none hnone] at hdone

/-- Settles O15: on defined bytes the key operand's reading is `keydec` (`keydecOperand_map_some`). -/
theorem keydecCommandDecodesTheKey : Obligations.KeydecCommandDecodesTheKey := by
  refine ⟨by decide, fun s snap hp hbusy => ⟨fun t hfits ht => ?_, fun hover => ?_⟩⟩
  · refine completesAs_of_checked hp hbusy ?_ (keydec_ne_undef t) ?_
    · exact overCapacity_eq_false.mpr ⟨by simp [readsIlen], fun _ => hfits, Nat.zero_le _⟩
    · rw [commandBody, show snap.key = _ from ht, keydecOperand_map_some]
  · exact (failsWith_capacityError_iff hbusy).mpr (overCapacity_eq_true.mpr (.inr (.inl ⟨rfl, hover⟩)))

end Sys2Proof.Machine

/-! SUPPORT. The codec sequencer: the cuts of `split`, the cuttings `utf8Valid` accepts, the wire form of a ciphertext
segment by segment, DECRYPT step by step, the round trip, and the commands ENCRYPT and DECRYPT (44_codec.md). -/

namespace Sys2Proof.Machine

variable {key d t seg : List Byte} {L blks : List (List Byte)} {m i : Nat} {c : Byte} {s : State} {snap : Snapshot}

/-! ### Splitting -/

theorem split_append_sep (a b : List Byte) : split (a ++ Config.sep :: b) = split a ++ split b := by
  rw [split, splitFrom_append, List.filter_append]
  rfl

/-- Settles O29: one segment is the join of itself (`split_join`), and a separator ends the segment being gathered. -/
theorem splitCutsAtSeparatorsAndSkipsEmptyPieces : Obligations.SplitCutsAtSeparatorsAndSkipsEmptyPieces := by
  refine ⟨rfl, fun seg hne hsep => ?_, split_append_sep⟩
  exact split_join (L := [seg]) (by simpa using hne) (by simpa using hsep)

theorem split_of_only_sep (h : ∀ c ∈ t, c = Config.sep) : split t = [] := by
  induction t with
  | nil => rfl
  | cons c t ih =>
    obtain ⟨rfl, ht⟩ := List.forall_mem_cons.mp h
    exact (split_append_sep [] t).trans (ih ht)

/-! ### UTF-8 -/

/-- At the start of a sequence the scan goes on past one sequence that matches a row. -/
theorem utf8Valid_cons {b : Byte} {bs : List Byte} : utf8Valid (b :: bs) = true ↔
    ∃ row ∈ utf8Rows, ∃ q rest, b :: bs = q ++ rest ∧ MatchesRow row q ∧ utf8Valid rest = true := by
  rw [utf8Valid, utf8Scan]
  constructor
  · intro h
    split at h
    · cases h
    · next row hfind =>
      obtain ⟨q, rest, rfl, hq, hrest⟩ := utf8Scan_pending.mp h
      have hb := List.find?_some hfind
      exact ⟨row, List.mem_of_find?_eq_some hfind, b :: q, rest, rfl, .cons hb hq, hrest⟩
  · rintro ⟨row, hrow, q, rest, he, hq, hrest⟩
    cases hq with
    | cons hb hq =>
      obtain ⟨rfl, rfl⟩ := List.cons.inj he
      rw [utf8Rows_find hrow hb]
      exact utf8Scan_pending.mpr ⟨_, rest, rfl, hq, hrest⟩

theorem MatchesRow.length_pos {row : ByteRange × List ByteRange} {q : List Byte} (h : MatchesRow row q) :
    0 < q.length := by
  rw [← h.length_eq]
  exact Nat.succ_pos _

/-- A text that can be cut into rows passes the scan. -/
theorem utf8Valid_flatten (h : ∀ q ∈ L, ∃ row ∈ utf8Rows, MatchesRow row q) : utf8Valid L.flatten = true := by
  induction L with
  | nil => rfl
  | cons q L ih =>
    obtain ⟨⟨row, hrow, hq⟩, hL⟩ := List.forall_mem_cons.mp h
    cases q with
    | nil => exact absurd hq.length_pos (by simp)
    | cons b bs => exact utf8Valid_cons.mpr ⟨row, hrow, b :: bs, L.flatten, rfl, hq, ih hL⟩

/-- A text that passes the scan can be cut into rows: the scan's own cuts. -/
theorem exists_rows_of_utf8Valid {t : List Byte} (h : utf8Valid t = true) :
    ∃ seqs : List (List Byte), t = seqs.flatten ∧ ∀ q ∈ seqs, ∃ row ∈ utf8Rows, MatchesRow row q := by
  match t with
  | [] => exact ⟨[], rfl, by simp⟩
  | b :: bs =>
    obtain ⟨row, hrow, q, rest, he, hq, hrest⟩ := utf8Valid_cons.mp h
    have hshort : rest.length ≤ bs.length := by
      have hpos := hq.length_pos
      have hlen := congrArg List.length he
      rw [List.length_cons, List.length_append] at hlen
      omega
    obtain ⟨seqs, rfl, hseqs⟩ := exists_rows_of_utf8Valid hrest
    exact ⟨q :: seqs, he, List.forall_mem_cons.mpr ⟨⟨row, hrow, hq⟩, hseqs⟩⟩
termination_by t.length

/-- Settles O30: the first byte settles the row (`utf8Rows_find`), so the scan and any cutting make the same cuts. -/
theorem utfEightValidExactlyWhenItCanBeCut : Obligations.UtfEightValidExactlyWhenItCanBeCut := by
  refine fun s => ⟨exists_rows_of_utf8Valid, ?_⟩
  rintro ⟨seqs, rfl, hseqs⟩
  exact utf8Valid_flatten hseqs

/-! ### The wire form -/

/-- Past its first segment and the separator after it, a joined text is the other segments joined. -/
theorem drop_join_cons (seg : List Byte) (L : List (List Byte)) : (join (seg :: L)).drop (seg.length + 1) = join L := by
  cases L with
  | nil => simp [join]
  | cons r rs => simp [join_cons_cons, List.drop_append]

/-- A joined text goes on after its first segment with nothing or with a separator. -/
theorem join_cons_eq_append (seg : List Byte) (L : List (List Byte)) :
    ∃ tail, join (seg :: L) = seg ++ tail ∧ ∀ c, tail[0]? = some c → c = Config.sep := by
  cases L with
  | nil => exact ⟨[], by simp [join], by simp⟩
  | cons r rs => exact ⟨_, join_cons_cons seg r rs, fun c hc => (Option.some.inj hc).symm⟩

/-- Segments of one length start at the multiples of that length and a separator. -/
theorem drop_join (h : ∀ seg ∈ L, seg.length = m) (i : Nat) : (join L).drop ((m + 1) * i) = join (L.drop i) := by
  induction i generalizing L with
  | zero => rfl
  | succ i ih =>
    cases L with
    | nil => simp [join]
    | cons seg L =>
      obtain ⟨rfl, hL⟩ := List.forall_mem_cons.mp h
      rw [Nat.mul_succ, Nat.add_comm, ← List.drop_drop, drop_join_cons, ih hL, List.drop_succ_cons]

/-- Segment `i` of a joined text, by its place (44_codec.md R485). -/
theorem take_drop_join (h : ∀ seg ∈ L, seg.length = m) (hi : L[i]? = some seg) :
    ((join L).drop ((m + 1) * i)).take m = seg := by
  obtain ⟨hlt, rfl⟩ := List.getElem?_eq_some_iff.mp hi
  obtain ⟨tail, htail, -⟩ := join_cons_eq_append L[i] (L.drop (i + 1))
  rw [drop_join h, List.drop_eq_getElem_cons hlt, htail, ← h _ (List.getElem_mem hlt), List.take_left]

/-- What stands at each place of a joined text of segments of one length (44_codec.md R485). -/
theorem getElem?_join (h : ∀ seg ∈ L, seg.length = m) (hi : (join L)[i]? = some c) :
    if i % (m + 1) = m then c = Config.sep else ∃ seg ∈ L, c ∈ seg := by
  have hrest : (join (L.drop (i / (m + 1))))[i % (m + 1)]? = some c := by
    rw [← drop_join h, List.getElem?_drop, Nat.div_add_mod, hi]
  have hmod : i % (m + 1) < m + 1 := Nat.mod_lt _ (Nat.succ_pos m)
  cases hL : L.drop (i / (m + 1)) with
  | nil => simp [hL, join] at hrest
  | cons seg rest =>
    have hmem : seg ∈ L := List.mem_of_mem_drop (hL ▸ List.mem_cons_self)
    obtain ⟨tail, htail, hsep⟩ := join_cons_eq_append seg rest
    rw [hL, htail] at hrest
    split_ifs with hlast
    · rw [List.getElem?_append_right (by rw [h seg hmem, hlast]), h seg hmem, hlast, Nat.sub_self] at hrest
      exact hsep c hrest
    · rw [List.getElem?_append_left (by rw [h seg hmem]; omega)] at hrest
      exact ⟨seg, hmem, List.mem_of_getElem? hrest⟩

theorem mem_hexDigits_of_mem_hexenc {bs : List Byte} (h : c ∈ hexenc bs) : c ∈ hexDigits := by
  induction bs with
  | nil => cases h
  | cons b bs ih =>
    obtain ⟨hhi, hlo⟩ := nibbles_lt b
    rw [hexenc_cons_ofNat, List.mem_cons, List.mem_cons] at h
    rcases h with rfl | rfl | h
    · exact List.mem_of_getElem? (hexDigits_getElem? hhi)
    · exact List.mem_of_getElem? (hexDigits_getElem? hlo)
    · exact ih h

/-- The segments of a ciphertext, in order: `cipherText` joins them (44_codec.md R483 steps 4 and 5). -/
def cipherSegments (key d : List Byte) : List (List Byte) :=
  (blocks (pad d)).map fun b => hexenc (List.zipWith forwardByte b key)

theorem cipherText_eq_join (key d : List Byte) : cipherText key d = join (cipherSegments key d) := rfl

theorem length_of_mem_cipherSegments (hk : 16 ≤ key.length) (h : seg ∈ cipherSegments key d) : seg.length = 32 := by
  obtain ⟨b, hb, rfl⟩ := List.mem_map.mp h
  rw [hexenc_length, List.length_zipWith, length_of_mem_blocks hb]
  omega

theorem mem_hexDigits_of_mem_cipherSegments (h : seg ∈ cipherSegments key d) (hc : c ∈ seg) : c ∈ hexDigits := by
  obtain ⟨b, -, rfl⟩ := List.mem_map.mp h
  exact mem_hexDigits_of_mem_hexenc hc

/-- Settles O33: the length is `cipherText_length`; the segments are 32 hex digits each, so the places are those of
`getElem?_join`. -/
theorem encryptOutputHasTheWireForm : Obligations.EncryptOutputHasTheWireForm := by
  intro key d hlen
  have hk : 16 ≤ key.length := by omega
  refine ⟨cipherText_length hk d, fun i c hc => ?_⟩
  have hplace := getElem?_join (fun _ => length_of_mem_cipherSegments hk) hc
  split_ifs at hplace ⊢
  · exact hplace
  · obtain ⟨seg, hseg, hcseg⟩ := hplace
    exact mem_hexDigits_of_mem_cipherSegments hseg hcseg

/-- Segment `i` of a ciphertext is the hex of block `i` of the padded plaintext, transformed. -/
theorem take_drop_cipherText (hk : 16 ≤ key.length) (hi : i < d.length / 16 + 1) :
    ((cipherText key d).drop (33 * i)).take 32 =
      hexenc (List.zipWith forwardByte (((pad d).drop (16 * i)).take 16) key) := by
  refine take_drop_join (fun _ => length_of_mem_cipherSegments hk) ?_
  have hblock : i < (pad d).length / 16 := by
    rw [pad_length]
    omega
  simp [blocks, Config.block, hblock]

/-- Settles O35: a segment depends on its block and the key alone (`take_drop_cipherText`). -/
theorem equalBlocksGiveEqualSegments : Obligations.EqualBlocksGiveEqualSegments := by
  intro key d i j hlen hi hj hblocks
  have hk : 16 ≤ key.length := by omega
  rw [take_drop_cipherText hk hi, take_drop_cipherText hk hj, hblocks]

/-! ### The steps of DECRYPT -/

/-- Every segment decodes exactly when each is hex of 16 bytes (44_codec.md R484 step 3). -/
theorem eachInOrder_decodeSegment_eq_ok : eachInOrder decodeSegment L = .ok blks ↔
    List.Forall₂ (fun seg b => hexdec seg = some b ∧ b.length = 16) L blks := by
  rw [eachInOrder_eq_ok]
  simp only [decodeSegment_eq_ok]

theorem checkUtf8_of_valid (h : utf8Valid d = true) : checkUtf8 d = .ok d := if_pos h

theorem checkUtf8_of_invalid (h : utf8Valid d = false) : checkUtf8 d = failWith .invalidUtf8 :=
  if_neg (Bool.eq_false_iff.mp h)

theorem checkUtf8_eq_ok {p : List Byte} : checkUtf8 d = .ok p ↔ d = p ∧ utf8Valid p = true := by
  cases hd : utf8Valid d with
  | true =>
    rw [checkUtf8_of_valid hd, Except.ok.injEq, iff_self_and]
    rintro rfl
    exact hd
  | false =>
    rw [checkUtf8_of_invalid hd]
    refine iff_of_false (by simp [failWith]) ?_
    rintro ⟨rfl, hp⟩
    rw [hp] at hd
    cases hd

/-- With no segment there is no byte to unpad. -/
theorem decryptWith_of_only_sep (key : List Byte) (h : ∀ c ∈ t, c = Config.sep) :
    decryptWith key t = failWith .paddingError := by
  rw [decryptWith, split_of_only_sep h]
  rfl

theorem decryptWith_eq_ok {p : List Byte} (hk : 16 ≤ key.length) : decryptWith key t = .ok p ↔
    ∃ blks, List.Forall₂ (fun seg b => hexdec seg = some b ∧ b.length = 16) (split t) blks ∧
      unpad (blks.map fun b => List.zipWith inverseByte b key).flatten = .ok p ∧ utf8Valid p = true := by
  simp only [← eachInOrder_decodeSegment_eq_ok]
  constructor
  · intro h
    obtain ⟨blks, hblks, -⟩ := body_bind_ok h
    rw [decryptWith_of_blocks hk hblks] at h
    obtain ⟨q, hq, hcheck⟩ := body_bind_ok h
    obtain ⟨rfl, hvalid⟩ := checkUtf8_eq_ok.mp hcheck
    exact ⟨blks, hblks, hq, hvalid⟩
  · rintro ⟨blks, hblks, hunpad, hvalid⟩
    rw [decryptWith_of_blocks hk hblks, hunpad, body_pure_bind, checkUtf8_of_valid hvalid]

/-- Settles O31: once every segment has decoded, `unpad` and the UTF-8 check decide (`decryptWith_of_blocks`). -/
theorem decryptSucceedsExactlyWhenEveryStepDoes : Obligations.DecryptSucceedsExactlyWhenEveryStepDoes := by
  intro key t hlen
  have hk : 16 ≤ key.length := by omega
  refine ⟨fun p => decryptWith_eq_ok hk, fun blks hblks => ?_, decryptWith_of_only_sep key⟩
  rw [decryptWith_of_blocks hk (eachInOrder_decodeSegment_eq_ok.mpr hblks)]
  refine ⟨fun hbad => ?_, fun p hp hinvalid => ?_⟩
  · rw [unpad_eq_paddingError hbad]
    rfl
  · rw [hp, body_pure_bind, checkUtf8_of_invalid hinvalid]

theorem decodeSegment_of_none (h : hexdec seg = none) : decodeSegment seg = failWith .invalidCiphertextEncoding := by
  rw [decodeSegment, hexdecOr_of_none h]
  rfl

theorem decodeSegment_of_length {b : List Byte} (h : hexdec seg = some b) (hlen : b.length ≠ 16) :
    decodeSegment seg = failWith .invalidBlockSize := by
  rw [decodeSegment, hexdecOr_of_some h, body_pure_bind, if_pos hlen]

/-- The error of the first segment that does not decode is DECRYPT's. -/
theorem decryptWith_first_error {good rest : List (List Byte)} {e : ErrCode} (key : List Byte)
    (hsplit : split t = good ++ seg :: rest) (hgood : ∀ g ∈ good, ∃ b, hexdec g = some b ∧ b.length = 16)
    (hseg : decodeSegment seg = failWith e) : decryptWith key t = failWith e := by
  have hdec : ∀ g ∈ good, ∃ b, decodeSegment g = .ok b := fun g hg =>
    (hgood g hg).imp fun _ => decodeSegment_eq_ok.mpr
  rw [decryptWith, hsplit, eachInOrder_first_error hdec hseg]
  rfl

/-- Settles O32: a segment's own error is the hex check's or else the size check's. -/
theorem decryptReportsTheFirstFailingSegment : Obligations.DecryptReportsTheFirstFailingSegment :=
  fun key _ _ _ _ hsplit hgood =>
    ⟨fun hnone => decryptWith_first_error key hsplit hgood (decodeSegment_of_none hnone),
      fun _ hb hlen => decryptWith_first_error key hsplit hgood (decodeSegment_of_length hb hlen)⟩

/-! ### The round trip -/

theorem split_cipherText (hk : 16 ≤ key.length) (d : List Byte) : split (cipherText key d) = cipherSegments key d := by
  refine split_join (fun seg hseg => ?_) fun seg hseg c hc => ?_
  · refine List.ne_nil_of_length_pos ?_
    rw [length_of_mem_cipherSegments hk hseg]
    decide
  · rintro rfl
    exact absurd (mem_hexDigits_of_mem_cipherSegments hseg hc) (by decide)

/-- The segments of a ciphertext decode to the transformed blocks. -/
theorem decode_cipherSegments (hk : 16 ≤ key.length) (d : List Byte) :
    eachInOrder decodeSegment (cipherSegments key d) =
      .ok ((blocks (pad d)).map fun b => List.zipWith forwardByte b key) := by
  rw [eachInOrder_decodeSegment_eq_ok, cipherSegments, List.forall₂_map_left_iff, List.forall₂_map_right_iff,
    List.forall₂_same]
  refine fun b hb => ⟨hexdec_hexenc _, ?_⟩
  rw [List.length_zipWith, length_of_mem_blocks hb]
  omega

/-- DECRYPT of a ciphertext undoes every step of ENCRYPT, and then checks the plaintext (44_codec.md R486). -/
theorem decryptWith_cipherText (hk : 16 ≤ key.length) (d : List Byte) :
    decryptWith key (cipherText key d) = checkUtf8 d := by
  have hblocks : ((blocks (pad d)).map fun b => List.zipWith forwardByte b key).map
      (fun b => List.zipWith inverseByte b key) = blocks (pad d) := by
    rw [List.map_map]
    refine (List.map_congr_left fun b hb => ?_).trans (List.map_id _)
    exact zipWith_zipWith_cancel inverseByte_forwardByte (by rw [length_of_mem_blocks hb]; exact hk)
  rw [decryptWith_of_blocks hk ((split_cipherText hk d).symm ▸ decode_cipherSegments hk d), hblocks,
    flatten_blocks (pad_length d), unpadUndoesPad d, body_pure_bind]

/-! ### The commands -/

theorem keydec_length {kt : List Byte} (h : keydec kt = .ok key) : key.length = 32 :=
  keydecOperand_length ((keydecOperand_map_some kt).trans h)

/-- Past its checks, a pipeline over a defined key text ends in the key's error, whatever its input holds; or, with a
good key and a defined input, completes as its last step. -/
theorem pipeline_completes {i : Instr} {f : List Byte → List Byte → Body (List Byte)} {kt : List Byte}
    (hp : s.params.Ok) (hbusy : s.phase = .busy snap)
    (hcap : overCapacity s.params i snap.ilen.toNat snap.klen.toNat = false) (hkt : snap.KeyIs kt)
    (hf : ∀ key d, 16 ≤ key.length → f key d ≠ .error .undefRead)
    (hbody : commandBody s.params i snap = (do
      capacityCheck s.params i snap
      let key ← keydecOperand snap.key
      let d ← demandAll snap.input
      let out ← f key d
      return .data out)) :
    (∀ c, keydec kt = failWith c → FailsWith i s c) ∧
    (∀ key d, keydec kt = .ok key → snap.InputIs d → CompletesAs i s (f key d)) := by
  rw [show snap.key = _ from hkt, keydecOperand_map_some] at hbody
  refine ⟨fun c hc => ?_, fun key d hkey hd => ?_⟩
  · rw [capacityCheck_ok hcap, hc] at hbody
    exact failsWith_of_body hbusy hbody
  · have hlen := keydec_length hkey
    rw [hkey, show snap.input = _ from hd, demandAll_map_some] at hbody
    exact completesAs_of_checked hp hbusy hcap (hf key d (by omega)) hbody

/-- Settles O16: past its checks ENCRYPT is the pipeline of `encryptWith`, which gives the ciphertext
(`encryptWith_eq`). -/
theorem encryptCommandEncrypts : Obligations.EncryptCommandEncrypts := by
  refine ⟨by decide, fun s snap hp hbusy => ⟨fun hover => ?_, fun kt hilen hklen hout hkt => ?_⟩⟩
  · exact (failsWith_capacityError_iff hbusy).mpr
      (overCapacity_eq_true.mpr (hover.imp (⟨rfl, ·⟩) (Or.imp_left (⟨rfl, ·⟩))))
  · obtain ⟨herror, hdone⟩ := pipeline_completes (i := .encrypt) hp hbusy
      (overCapacity_eq_false.mpr ⟨fun _ => hilen, fun _ => hklen, hout⟩) hkt
      (fun _ d hk => encryptWith_ne_undef hk d) rfl
    refine ⟨herror, fun key d hkey hd => ?_⟩
    have hlen := keydec_length hkey
    have h := hdone key d hkey hd
    rwa [encryptWith_eq (by omega)] at h

/-- Settles O17: past its checks DECRYPT is the pipeline of `decryptWith`. -/
theorem decryptCommandDecrypts : Obligations.DecryptCommandDecrypts := by
  refine ⟨by decide, fun s snap hp hbusy => ⟨fun hover => ?_, fun kt hilen hklen hkt => ?_⟩⟩
  · exact (failsWith_capacityError_iff hbusy).mpr
      (overCapacity_eq_true.mpr (hover.imp (⟨rfl, ·⟩) fun hk => .inl ⟨rfl, hk⟩))
  · exact pipeline_completes hp hbusy (overCapacity_eq_false.mpr ⟨fun _ => hilen, fun _ => hklen, Nat.zero_le _⟩) hkt
      (fun key t _ => decryptWith_ne_undef key t) rfl

/-- Settles O34: ENCRYPT's result is the ciphertext, of which DECRYPT gives what `checkUtf8` says of the plaintext
(`decryptWith_cipherText`). -/
theorem decryptGivesBackWhatEncryptWasGiven : Obligations.DecryptGivesBackWhatEncryptWasGiven := by
  intro s u a b kt key d hp hparams hs hu hklen hilen hout hakey hbkey hkey hd
  obtain ⟨-, hencrypt⟩ := encryptCommandEncrypts
  obtain ⟨-, hencrypt⟩ := hencrypt s a hp hs
  obtain ⟨-, hencrypt⟩ := hencrypt kt hilen hklen hout hakey
  refine ⟨cipherText key d, hencrypt key d hkey hd, fun hblen hc => ?_⟩
  have hbklen : b.klen.toNat ≤ s.params.kbufBytes := by
    rwa [← keyIs_length hbkey, keyIs_length hakey]
  rw [← hparams] at hp hblen hbklen
  obtain ⟨-, hdecrypt⟩ := decryptCommandDecrypts
  obtain ⟨-, hdecrypt⟩ := hdecrypt u b hp hu
  obtain ⟨-, hdecrypt⟩ := hdecrypt kt hblen hbklen hbkey
  have hdone := hdecrypt key _ hkey hc
  have hlen := keydec_length hkey
  rw [decryptWith_cipherText (by omega)] at hdone
  refine ⟨fun hvalid => ?_, fun hinvalid => ?_⟩
  · rwa [checkUtf8_of_valid hvalid] at hdone
  · rwa [checkUtf8_of_invalid hinvalid] at hdone

end Sys2Proof.Machine

/-! SUPPORT. The codes and the interrupt: every completion's code is one of its command's row, and what each event does
to IRQ (60_exceptions.md R601, R602, R610). -/

namespace Sys2Proof.Machine

variable {s : State} {i : Instr}

/-! ### Error codes -/

/-- A command whose body gives a result is none of the ILLEGAL forms, so OK is in its row (60_exceptions.md R602). -/
theorem ok_mem_allowedCodes {p : Params} {snap : Snapshot} {r : Result} (h : commandBody p i snap = .ok r) :
    .ok ∈ allowedCodes i := by
  cases i
  case illegalAB => cases h
  case illegalCF => cases h
  case illegalRsv => cases h
  all_goals simp [allowedCodes]

/-- Every completion's code is of the command's row: OK with a result, the body's own error, and after an undefined
read whichever code of the row is picked (log 6). -/
theorem complete_errcode_mem_allowedCodes (s : State) (i : Instr) (snap : Snapshot) :
    (s.complete (allowedCodes i) (commandBody s.params i snap)).errcode ∈ allowedCodes i := by
  rcases hbody : commandBody s.params i snap with (c | _) | (_ | out)
  · exact commandBody_raises _ _ _ c hbody
  · exact pickCode_mem (allowedCodes_ne_nil i) _
  · exact ok_mem_allowedCodes hbody
  · exact ok_mem_allowedCodes hbody

/-- Settles O37: the next state is the completion of a body, and EmptyInputError is in no command's row. -/
theorem commandsReportOnlyTheirOwnCodes : Obligations.CommandsReportOnlyTheirOwnCodes := by
  intro i s t h
  obtain ⟨snap, -, rfl⟩ := exec_next h
  have hmem := complete_errcode_mem_allowedCodes s i snap
  exact ⟨hmem, ne_emptyInputError_of_mem_allowedCodes hmem⟩

/-! ### The interrupt -/

/-- A completion sets DONE and leaves CTRL, so IRQ becomes IRQ_EN. -/
@[simp] theorem State.complete_irq (s : State) (l : List ErrCode) (r : Body Result) :
    (s.complete l r).irq = s.irqEn := by
  obtain ⟨hirqEn, -⟩ := s.complete_keepsInputs l r
  rw [State.irq, State.complete_done, Bool.true_and, hirqEn]

@[simp] theorem State.deviceReset_irq (s : State) : s.deviceReset.irq = false := rfl

@[simp] theorem State.startCommand_irq (s : State) (v : Word) : (s.startCommand v).irq = false := rfl

/-- A write to CTRL with bit 0 set resets the device; otherwise IRQ_EN becomes bit 1, and DONE stays. -/
theorem State.writeCtrl_irq (s : State) (v : Word) :
    (s.writeCtrl v).irq = (s.done && !v.getLsbD 0 && v.getLsbD 1) := by
  unfold State.writeCtrl
  cases v.getLsbD 0
  · simp [State.irq]
  · simp

theorem State.acknowledge_irq_of_w1c {v : Word} (h : v.getLsbD 1 = true) : (s.acknowledge v).irq = false := by
  simp [State.irq, h]

/-- A permitted write at a register's offset is the register's own write, and nothing else. -/
theorem eq_writeReg_of_memWrite {t : State} {r : Reg} {v : Word} (h : s.memWrite .w32 r.at v = some t) :
    t = s.writeReg r v :=
  Option.some.inj (h.symm.trans (memWrite_reg s r v))

/-- Settles O49: each event is a completion, or the write of CTRL, of STATUS, or of CMD while IDLE. -/
theorem irqIsTheLevelOfDoneAndEnable : Obligations.IrqIsTheLevelOfDoneAndEnable := by
  intro s
  refine ⟨rfl, fun i t h => ?_, fun v t h => ?_, fun v t h hdone => ?_, fun v t hidle h => ?_⟩
  · obtain ⟨snap, -, rfl⟩ := exec_next h
    exact s.complete_irq _ _
  · obtain rfl := eq_writeReg_of_memWrite (r := .ctrl) h
    exact s.writeCtrl_irq v
  · obtain rfl := eq_writeReg_of_memWrite (r := .status) h
    exact State.acknowledge_irq_of_w1c hdone
  · obtain rfl := eq_writeReg_of_memWrite (r := .cmd) h
    rw [writeReg_cmd_of_idle hidle]
    exact s.startCommand_irq v

end Sys2Proof.Machine

/-! SUPPORT. The writes a running command does not let through, the registers that are always written, and the two
resets (70_reset_and_hazards.md R701 to R705, R722). -/

namespace Sys2Proof.Machine

variable {s t : State} {snap : Snapshot} {n : Width} {off : Offset} {v : Word}

/-! ### CTRL and STATUS -/

theorem State.writeCtrl_of_reset (h : v.getLsbD 0 = true) : s.writeCtrl v = s.deviceReset := if_pos h

theorem State.writeCtrl_of_no_reset (h : v.getLsbD 0 = false) : s.writeCtrl v = { s with irqEn := v.getLsbD 1 } :=
  if_neg (ne_true_of_eq_false h)

/-- Of the writes to CTRL only a soft reset clears BUSYWR (70_reset_and_hazards.md R704, R705). -/
@[simp] theorem State.writeCtrl_busywr : (s.writeCtrl v).busywr = (s.busywr && !v.getLsbD 0) := by
  cases h : v.getLsbD 0
  · simp [State.writeCtrl_of_no_reset h]
  · simp [State.writeCtrl_of_reset h]

/-- Settles O47: 0x0004 and 0x0008 are the offsets of CTRL and STATUS, whose writes do not look at the phase. -/
theorem ctrlAndStatusWritesAreNeverDropped : Obligations.CtrlAndStatusWritesAreNeverDropped := fun s v =>
  ⟨fun h => (memWrite_reg s .ctrl v).trans (congrArg some (State.writeCtrl_of_no_reset h)), memWrite_reg s .status v⟩

/-- Settles O46: a soft reset is CTRL's own write, a hardware reset the environment's turn; both are `deviceReset`,
which leaves the reset values from any state. -/
theorem softAndHardwareResetRestoreTheResetValues : Obligations.SoftAndHardwareResetRestoreTheResetValues := by
  intro s v
  refine ⟨fun h => ?_, atResetValues_deviceReset s, rfl, rfl, fun rest hturn => ?_⟩
  · exact (memWrite_reg s .ctrl v).trans (congrArg some (State.writeCtrl_of_reset h))
  · exact ⟨_, step_listed hturn, atResetValues_deviceReset _, rfl, rfl, rfl⟩

/-! ### Writes while BUSY -/

/-- An aligned access inside KBUF's or IBUF's region goes to one of the two buffers, whatever their sizes. -/
theorem locate_inputBuffer {p : Params} {off n : Nat} (ha : off % n = 0)
    (h : (0x100 ≤ off ∧ off + n ≤ 0x100 + p.kbufBytes) ∨ (0x4000 ≤ off ∧ off + n ≤ 0x4000 + p.ibufBytes)) :
    ∃ k, locate p off n = some (.kbuf k) ∨ locate p off n = some (.ibuf k) := by
  by_cases hk : 0x100 ≤ off ∧ off + n ≤ 0x100 + p.kbufBytes
  · exact ⟨_, .inl (locate_kbuf ha hk.1 hk.2)⟩
  · refine ⟨off - 0x4000, .inr ?_⟩
    have hi := h.resolve_left hk
    unfold locate regsEnd kbufStart ibufStart
    rw [if_neg (by omega), if_neg (by omega), if_neg hk, if_pos hi]

/-- While BUSY a write to CMD, ILEN, KLEN or into KBUF or IBUF is dropped (70_reset_and_hazards.md R722). -/
theorem memWrite_of_dropped (hbusy : s.phase = .busy snap) (h : DroppedWhileBusy s n off) (v : Word) :
    s.memWrite n off v = some s.dropWrite := by
  have hb := State.isBusy_of_busy hbusy
  rcases h with ⟨rfl, rfl | rfl | rfl⟩ | ⟨ha, hin⟩
  · exact (memWrite_reg s .cmd v).trans (by simp [State.writeReg, hb])
  · exact (memWrite_reg s .ilen v).trans (by simp [State.writeReg, hb])
  · exact (memWrite_reg s .klen v).trans (by simp [State.writeReg, hb])
  · obtain ⟨k, hl | hl⟩ := locate_inputBuffer ha hin <;> simp [State.memWrite, hl, hb]

/-- A 4-byte access at a register's offset, told from its numbers. -/
theorem eq_w32_and_eq_at {r : Reg} (hn : n.bytes = 4) (hoff : off.toNat = r.offset) : n = .w32 ∧ off = r.at := by
  refine ⟨?_, BitVec.eq_of_toNat_eq ?_⟩
  · cases n with
    | w8 => cases hn
    | w16 => cases hn
    | w32 => rfl
  · rw [hoff]
    cases r <;> rfl

/-- Everything a permitted write can do while BUSY: it is dropped, it is the write of CTRL or of STATUS, or it has no
effect. -/
theorem memWrite_busy_cases (hbusy : s.phase = .busy snap) (h : s.memWrite n off v = some t) :
    (DroppedWhileBusy s n off ∧ t = s.dropWrite) ∨ (n = .w32 ∧ off = Reg.ctrl.at ∧ t = s.writeCtrl v) ∨
    (n = .w32 ∧ off = Reg.status.at ∧ t = s.acknowledge v) ∨ t = s := by
  by_cases hd : DroppedWhileBusy s n off
  · exact .inl ⟨hd, Option.some.inj (h.symm.trans (memWrite_of_dropped hbusy hd v))⟩
  rcases hl : locate s.params off.toNat n.bytes with _ | target
  · simp [State.memWrite, hl] at h
  obtain ⟨r, rfl, hn, hoff⟩ | ⟨k, -, ha, hin⟩ | ⟨k, -, ha, hin⟩ | ⟨k, rfl⟩ := locate_some hl
  · obtain ⟨rfl, rfl⟩ := eq_w32_and_eq_at hn hoff
    obtain rfl := eq_writeReg_of_memWrite h
    cases r
    case ctrl => exact .inr (.inl ⟨rfl, rfl, rfl⟩)
    case status => exact .inr (.inr (.inl ⟨rfl, rfl, rfl⟩))
    case cmd => exact absurd (.inl ⟨rfl, .inl rfl⟩) hd
    case ilen => exact absurd (.inl ⟨rfl, .inr (.inl rfl)⟩) hd
    case klen => exact absurd (.inl ⟨rfl, .inr (.inr rfl)⟩) hd
    all_goals exact .inr (.inr (.inr rfl))
  · exact absurd (.inr ⟨ha, .inl hin⟩) hd
  · exact absurd (.inr ⟨ha, .inr hin⟩) hd
  · simp only [State.memWrite, hl, Option.some.injEq] at h
    exact .inr (.inr (.inr h.symm))

/-- Settles O50: of the four things a permitted write can do while BUSY, dropping it sets BUSYWR, and the writes of CTRL
and STATUS can only clear it. -/
theorem writesWhileBusyAreDropped : Obligations.WritesWhileBusyAreDropped := by
  intro s snap n off v hbusy
  refine ⟨fun hd => memWrite_of_dropped hbusy hd v, memWrite_eq_none.mpr, fun t hw hset => ?_, fun t hw hset => ?_⟩
  · obtain ⟨hd, -⟩ | ⟨-, -, rfl⟩ | ⟨-, -, rfl⟩ | rfl := memWrite_busy_cases hbusy hw
    · exact .inr hd
    · rw [State.writeCtrl_busywr, Bool.and_eq_true] at hset
      exact .inl hset.1
    · rw [State.acknowledge_busywr, Bool.and_eq_true] at hset
      exact .inl hset.1
    · exact .inl hset
  · obtain ⟨-, rfl⟩ | ⟨rfl, rfl, rfl⟩ | ⟨rfl, rfl, rfl⟩ | rfl := memWrite_busy_cases hbusy hw
    · exact .inl rfl
    · cases hbit : v.getLsbD 0
      · exact .inl (by rw [State.writeCtrl_busywr, hset, hbit, Bool.not_false, Bool.and_self])
      · exact .inr (.inr ⟨rfl, rfl, rfl⟩)
    · cases hbit : v.getLsbD 3
      · exact .inl (by rw [State.acknowledge_busywr, hset, hbit, Bool.not_false, Bool.and_self])
      · exact .inr (.inl ⟨rfl, rfl, rfl⟩)
    · exact .inl hset

end Sys2Proof.Machine
